-- ==== Sys2Proof/Word.lean ====
section
/-! DEFINITION. The machine's word and byte (rule R17; 92_eei_decisions.md D1). -/

namespace Sys2Proof

/-- Every register, bus word, operand word and address is an unsigned 64-bit value (R30, R70, D1). -/
abbrev Word := BitVec 64

/-- One of the eight bytes a word is serialized to (R84). -/
abbrev Byte := BitVec 8

/-- `bool2u(b)`: 1 if `b` holds and 0 otherwise (R17). -/
def boolWord (b : Bool) : Word := if b then 1 else 0

end Sys2Proof
end

