-- ==== Sys2Proof/Machine/Entries.lean ====
section
/-! DEFINITION. Numbered entries held in a list: the slots of a bank, the stack, the states of devices. An entry past
the end of the list has the default value, and writing one lengthens the list, so that a write is always read back. -/

namespace Sys2Proof.Machine

/-- The entry with a number. -/
def entryAt {α : Type} (default : α) : List α → Nat → α
  | [], _ => default
  | x :: _, 0 => x
  | _ :: xs, n + 1 => entryAt default xs n

/-- Replace the entry with a number. -/
def setEntry {α : Type} (default : α) : List α → Nat → α → List α
  | [], 0, y => [y]
  | [], n + 1, y => default :: setEntry default [] n y
  | _ :: xs, 0, y => y :: xs
  | x :: xs, n + 1, y => x :: setEntry default xs n y

end Sys2Proof.Machine
end

