-- ==== Sys2Proof/Config.lean ====
section
/-! DEFINITION. The implementation parameters of rule R10, at the defaults this hardware takes, and the
parameters the spec leaves OPEN, as constants without a body. -/

namespace Sys2Proof

/-- The interrupt kinds, in the order of the source's enumeration (R300). -/
inductive Kind where
  | stackOverflow
  | fault
  | badAddr
  | divByZero
  | badInstr
  | timer
  deriving DecidableEq, Repr, Inhabited

/-- The name of a peripheral device of the platform (R332). -/
abbrev DeviceId := Nat

/-- The state of a peripheral device. Its meaning belongs to the device; the core only keeps it
(R50; log entry 3). -/
abbrev DeviceState := List Word

/-- What a device's region answers (R14, D30). -/
inductive DeviceReply (α : Type) where
  | ok (value : α)
  | devError
  deriving DecidableEq, Repr, Inhabited

/-- Who answers the addresses of a region (R50, R71): RAM, or a device of the platform. -/
inductive Backing where
  | ram
  | device (id : DeviceId)
  deriving DecidableEq, Repr, Inhabited

/-- One entry `(start, end, device)` of the bus's region list: the half-open range `[start, stop)` (R71). -/
structure Region where
  start : Word
  stop : Word
  backing : Backing
  deriving DecidableEq, Repr, Inhabited

/-- The numbers of R10 that a platform may choose, each at the default this hardware takes. A reset takes them as an
argument, with `PLATFORM_MAP` and `PERIPHERALS` (R350), and they are fixed between resets. `IVT_SIZE` is fixed by R11;
`WORD`, `NSCALAR` and `NBANK` are the shape of this model's types; `RAM_INIT` and `CHAR_ENCODING` are the OPEN ones
below (log entry 14). -/
structure Params where
  /-- `BANK_SLOTS`: the slots of each of the four banks (R10, I10). -/
  bankSlots : Nat := 10
  /-- `STACK_CAPACITY`, which is also the value of `sp` on an empty stack, so a word (R10, R41, I4). -/
  stackCapacity : Word := 20
  /-- `STACK_CAPACITY` is at least 1 (R11). -/
  stackCapacity_pos : 0 < stackCapacity.toNat := by decide
  /-- `RAM_BASE` (R10, I10). -/
  ramBase : Word := 0xA0000000
  /-- `RAM_SIZE`, in words (R10, I10). -/
  ramSize : Word := 0x40000000
  /-- `IO_BASE`, the base of the boot rule; `RAM_BASE` where it is not given (R10, I3, D24). -/
  ioBase : Word := ramBase
  /-- `LABEL_BASE`, which the assembler adds to a function offset (R10, R145). -/
  labelBase : Word := 0xA0000000
  deriving DecidableEq, Repr

/-- The default `PLATFORM_MAP` for given numbers: one region, the RAM window (R10, D48). -/
def Params.ramWindow (p : Params) : List Region :=
  [{ start := p.ramBase, stop := p.ramBase + p.ramSize, backing := .ram }]

namespace Config

/-- The numbers at their defaults (R10). -/
def defaults : Params := {}

/-- `PLATFORM_MAP` at its default (R10). -/
def platformMap : List Region := defaults.ramWindow

/-- `PERIPHERALS` at its default: empty (R10, D29). -/
def peripherals : List DeviceId := []

/-- `IVT_SIZE`, fixed at 6 (R10, R11). -/
abbrev ivtSize : Nat := 6

/-- `RAM_INIT`, OPEN: what byte cell `k` of RAM reads as before any write (R79, D26). A free value:
log entry 2. -/
opaque ramInit : Nat → Byte

/-- `CHAR_ENCODING`, OPEN: the single byte a character literal encodes to (R144, D37). A free value:
log entry 7. -/
opaque charEncoding : Char → Byte

/-- A device's `read(offset)`: its answer and its state afterwards (R14, R83). A parameter: log entry 3. -/
opaque deviceRead : DeviceId → DeviceState → Word → DeviceReply Word × DeviceState

/-- A device's `write(offset, w)` (R14, R83). A parameter: log entry 3. -/
opaque deviceWrite : DeviceId → DeviceState → Word → Word → DeviceReply Unit × DeviceState

/-- A device's `tick()`: the interrupt kind it requests, if any (R16, R136). A parameter: log entry 3. -/
opaque deviceTick : DeviceId → DeviceState → Option Kind × DeviceState

/-- A device's `reset()` hook; a device without one leaves its state alone (R14, R350). A parameter:
log entry 3. -/
opaque deviceReset : DeviceId → DeviceState → DeviceState

/-- A device's `teardown()` hook, called when the block is destroyed (R14, R95). A parameter: log entry 3. -/
opaque deviceTeardown : DeviceId → DeviceState → DeviceState

end Config

end Sys2Proof
end

