-- ==== Sys2Proof/Syntax.lean ====
section
/-! DEFINITION. The instruction set: one constructor per row of the opcode table (R116), the registers
(R30, R32) and the operand-word roles (R112, R114). -/

namespace Sys2Proof

/-- The registers of the file: six scalars and the slots of four banks (R30, R32). With the default ten slots they
are 46; a slot number that is not under `BANK_SLOTS` names no register (R33). -/
inductive Reg where
  | flags
  | tmp
  | sp
  | ip
  | pc
  | cycle
  | data (slot : Nat)
  | index (slot : Nat)
  | addr (slot : Nat)
  | ptr (slot : Nat)
  deriving DecidableEq, Repr

/-- An operand word read as a flat register index. Decode never checks it; execution does (R33, R126). -/
abbrev RegIndex := Word

/-- An operand word read as an absolute word address (R112). -/
abbrev Address := Word

/-- An operand word read as an immediate: all 64 bits as they are (R112, R122). -/
abbrev Imm := Word

/-- An instruction: a mnemonic in one operand form, with the operand words its format uses (R114, R116).
The first operand is word `A`, the second word `V`; a word the format leaves unused is no part of the
instruction (R115). -/
inductive Instr where
  /-- `nop` (R290). -/
  | nop
  /-- `hlt` (R291). -/
  | hlt
  /-- `add %rd, %rs` (R162). -/
  | addRR (rd : RegIndex) (rs : RegIndex)
  /-- `add $d, $s` (R163). -/
  | addMM (dst : Address) (src : Address)
  /-- `sub %rd, %rs` (R164). -/
  | subRR (rd : RegIndex) (rs : RegIndex)
  /-- `sub $d, $s` (R165). -/
  | subMM (dst : Address) (src : Address)
  /-- `mul %rd, %rs` (R166). -/
  | mulRR (rd : RegIndex) (rs : RegIndex)
  /-- `mul $d, $s` (R167). -/
  | mulMM (dst : Address) (src : Address)
  /-- `div %rd, %rs` (R168). -/
  | divRR (rd : RegIndex) (rs : RegIndex)
  /-- `div $d, $s` (R169). -/
  | divMM (dst : Address) (src : Address)
  /-- `and %rd, %rs` (R170). -/
  | andRR (rd : RegIndex) (rs : RegIndex)
  /-- `and $d, $s` (R171). -/
  | andMM (dst : Address) (src : Address)
  /-- `or %rd, %rs` (R172). -/
  | orRR (rd : RegIndex) (rs : RegIndex)
  /-- `or $d, $s` (R173). -/
  | orMM (dst : Address) (src : Address)
  /-- `xor %rd, %rs` (R174). -/
  | xorRR (rd : RegIndex) (rs : RegIndex)
  /-- `xor $d, $s` (R175). -/
  | xorMM (dst : Address) (src : Address)
  /-- `nor %rd, %rs` (R176). -/
  | norRR (rd : RegIndex) (rs : RegIndex)
  /-- `nor $d, $s` (R177). -/
  | norMM (dst : Address) (src : Address)
  /-- `nand %rd, %rs` (R178). -/
  | nandRR (rd : RegIndex) (rs : RegIndex)
  /-- `nand $d, $s` (R179). -/
  | nandMM (dst : Address) (src : Address)
  /-- `lshift %rd, %rs` (R180). -/
  | lshiftRR (rd : RegIndex) (rs : RegIndex)
  /-- `lshift $d, $s` (R181). -/
  | lshiftMM (dst : Address) (src : Address)
  /-- `rshift %rd, %rs` (R182). -/
  | rshiftRR (rd : RegIndex) (rs : RegIndex)
  /-- `rshift $d, $s` (R183). -/
  | rshiftMM (dst : Address) (src : Address)
  /-- `cmp %ra, %rb` (R184). -/
  | cmpRR (rd : RegIndex) (rs : RegIndex)
  /-- `cmp $a, $b` (R185). -/
  | cmpMM (dst : Address) (src : Address)
  /-- `jit %r` (R201). -/
  | jitR (r : RegIndex)
  /-- `jit $t` (R202). -/
  | jitM (a : Address)
  /-- `jit imm` (R203). -/
  | jitI (imm : Imm)
  /-- `jmp %r` (R204). -/
  | jmpR (r : RegIndex)
  /-- `jmp $t` (R205). -/
  | jmpM (a : Address)
  /-- `jmp imm` (R206). -/
  | jmpI (imm : Imm)
  /-- `call %r` (R207). -/
  | callR (r : RegIndex)
  /-- `call $t` (R208). -/
  | callM (a : Address)
  /-- `call imm` (R209). -/
  | callI (imm : Imm)
  /-- `ret` (R210). -/
  | ret
  /-- `push %r` (R232). -/
  | pushR (r : RegIndex)
  /-- `push $a` (R233). -/
  | pushM (a : Address)
  /-- `push imm` (R234). -/
  | pushI (imm : Imm)
  /-- `pop %r` (R235). -/
  | popR (r : RegIndex)
  /-- `pop $a` (R236). -/
  | popM (a : Address)
  /-- `mov %rd, %rs` (R250). -/
  | movRR (rd : RegIndex) (rs : RegIndex)
  /-- `mov %rd, $s` (R251). -/
  | movRM (rd : RegIndex) (src : Address)
  /-- `mov %rd, imm` (R252). -/
  | movRI (rd : RegIndex) (imm : Imm)
  /-- `mov $d, %rs` (R253). -/
  | movMR (dst : Address) (rs : RegIndex)
  /-- `mov $d, $s` (R254). -/
  | movMM (dst : Address) (src : Address)
  /-- `stor $d, imm` (R255). -/
  | storMI (dst : Address) (imm : Imm)
  /-- `int %r` (R271). -/
  | intR (r : RegIndex)
  /-- `int $a` (R272). -/
  | intM (a : Address)
  /-- `int imm` (R273). -/
  | intI (imm : Imm)
  /-- `iret` (R275). -/
  | iret
  /-- `lditbl %r` (R281). -/
  | lditblR (r : RegIndex)
  /-- `lditbl $b` (R282). -/
  | lditblM (a : Address)
  /-- `lditbl imm` (R283). -/
  | lditblI (imm : Imm)
  deriving DecidableEq, Repr

end Sys2Proof
end

