-- ==== Sys2Proof/Decode.lean ====
section
/-! DEFINITION. Register numbering (R32, R33), the byte serialization of words (R84), the decoder
(R110 to R127) and the encoder written from the same table (R111, R148). -/

namespace Sys2Proof

/-- The register at slot `slot` of bank number `bank`, where there is such a bank (R32). -/
def bankReg (bank slot : Nat) : Option Reg :=
  match bank with
  | 0 => some (.data slot)
  | 1 => some (.index slot)
  | 2 => some (.addr slot)
  | 3 => some (.ptr slot)
  | _ => none

/-- The register a flat index names: the gapped scheme, six scalars and then `6 + 11*bank + slot`, with one
padding index after each bank (R32, C2). With another `BANK_SLOTS` the 11 is one more than it (R11; log entry 14). -/
def regOfIndex (p : Params) (i : RegIndex) : Option Reg :=
  match i.toNat with
  | 0 => some .flags
  | 1 => some .tmp
  | 2 => some .sp
  | 3 => some .ip
  | 4 => some .pc
  | 5 => some .cycle
  | n + 6 =>
    if n % (p.bankSlots + 1) < p.bankSlots then bankReg (n / (p.bankSlots + 1)) (n % (p.bankSlots + 1)) else none

/-- The flat index of slot `slot` of bank number `bank` (R32; log entry 14). -/
def bankIndex (p : Params) (bank slot : Nat) : RegIndex := BitVec.ofNat 64 (6 + (p.bankSlots + 1) * bank + slot)

/-- The flat index of a register (R32). -/
def regIndex (p : Params) : Reg → RegIndex
  | .flags => 0
  | .tmp => 1
  | .sp => 2
  | .ip => 3
  | .pc => 4
  | .cycle => 5
  | .data s => bankIndex p 0 s
  | .index s => bankIndex p 1 s
  | .addr s => bankIndex p 2 s
  | .ptr s => bankIndex p 3 s

/-- `RegCheck(i)`: `i` is a valid flat index (R33). -/
def regCheck (p : Params) (i : RegIndex) : Bool := (regOfIndex p i).isSome

/-- Byte `k` of a word, byte 7 the most significant (R17). -/
def wordByte (w : Word) (k : Nat) : Byte := w.extractLsb' (8 * k) 8

/-- A word serialized: eight bytes, most significant first (R84). -/
def wordBytes (w : Word) : List Byte :=
  [wordByte w 7, wordByte w 6, wordByte w 5, wordByte w 4, wordByte w 3, wordByte w 2, wordByte w 1, wordByte w 0]

/-- The word that bytes, most significant first, stand for (R84). -/
def wordOfBytes (bytes : List Byte) : Word :=
  BitVec.ofNat 64 (bytes.foldl (fun n b => 256 * n + b.toNat) 0)

/-- An instruction as fetched: three words (R110, R133). -/
structure Triplet where
  w0 : Word
  a : Word
  v : Word
  deriving DecidableEq, Repr

/-- The addressing-mode tags (R113, D8). -/
inductive Tag where
  | none
  | reg
  | addr
  | raw
  deriving DecidableEq, Repr

/-- The number of a tag (R113). -/
def tagCode : Tag → Byte
  | .none => 0x00
  | .reg => 0x01
  | .addr => 0x02
  | .raw => 0x03

/-- `W0 = (TAG << 56) | (OPC << 48)` (R111). -/
def encodeWord0 (tag : Tag) (opc : Byte) : Word :=
  ((tagCode tag).setWidth 64 <<< 56) ||| (opc.setWidth 64 <<< 48)

/-- Why a word 0 decodes `Invalid`, for the reader: the hardware raises BADINSTR for each alike (R125, R126,
log entry 13). `truncated` is a byte record that ends before its 24 bytes (R110). -/
inductive DecodeError where
  | nonzeroLowBits
  | reservedTag
  | unlistedOpcode
  | wrongTag
  | truncated
  deriving DecidableEq, Repr

/-- One row of the opcode table: the tag and opcode number that select it, and the instruction it makes of the
two operand words (R114, R116). -/
structure OpcodeRow where
  opc : Byte
  tag : Tag
  build : Word → Word → Instr

/-- The opcode table (R116). -/
def opcodeTable : List OpcodeRow := [
  ⟨0x00, .none, fun _ _ => .nop⟩,
  ⟨0x01, .none, fun _ _ => .hlt⟩,
  ⟨0x02, .reg, fun a v => .addRR a v⟩,
  ⟨0x03, .addr, fun a v => .addMM a v⟩,
  ⟨0x04, .reg, fun a v => .subRR a v⟩,
  ⟨0x05, .addr, fun a v => .subMM a v⟩,
  ⟨0x06, .reg, fun a v => .mulRR a v⟩,
  ⟨0x07, .addr, fun a v => .mulMM a v⟩,
  ⟨0x08, .reg, fun a v => .divRR a v⟩,
  ⟨0x09, .addr, fun a v => .divMM a v⟩,
  ⟨0x0A, .reg, fun a v => .andRR a v⟩,
  ⟨0x0B, .addr, fun a v => .andMM a v⟩,
  ⟨0x0C, .reg, fun a v => .orRR a v⟩,
  ⟨0x0D, .addr, fun a v => .orMM a v⟩,
  ⟨0x0E, .reg, fun a v => .xorRR a v⟩,
  ⟨0x0F, .addr, fun a v => .xorMM a v⟩,
  ⟨0x10, .reg, fun a v => .norRR a v⟩,
  ⟨0x11, .addr, fun a v => .norMM a v⟩,
  ⟨0x12, .reg, fun a v => .nandRR a v⟩,
  ⟨0x13, .addr, fun a v => .nandMM a v⟩,
  ⟨0x14, .reg, fun a v => .lshiftRR a v⟩,
  ⟨0x15, .addr, fun a v => .lshiftMM a v⟩,
  ⟨0x16, .reg, fun a v => .rshiftRR a v⟩,
  ⟨0x17, .addr, fun a v => .rshiftMM a v⟩,
  ⟨0x18, .reg, fun a v => .cmpRR a v⟩,
  ⟨0x19, .addr, fun a v => .cmpMM a v⟩,
  ⟨0x1A, .reg, fun a _ => .jitR a⟩,
  ⟨0x1B, .addr, fun a _ => .jitM a⟩,
  ⟨0x1C, .raw, fun a _ => .jitI a⟩,
  ⟨0x1D, .reg, fun a _ => .jmpR a⟩,
  ⟨0x1E, .addr, fun a _ => .jmpM a⟩,
  ⟨0x1F, .raw, fun a _ => .jmpI a⟩,
  ⟨0x20, .reg, fun a _ => .callR a⟩,
  ⟨0x21, .addr, fun a _ => .callM a⟩,
  ⟨0x22, .raw, fun a _ => .callI a⟩,
  ⟨0x23, .none, fun _ _ => .ret⟩,
  ⟨0x24, .reg, fun a _ => .pushR a⟩,
  ⟨0x25, .addr, fun a _ => .pushM a⟩,
  ⟨0x26, .raw, fun a _ => .pushI a⟩,
  ⟨0x27, .reg, fun a _ => .popR a⟩,
  ⟨0x28, .addr, fun a _ => .popM a⟩,
  ⟨0x29, .reg, fun a v => .movRR a v⟩,
  ⟨0x2A, .reg, fun a v => .movRM a v⟩,
  ⟨0x2B, .reg, fun a v => .movRI a v⟩,
  ⟨0x2C, .addr, fun a v => .movMR a v⟩,
  ⟨0x2D, .addr, fun a v => .movMM a v⟩,
  ⟨0x2E, .addr, fun a v => .storMI a v⟩,
  ⟨0x2F, .reg, fun a _ => .intR a⟩,
  ⟨0x30, .addr, fun a _ => .intM a⟩,
  ⟨0x31, .raw, fun a _ => .intI a⟩,
  ⟨0x32, .none, fun _ _ => .iret⟩,
  ⟨0x33, .reg, fun a _ => .lditblR a⟩,
  ⟨0x34, .addr, fun a _ => .lditblM a⟩,
  ⟨0x35, .raw, fun a _ => .lditblI a⟩ ]

/-- `Decode(W0)`: word 0 alone selects the row (R125, R126). The low 48 bits are zero, and the tag and opcode number
are those of one row. -/
def decodeRow (w0 : Word) : Except DecodeError OpcodeRow :=
  if w0.extractLsb' 0 48 ≠ 0 then .error .nonzeroLowBits
  else if 3 < (wordByte w0 7).toNat then .error .reservedTag
  else
    match opcodeTable.find? (fun row => row.opc == wordByte w0 6) with
    | none => .error .unlistedOpcode
    | some row => if tagCode row.tag = wordByte w0 7 then .ok row else .error .wrongTag

/-- The instruction of a triplet: the row word 0 selects, with the operand words as they are (R112, R125). -/
def decode (t : Triplet) : Except DecodeError Instr :=
  match decodeRow t.w0 with
  | .error e => .error e
  | .ok row => .ok (row.build t.a t.v)

/-- Decoding from serialized bytes: one 24-byte record, and the bytes after it (R110, R84). -/
def decodeRecord (bytes : List Byte) : Except DecodeError (Instr × List Byte) :=
  if bytes.length < 24 then .error .truncated
  else
    match decode
      { w0 := wordOfBytes (bytes.take 8)
        a := wordOfBytes ((bytes.drop 8).take 8)
        v := wordOfBytes ((bytes.drop 16).take 8) } with
    | .error e => .error e
    | .ok i => .ok (i, bytes.drop 24)

/-- The words of an instruction: `W0` from its row, the operand words as they are, 0 in a word the format leaves
unused (R111, R114, R115, R148). -/
def encode : Instr → Triplet
  | .nop => ⟨encodeWord0 .none 0x00, 0, 0⟩
  | .hlt => ⟨encodeWord0 .none 0x01, 0, 0⟩
  | .addRR rd rs => ⟨encodeWord0 .reg 0x02, rd, rs⟩
  | .addMM dst src => ⟨encodeWord0 .addr 0x03, dst, src⟩
  | .subRR rd rs => ⟨encodeWord0 .reg 0x04, rd, rs⟩
  | .subMM dst src => ⟨encodeWord0 .addr 0x05, dst, src⟩
  | .mulRR rd rs => ⟨encodeWord0 .reg 0x06, rd, rs⟩
  | .mulMM dst src => ⟨encodeWord0 .addr 0x07, dst, src⟩
  | .divRR rd rs => ⟨encodeWord0 .reg 0x08, rd, rs⟩
  | .divMM dst src => ⟨encodeWord0 .addr 0x09, dst, src⟩
  | .andRR rd rs => ⟨encodeWord0 .reg 0x0A, rd, rs⟩
  | .andMM dst src => ⟨encodeWord0 .addr 0x0B, dst, src⟩
  | .orRR rd rs => ⟨encodeWord0 .reg 0x0C, rd, rs⟩
  | .orMM dst src => ⟨encodeWord0 .addr 0x0D, dst, src⟩
  | .xorRR rd rs => ⟨encodeWord0 .reg 0x0E, rd, rs⟩
  | .xorMM dst src => ⟨encodeWord0 .addr 0x0F, dst, src⟩
  | .norRR rd rs => ⟨encodeWord0 .reg 0x10, rd, rs⟩
  | .norMM dst src => ⟨encodeWord0 .addr 0x11, dst, src⟩
  | .nandRR rd rs => ⟨encodeWord0 .reg 0x12, rd, rs⟩
  | .nandMM dst src => ⟨encodeWord0 .addr 0x13, dst, src⟩
  | .lshiftRR rd rs => ⟨encodeWord0 .reg 0x14, rd, rs⟩
  | .lshiftMM dst src => ⟨encodeWord0 .addr 0x15, dst, src⟩
  | .rshiftRR rd rs => ⟨encodeWord0 .reg 0x16, rd, rs⟩
  | .rshiftMM dst src => ⟨encodeWord0 .addr 0x17, dst, src⟩
  | .cmpRR rd rs => ⟨encodeWord0 .reg 0x18, rd, rs⟩
  | .cmpMM dst src => ⟨encodeWord0 .addr 0x19, dst, src⟩
  | .jitR r => ⟨encodeWord0 .reg 0x1A, r, 0⟩
  | .jitM a => ⟨encodeWord0 .addr 0x1B, a, 0⟩
  | .jitI imm => ⟨encodeWord0 .raw 0x1C, imm, 0⟩
  | .jmpR r => ⟨encodeWord0 .reg 0x1D, r, 0⟩
  | .jmpM a => ⟨encodeWord0 .addr 0x1E, a, 0⟩
  | .jmpI imm => ⟨encodeWord0 .raw 0x1F, imm, 0⟩
  | .callR r => ⟨encodeWord0 .reg 0x20, r, 0⟩
  | .callM a => ⟨encodeWord0 .addr 0x21, a, 0⟩
  | .callI imm => ⟨encodeWord0 .raw 0x22, imm, 0⟩
  | .ret => ⟨encodeWord0 .none 0x23, 0, 0⟩
  | .pushR r => ⟨encodeWord0 .reg 0x24, r, 0⟩
  | .pushM a => ⟨encodeWord0 .addr 0x25, a, 0⟩
  | .pushI imm => ⟨encodeWord0 .raw 0x26, imm, 0⟩
  | .popR r => ⟨encodeWord0 .reg 0x27, r, 0⟩
  | .popM a => ⟨encodeWord0 .addr 0x28, a, 0⟩
  | .movRR rd rs => ⟨encodeWord0 .reg 0x29, rd, rs⟩
  | .movRM rd src => ⟨encodeWord0 .reg 0x2A, rd, src⟩
  | .movRI rd imm => ⟨encodeWord0 .reg 0x2B, rd, imm⟩
  | .movMR dst rs => ⟨encodeWord0 .addr 0x2C, dst, rs⟩
  | .movMM dst src => ⟨encodeWord0 .addr 0x2D, dst, src⟩
  | .storMI dst imm => ⟨encodeWord0 .addr 0x2E, dst, imm⟩
  | .intR r => ⟨encodeWord0 .reg 0x2F, r, 0⟩
  | .intM a => ⟨encodeWord0 .addr 0x30, a, 0⟩
  | .intI imm => ⟨encodeWord0 .raw 0x31, imm, 0⟩
  | .iret => ⟨encodeWord0 .none 0x32, 0, 0⟩
  | .lditblR r => ⟨encodeWord0 .reg 0x33, r, 0⟩
  | .lditblM a => ⟨encodeWord0 .addr 0x34, a, 0⟩
  | .lditblI imm => ⟨encodeWord0 .raw 0x35, imm, 0⟩

/-- The serialized record of a triplet: three big-endian words, 24 bytes (R110, R148). -/
def tripletBytes (t : Triplet) : List Byte := wordBytes t.w0 ++ wordBytes t.a ++ wordBytes t.v

/-- The serialized record of an instruction (R110, R148). -/
def encodeBytes (i : Instr) : List Byte := tripletBytes (encode i)

/-- The three words whose bits, numbered from bit 0 of the first word, are the low `nbits` bits of `w`; every bit
above them is 0 (log entry 11). -/
def tableTriplet (nbits w : Nat) : Triplet :=
  let bits := w % 2 ^ nbits
  { w0 := BitVec.ofNat 64 bits
    a := BitVec.ofNat 64 (bits / 2 ^ 64)
    v := BitVec.ofNat 64 (bits / 2 ^ 128) }

/-- The instruction the decoder reads from an opcode-table word (log entry 11). -/
def decodeTableWord (nbits w : Nat) : Option Instr :=
  match decode (tableTriplet nbits w) with
  | .ok i => some i
  | .error _ => none

end Sys2Proof
end

