-- ==== Sys2Proof/WellFormed.lean ====
section
/-! DEFINITION. Which instructions assembly text can name: every register operand is a valid register (R141).
Any other instruction still decodes and runs (R126), raising BADADDR (R33); log entry 6. -/

namespace Sys2Proof

/-- The register operands of an instruction, in operand order (R114). -/
def registerOperands : Instr → List RegIndex
  | .nop => []
  | .hlt => []
  | .addRR rd rs => [rd, rs]
  | .addMM _ _ => []
  | .subRR rd rs => [rd, rs]
  | .subMM _ _ => []
  | .mulRR rd rs => [rd, rs]
  | .mulMM _ _ => []
  | .divRR rd rs => [rd, rs]
  | .divMM _ _ => []
  | .andRR rd rs => [rd, rs]
  | .andMM _ _ => []
  | .orRR rd rs => [rd, rs]
  | .orMM _ _ => []
  | .xorRR rd rs => [rd, rs]
  | .xorMM _ _ => []
  | .norRR rd rs => [rd, rs]
  | .norMM _ _ => []
  | .nandRR rd rs => [rd, rs]
  | .nandMM _ _ => []
  | .lshiftRR rd rs => [rd, rs]
  | .lshiftMM _ _ => []
  | .rshiftRR rd rs => [rd, rs]
  | .rshiftMM _ _ => []
  | .cmpRR rd rs => [rd, rs]
  | .cmpMM _ _ => []
  | .jitR r => [r]
  | .jitM _ => []
  | .jitI _ => []
  | .jmpR r => [r]
  | .jmpM _ => []
  | .jmpI _ => []
  | .callR r => [r]
  | .callM _ => []
  | .callI _ => []
  | .ret => []
  | .pushR r => [r]
  | .pushM _ => []
  | .pushI _ => []
  | .popR r => [r]
  | .popM _ => []
  | .movRR rd rs => [rd, rs]
  | .movRM rd _ => [rd]
  | .movRI rd _ => [rd]
  | .movMR _ rs => [rs]
  | .movMM _ _ => []
  | .storMI _ _ => []
  | .intR r => [r]
  | .intM _ => []
  | .intI _ => []
  | .iret => []
  | .lditblR r => [r]
  | .lditblM _ => []
  | .lditblI _ => []

/-- The instruction can be written in assembly: each of its register operands passes RegCheck (R33, R141). -/
def wellFormed (p : Params) (i : Instr) : Bool := (registerOperands i).all (regCheck p)

end Sys2Proof
end

