-- ==== Sys2Proof/Machine/State.lean ====
section
/-! DEFINITION. The machine's state (R30 to R53), its reset value (R52, R350), and the reasons a step could stop. -/

namespace Sys2Proof.Machine

/-- Why the block stopped (R49). -/
inductive FatalReason where
  /-- An INT of kind 6 or more while IDLE (R312). -/
  | badKind
  /-- A region failed otherwise than by being unmapped (R76). -/
  | device
  deriving DecidableEq, Repr

/-- No step of this hardware stops with a fault: every interrupt is taken (R300 to R307), and the two fatal
conditions are a state the spec describes (R49, R360, R361). So there is no constructor (log entry 4; safe). -/
inductive Fault where
  deriving DecidableEq, Repr

/-- The reasons the model would have no meaning for an instruction. -/
inductive Refusal where
  /-- Raised by an arm of `exec` for an instruction without a meaning; no arm does (safe). -/
  | notModelled (mnemonic : String)
  deriving DecidableEq, Repr

/-- A register file: six scalars and four banks, 46 registers of 64 bits with the default slots (R30, R31). A bank is
its slots in order, each under its number (log entry 14). -/
structure RegFile where
  /-- Bit 0 is the interrupt-active bit `IF`; bits 63:1 are plain storage (R39). -/
  flags : Word
  /-- The result of CMP, read by JIT (R40). -/
  tmp : Word
  /-- Index into the stack array; `STACK_CAPACITY` when empty (R41). -/
  sp : Word
  /-- Word 0 of the last instruction fetched (R42). -/
  ip : Word
  /-- The program counter, a word address (R37). -/
  pc : Word
  /-- Completed steps modulo 2^64 (R43). -/
  cycle : Word
  data : List Word
  index : List Word
  addr : List Word
  ptr : List Word
  deriving DecidableEq, Repr

/-- RAM: the byte cells ever written, addresses strictly rising. The word at address `a` is the cells `8a` to
`8a + 7`, most significant byte first (R79, R84; log entry 1). A cell not listed has never been written. -/
abbrev Memory := List Host.Cell

/-- The state of the block and of what is attached to its bus (R12, R50). -/
structure State where
  /-- The numbers of R10, as the last reset took them (log entry 14). -/
  params : Params
  /-- The current register file (R30). -/
  regs : RegFile
  /-- The saved register file: the snapshot of interrupt entry (R44). -/
  saved : RegFile
  /-- The call and data stack, `stack[0]` first (R45). -/
  stack : List Word
  /-- The interrupt vector table (R46). -/
  ivt : Vector Word Config.ivtSize
  /-- The last interrupt taken, `none` for NONE (R47). -/
  lastint : Option Kind
  /-- A step happens only while it holds (R48). -/
  running : Bool
  /-- Why the block stopped, `none` for NONE (R49). -/
  fatal : Option FatalReason
  /-- RAM (R50, R79). -/
  mem : Memory
  /-- The bus's region list, in registration order (R71). -/
  regions : List Region
  /-- The tick-capable devices, in registration order (R136). -/
  peripherals : List DeviceId
  /-- The state of each device, by its number; a device not listed has the state `[]` (R50; log entry 3). -/
  devices : List DeviceState
  /-- The last reset failed at setup with "already mapped", so no step happens (R350; log entry 5). -/
  setupFailed : Bool
  deriving DecidableEq, Repr

/-- The register file after reset (R52). -/
def RegFile.reset (p : Params) : RegFile where
  flags := 0
  tmp := 0
  sp := p.stackCapacity
  ip := 0
  pc := 0
  cycle := 0
  data := .replicate p.bankSlots 0
  index := .replicate p.bankSlots 0
  addr := .replicate p.bankSlots 0
  ptr := .replicate p.bankSlots 0

/-- A register file of zeros: what `saved` holds after reset (R44, R52). -/
def RegFile.zero (p : Params) : RegFile := { RegFile.reset p with sp := 0 }

/-- The machine right after a reset on a platform whose devices' hooks leave these device states (R52, R350). -/
def State.init (p : Params) (map : List Region) (peripherals : List DeviceId) (devices : List DeviceState) : State where
  params := p
  regs := .reset p
  saved := .zero p
  stack := .replicate p.stackCapacity.toNat 0
  ivt := .replicate Config.ivtSize 0
  lastint := none
  running := true
  fatal := none
  mem := []
  regions := map
  peripherals := peripherals
  devices := devices
  setupFailed := false

/-- The machine right after reset, on the default platform (R52, R350, R10). -/
def State.reset : State := State.init Config.defaults Config.platformMap Config.peripherals []

end Sys2Proof.Machine
end

