-- ==== Sys2Proof/Machine/Memory.lean ====
section
/-! DEFINITION. RAM as a canonical list of byte cells, and the words built from them (R79, R84; log entries 1
and 2). -/

namespace Sys2Proof.Machine

/-- What has been written to a cell: `none` where nothing has, which is what an unlisted address reads as. -/
def Memory.read : Memory → Nat → Option Byte
  | [], _ => none
  | (k, b) :: rest, a => if k = a then some b else Memory.read rest a

/-- Write a cell, keeping the addresses strictly rising. -/
def Memory.write : Memory → Nat → Byte → Memory
  | [], a, b => [(a, b)]
  | (k, c) :: rest, a, b =>
    if a < k then (a, b) :: (k, c) :: rest
    else if a = k then (a, b) :: rest
    else (k, c) :: Memory.write rest a b

/-- The canonical form: cell addresses strictly rising. No entry equals what an unlisted address reads as,
which is "never written" (log entry 2). -/
abbrev Memory.wf (m : Memory) : Prop := m.Pairwise (fun x y => x.1 < y.1)

/-- The byte a cell holds: the last one written, and before any write the free value `RAM_INIT` (R79). -/
def Memory.byteAt (m : Memory) (k : Nat) : Byte := (m.read k).getD (Config.ramInit k)

/-- Write bytes to consecutive cells. -/
def Memory.writeBytes : Memory → Nat → List Byte → Memory
  | m, _, [] => m
  | m, k, b :: bs => Memory.writeBytes (m.write k b) (k + 1) bs

/-- The bytes of `n` consecutive cells. -/
def Memory.readBytes (m : Memory) : Nat → Nat → List Byte
  | _, 0 => []
  | k, n + 1 => m.byteAt k :: Memory.readBytes m (k + 1) n

/-- The first cell of a word (log entry 1). -/
def wordCell (a : Address) : Nat := 8 * a.toNat

/-- The word RAM holds at an address (R79, R84). -/
def Memory.readWord (m : Memory) (a : Address) : Word := wordOfBytes (m.readBytes (wordCell a) 8)

/-- Store a word in RAM at an address (R79, R84). -/
def Memory.writeWord (m : Memory) (a : Address) (w : Word) : Memory := m.writeBytes (wordCell a) (wordBytes w)

/-- Store a triplet in the three words from `p`, addresses modulo 2^64 (R110, R86). -/
def Memory.writeTriplet (m : Memory) (p : Address) (t : Triplet) : Memory :=
  ((m.writeWord p t.w0).writeWord (p + 1) t.a).writeWord (p + 2) t.v

end Sys2Proof.Machine
end

