-- ==== Sys2Proof/Machine/Bus.lean ====
section
/-! DEFINITION. The memory bus: the address decoder and single-word transactions (R70 to R83). -/

namespace Sys2Proof.Machine

/-- The answer to a bus transaction (R13). -/
inductive BusResult (α : Type) where
  | ok (value : α)
  | unmapped
  | devError
  deriving DecidableEq, Repr

/-- `start <= a < end`: an entry with `start >= end` matches no address (R71, R72). -/
def regionContains (r : Region) (a : Address) : Bool :=
  decide (r.start.toNat ≤ a.toNat) && decide (a.toNat < r.stop.toNat)

/-- `Decode(a)`: the first entry in registration order that contains `a`, and the offset into it (R72). -/
def decodeAddress : List Region → Address → Option (Region × Word)
  | [], _ => none
  | r :: rest, a => if regionContains r a then some (r, a - r.start) else decodeAddress rest a

/-- The state of a device; `[]` where none is listed (log entry 3). -/
def deviceLookup (ds : List DeviceState) (id : DeviceId) : DeviceState := entryAt [] ds id

/-- Replace the state of one device (log entry 3). -/
def deviceUpdate (ds : List DeviceState) (id : DeviceId) (d : DeviceState) : List DeviceState := setEntry [] ds id d

/-- Give a device a new state. -/
def State.setDevice (s : State) (id : DeviceId) (d : DeviceState) : State :=
  { s with devices := deviceUpdate s.devices id d }

/-- `BusRead(a)`: RAM answers with the word it holds; a device answers for itself and may change its own state
(R73, R79, R83). -/
def busRead (s : State) (a : Address) : BusResult Word × State :=
  match decodeAddress s.regions a with
  | none => (.unmapped, s)
  | some (r, off) =>
    match r.backing with
    | .ram => (.ok (s.mem.readWord a), s)
    | .device id =>
      match Config.deviceRead id (deviceLookup s.devices id) off with
      | (.ok w, d) => (.ok w, s.setDevice id d)
      | (.devError, d) => (.devError, s.setDevice id d)

/-- `BusWrite(a, w)` (R74, R79, R83). -/
def busWrite (s : State) (a : Address) (w : Word) : BusResult Unit × State :=
  match decodeAddress s.regions a with
  | none => (.unmapped, s)
  | some (r, off) =>
    match r.backing with
    | .ram => (.ok (), { s with mem := s.mem.writeWord a w })
    | .device id =>
      match Config.deviceWrite id (deviceLookup s.devices id) off w with
      | (.ok (), d) => (.ok (), s.setDevice id d)
      | (.devError, d) => (.devError, s.setDevice id d)

end Sys2Proof.Machine
end

