-- ==== Sys2Proof/Machine/Flags.lean ====
section
/-! DEFINITION. The condition state: the interrupt-active bit `IF = flags[0]` (R39) and the boolean in `tmp` (R40).
There is no other flag (R38). -/

namespace Sys2Proof.Machine

/-- `IF`: the controller is IN_HANDLER (R39). -/
def flagsHandling (flags : Word) : Bool := flags.getLsbD 0

/-- `flags` with `IF <- 1`, its other bits as they are (R310). -/
def flagsEnter (flags : Word) : Word := flags ||| 1

/-- `flags` with `IF <- 0`, its other bits as they are (R313). -/
def flagsLeave (flags : Word) : Word := flags &&& ~~~(1 : Word)

/-- The controller's state: IN_HANDLER when true, IDLE when false (R309). -/
def State.handling (s : State) : Bool := flagsHandling s.regs.flags

/-- What CMP writes to `tmp`: 1 if the operands are equal and 0 otherwise (R184, R185, D5). -/
def compareWords (a b : Word) : Word := boolWord (a == b)

/-- JIT's condition: `tmp` is not zero (R201, D6). -/
def State.jumpCondition (s : State) : Bool := s.regs.tmp != 0

end Sys2Proof.Machine
end

