-- ==== Sys2Proof/Machine/Ops.lean ====
section
/-! DEFINITION. The named operations of execution: registers (R18, R36), the interrupt controller (R309 to R324),
memory accesses that may raise (R19), and the stack primitives (R230, R231).

An operation that may raise takes what follows it as a continuation: a raise or a fatal stop ends the execute phase,
and the continuation is not run (R20, R134). -/

namespace Sys2Proof.Machine

/-- `x[i]` of a register file (R18). -/
def RegFile.get (x : RegFile) : Reg → Word
  | .flags => x.flags
  | .tmp => x.tmp
  | .sp => x.sp
  | .ip => x.ip
  | .pc => x.pc
  | .cycle => x.cycle
  | .data n => entryAt 0 x.data n
  | .index n => entryAt 0 x.index n
  | .addr n => entryAt 0 x.addr n
  | .ptr n => entryAt 0 x.ptr n

/-- `x[i] <- v` of a register file. No register is hardwired or read-only (R35, R36). -/
def RegFile.set (x : RegFile) (r : Reg) (v : Word) : RegFile :=
  match r with
  | .flags => { x with flags := v }
  | .tmp => { x with tmp := v }
  | .sp => { x with sp := v }
  | .ip => { x with ip := v }
  | .pc => { x with pc := v }
  | .cycle => { x with cycle := v }
  | .data n => { x with data := setEntry 0 x.data n v }
  | .index n => { x with index := setEntry 0 x.index n v }
  | .addr n => { x with addr := setEntry 0 x.addr n v }
  | .ptr n => { x with ptr := setEntry 0 x.ptr n v }

/-- Read a current register (R18). -/
def State.reg (s : State) (r : Reg) : Word := s.regs.get r

/-- Write a current register (R18). Writing `flags` changes the controller's state, writing `pc` transfers
control (R36, R323). -/
def State.setReg (s : State) (r : Reg) (v : Word) : State := { s with regs := s.regs.set r v }

/-- The code of a kind: its position in the enumeration, the index of its vector (R300). -/
def kindCode : Kind → Fin Config.ivtSize
  | .stackOverflow => 0
  | .fault => 1
  | .badAddr => 2
  | .divByZero => 3
  | .badInstr => 4
  | .timer => 5

/-- The kind a code names; codes 6 and up name none (R300). -/
def kindOfCode (k : Word) : Option Kind :=
  match k.toNat with
  | 0 => some .stackOverflow
  | 1 => some .fault
  | 2 => some .badAddr
  | 3 => some .divByZero
  | 4 => some .badInstr
  | 5 => some .timer
  | _ => none

/-- The vector of a kind: used as it is, unchecked (R315). -/
def State.vector (s : State) (k : Kind) : Word := s.ivt[kindCode k]

/-- Interrupt entry from IDLE: snapshot the whole file, then set `IF`, record the kind and go to its vector (R310). -/
def enterHandler (k : Kind) (s : State) : State :=
  { s with
    saved := s.regs
    regs := { s.regs with flags := flagsEnter s.regs.flags, pc := s.vector k }
    lastint := some k }

/-- A raise while IN_HANDLER: FAULT, without a snapshot (R311). -/
def nestedFault (s : State) : State :=
  { s with regs := { s.regs with pc := s.vector .fault }, lastint := some .fault }

/-- `fatal(reason)`: the block stops; what has been committed stays (R360). -/
def stopFatal (reason : FatalReason) (s : State) : State := { s with fatal := some reason }

/-- TAKING AN INTERRUPT, `IFC_raise(k)` for one of the six kinds (R310, R311). -/
def raise (k : Kind) (s : State) : State :=
  if s.handling then nestedFault s else enterHandler k s

/-- `IFC_raise(k)` for a kind value INT gives: the IN_HANDLER check comes first, and in IDLE a value that names no
kind stops the block (R270, R311, R312, C8). -/
def raiseCode (k : Word) (s : State) : State :=
  if s.handling then nestedFault s
  else
    match kindOfCode k with
    | some kind => enterHandler kind s
    | none => stopFatal .badKind s

/-- RETURNING, `IFC_return()`: in IN_HANDLER all registers are restored and then `IF` cleared; in IDLE it raises
FAULT (R313, R276). -/
def interruptReturn (s : State) : State :=
  if s.handling then { s with regs := { s.saved with flags := flagsLeave s.saved.flags } }
  else raise .fault s

/-- The register an operand word names, or BADADDR where RegCheck fails, before any other effect (R18, R33). -/
def withReg (i : RegIndex) (s : State) (next : Reg → State) : State :=
  match regOfIndex s.params i with
  | some r => next r
  | none => raise .badAddr s

/-- `MemRead(a, 1)`: Unmapped raises BADADDR, DevError is fatal (R19, R75, R76). -/
def memRead (a : Address) (s : State) (next : Word → State → State) : State :=
  match busRead s a with
  | (.ok w, s') => next w s'
  | (.unmapped, s') => raise .badAddr s'
  | (.devError, s') => stopFatal .device s'

/-- `MemWrite(a, 1, w)` (R19, R75, R76). -/
def memWrite (a : Address) (w : Word) (s : State) (next : State → State) : State :=
  match busWrite s a w with
  | (.ok (), s') => next s'
  | (.unmapped, s') => raise .badAddr s'
  | (.devError, s') => stopFatal .device s'

/-- A push would find no room: `sp == 0` or `sp > STACK_CAPACITY` (R230). -/
def State.stackFull (s : State) : Bool :=
  decide (s.regs.sp.toNat = 0) || decide (s.params.stackCapacity.toNat < s.regs.sp.toNat)

/-- A pop would find nothing: `sp >= STACK_CAPACITY` (R231). -/
def State.stackEmpty (s : State) : Bool := decide (s.params.stackCapacity.toNat ≤ s.regs.sp.toNat)

/-- The stack entry at an index (R45). The operations below read only indices under the capacity. -/
def State.stackAt (s : State) (i : Nat) : Word := entryAt 0 s.stack i

/-- `Push(v)`: the check comes before any change (R230). -/
def push (v : Word) (s : State) (next : State → State) : State :=
  if s.stackFull then raise .stackOverflow s
  else
    let sp := s.regs.sp - 1
    next { s with regs := { s.regs with sp := sp }, stack := setEntry 0 s.stack sp.toNat v }

/-- `Pop()`: the top entry. The caller commits `sp <- sp + 1` together with its own write (R231). -/
def pop (s : State) (next : Word → State) : State :=
  if s.stackEmpty then raise .stackOverflow s else next (s.stackAt s.regs.sp.toNat)

/-- `sp <- sp + 1`, the commit of a pop (R231). -/
def State.dropTop (s : State) : State := { s with regs := { s.regs with sp := s.regs.sp + 1 } }

/-- `pc <- t` (R20). -/
def State.jumpTo (s : State) (t : Address) : State := { s with regs := { s.regs with pc := t } }

/-- `LoadTable(b)`: six reads in order, addresses modulo 2^64, and only then the whole table at once (R280, D35). -/
def loadTable (b : Address) (s : State) : State :=
  memRead b s fun e0 s =>
  memRead (b + 1) s fun e1 s =>
  memRead (b + 2) s fun e2 s =>
  memRead (b + 3) s fun e3 s =>
  memRead (b + 4) s fun e4 s =>
  memRead (b + 5) s fun e5 s =>
  { s with ivt := #v[e0, e1, e2, e3, e4, e5] }

end Sys2Proof.Machine
end

