-- ==== Sys2Proof/Machine/Cycle.lean ====
section
/-! DEFINITION. The phases of a step around execution: the enable, the boot rule, fetch, the tick phase and the cycle
count (R130 to R137). -/

namespace Sys2Proof.Machine

/-- A step is enabled: `running = 1`, `fatal = NONE`, and the last reset set the bus up (R130, R350). -/
def State.enabled (s : State) : Bool := s.running && s.fatal.isNone && !s.setupFailed

/-- The boot rule: at the start of every step, a `pc` of zero becomes `IO_BASE + 3 * cycle` modulo 2^64 (R131). -/
def boot (s : State) : State :=
  if s.regs.pc = 0 then s.jumpTo (s.params.ioBase + 3 * s.regs.cycle) else s

/-- What the fetch phase comes to (R132). -/
inductive Fetched where
  /-- Three words were read. -/
  | words (t : Triplet) (s : State)
  /-- A word was unmapped: BADADDR has been raised and the step goes to its tick phase. -/
  | raised (s : State)
  /-- A device failed: the block has stopped. -/
  | stopped (s : State)
  deriving Repr

/-- One fetch read (R132). -/
def fetchWord (a : Address) (s : State) (next : Word → State → Fetched) : Fetched :=
  match busRead s a with
  | (.ok w, s') => next w s'
  | (.unmapped, s') => .raised (raise .badAddr s')
  | (.devError, s') => .stopped (stopFatal .device s')

/-- Fetch the triplet at `pc`, `pc + 1` and `pc + 2`, in that order, modulo 2^64; a failed read ends the fetch with
`pc` and `ip` as they were (R132). -/
def fetch (s : State) : Fetched :=
  fetchWord s.regs.pc s fun w0 s1 =>
  fetchWord (s.regs.pc + 1) s1 fun a s2 =>
  fetchWord (s.regs.pc + 2) s2 fun v s3 =>
  .words { w0 := w0, a := a, v := v } s3

/-- After a successful fetch: `ip <- f0` and `pc <- pc + 3` (R133). -/
def advance (w0 : Word) (s : State) : State :=
  { s with regs := { s.regs with ip := w0, pc := s.regs.pc + 3 } }

/-- Tick one device, and raise at once the kind it requests (R136). -/
def tickDevice (id : DeviceId) (s : State) : State :=
  match Config.deviceTick id (deviceLookup s.devices id) with
  | (none, d) => s.setDevice id d
  | (some k, d) => raise k (s.setDevice id d)

/-- Tick devices in order (R136). -/
def tickAll : List DeviceId → State → State
  | [], s => s
  | id :: rest, s => tickAll rest (tickDevice id s)

/-- The end of a step that did not stop with `fatal`: the tick phase, then `cycle <- cycle + 1` (R136, R137). -/
def endStep (s : State) : State :=
  let t := tickAll s.peripherals s
  { t with regs := { t.regs with cycle := t.regs.cycle + 1 } }

/-- The end of a step after execution: a fatal stop has no tick phase and no cycle count (R138, R360). -/
def finish (s : State) : State := if s.fatal.isSome then s else endStep s

/-- The address the next step fetches at (R131, R132). -/
def fetchAddress (s : State) : Address := (boot s).regs.pc

end Sys2Proof.Machine
end

