-- ==== Sys2Proof/Machine/Operands.lean ====
section
/-! DEFINITION. Operand assembly: value operands (R120), location operands and destinations (R121). Nothing is
extended, scaled or offset, and no addressing mode changes a register (R122). -/

namespace Sys2Proof.Machine

/-- The kind of an operand word: a register index, an absolute word address or an immediate (R114). -/
inductive OperandKind where
  | reg
  | mem
  | imm
  deriving DecidableEq, Repr

/-- A value operand: the contents the instruction uses (R120). -/
def valueOperand (kind : OperandKind) (w : Word) (s : State) (next : Word → State → State) : State :=
  match kind with
  | .reg => withReg w s fun r => next (s.reg r) s
  | .mem => memRead w s next
  | .imm => next w s

/-- A location operand: a jump or call target, or a table base. The memory form is the address itself, with no
memory read (R121, R200). -/
def locationOperand (kind : OperandKind) (w : Word) (s : State) (next : Word → State) : State :=
  match kind with
  | .reg => withReg w s fun r => next (s.reg r)
  | .mem => next w
  | .imm => next w

end Sys2Proof.Machine
end

