-- ==== Sys2Proof/Machine/Alu.lean ====
section
/-! DEFINITION. Arithmetic, bitwise, shift and compare instructions (40_alu.md). -/

namespace Sys2Proof.Machine

/-- The right-hand sides `f(a, b)` of the family (R162 to R183). -/
def addWords (a b : Word) : Word := a + b

/-- Borrow wraps (R164). -/
def subWords (a b : Word) : Word := a - b

/-- The low 64 bits of the product (R166). -/
def mulWords (a b : Word) : Word := a * b

/-- The unsigned truncated quotient, or `none` where the divisor is 0 and DIVBYZERO is raised (R168). -/
def divWords (a b : Word) : Option Word := if b = 0 then none else some (a / b)

/-- Bitwise and (R170). -/
def andWords (a b : Word) : Word := a &&& b

/-- Bitwise or (R172). -/
def orWords (a b : Word) : Word := a ||| b

/-- Bitwise exclusive or (R174). -/
def xorWords (a b : Word) : Word := a ^^^ b

/-- The complement of or (R176). -/
def norWords (a b : Word) : Word := ~~~(a ||| b)

/-- The complement of and (R178). -/
def nandWords (a b : Word) : Word := ~~~(a &&& b)

/-- Shift left, zero fill; the amount is the whole word, unmasked (R180, D4). -/
def lshiftWords (a b : Word) : Word := if 64 ≤ b.toNat then 0 else a <<< b.toNat

/-- Logical shift right; the amount is the whole word, unmasked (R182, D4). -/
def rshiftWords (a b : Word) : Word := if 64 ≤ b.toNat then 0 else a >>> b.toNat

/-- `AluR(f)`: both indices are checked before any read, both reads come before the write; `f` raises DIVBYZERO
where it gives nothing (R160). -/
def aluR (f : Word → Word → Option Word) (rd rs : RegIndex) (s : State) : State :=
  withReg rd s fun d =>
  withReg rs s fun r =>
  match f (s.reg d) (s.reg r) with
  | some w => s.setReg d w
  | none => raise .divByZero s

/-- `AluM(f)`: read `A`, read `V`, write `A` (R161). -/
def aluM (f : Word → Word → Option Word) (dst src : Address) (s : State) : State :=
  memRead dst s fun a s =>
  memRead src s fun b s =>
  match f a b with
  | some w => memWrite dst w s fun s => s
  | none => raise .divByZero s

/-- An operation that never raises. -/
def total (f : Word → Word → Word) (a b : Word) : Option Word := some (f a b)

/-- `add %rd, %rs` (R162). -/
def execAddRR (rd rs : RegIndex) (s : State) : Host.Outcome State Fault Refusal :=
  .next (aluR (total addWords) rd rs s)

/-- `add $d, $s` (R163). -/
def execAddMM (dst src : Address) (s : State) : Host.Outcome State Fault Refusal :=
  .next (aluM (total addWords) dst src s)

/-- `sub %rd, %rs` (R164). -/
def execSubRR (rd rs : RegIndex) (s : State) : Host.Outcome State Fault Refusal :=
  .next (aluR (total subWords) rd rs s)

/-- `sub $d, $s` (R165). -/
def execSubMM (dst src : Address) (s : State) : Host.Outcome State Fault Refusal :=
  .next (aluM (total subWords) dst src s)

/-- `mul %rd, %rs` (R166). -/
def execMulRR (rd rs : RegIndex) (s : State) : Host.Outcome State Fault Refusal :=
  .next (aluR (total mulWords) rd rs s)

/-- `mul $d, $s` (R167). -/
def execMulMM (dst src : Address) (s : State) : Host.Outcome State Fault Refusal :=
  .next (aluM (total mulWords) dst src s)

/-- `div %rd, %rs` (R168). -/
def execDivRR (rd rs : RegIndex) (s : State) : Host.Outcome State Fault Refusal := .next (aluR divWords rd rs s)

/-- `div $d, $s` (R169). -/
def execDivMM (dst src : Address) (s : State) : Host.Outcome State Fault Refusal := .next (aluM divWords dst src s)

/-- `and %rd, %rs` (R170). -/
def execAndRR (rd rs : RegIndex) (s : State) : Host.Outcome State Fault Refusal :=
  .next (aluR (total andWords) rd rs s)

/-- `and $d, $s` (R171). -/
def execAndMM (dst src : Address) (s : State) : Host.Outcome State Fault Refusal :=
  .next (aluM (total andWords) dst src s)

/-- `or %rd, %rs` (R172). -/
def execOrRR (rd rs : RegIndex) (s : State) : Host.Outcome State Fault Refusal :=
  .next (aluR (total orWords) rd rs s)

/-- `or $d, $s` (R173). -/
def execOrMM (dst src : Address) (s : State) : Host.Outcome State Fault Refusal :=
  .next (aluM (total orWords) dst src s)

/-- `xor %rd, %rs` (R174). -/
def execXorRR (rd rs : RegIndex) (s : State) : Host.Outcome State Fault Refusal :=
  .next (aluR (total xorWords) rd rs s)

/-- `xor $d, $s` (R175). -/
def execXorMM (dst src : Address) (s : State) : Host.Outcome State Fault Refusal :=
  .next (aluM (total xorWords) dst src s)

/-- `nor %rd, %rs` (R176). -/
def execNorRR (rd rs : RegIndex) (s : State) : Host.Outcome State Fault Refusal :=
  .next (aluR (total norWords) rd rs s)

/-- `nor $d, $s` (R177). -/
def execNorMM (dst src : Address) (s : State) : Host.Outcome State Fault Refusal :=
  .next (aluM (total norWords) dst src s)

/-- `nand %rd, %rs` (R178). -/
def execNandRR (rd rs : RegIndex) (s : State) : Host.Outcome State Fault Refusal :=
  .next (aluR (total nandWords) rd rs s)

/-- `nand $d, $s` (R179). -/
def execNandMM (dst src : Address) (s : State) : Host.Outcome State Fault Refusal :=
  .next (aluM (total nandWords) dst src s)

/-- `lshift %rd, %rs` (R180). -/
def execLshiftRR (rd rs : RegIndex) (s : State) : Host.Outcome State Fault Refusal :=
  .next (aluR (total lshiftWords) rd rs s)

/-- `lshift $d, $s` (R181). -/
def execLshiftMM (dst src : Address) (s : State) : Host.Outcome State Fault Refusal :=
  .next (aluM (total lshiftWords) dst src s)

/-- `rshift %rd, %rs` (R182). -/
def execRshiftRR (rd rs : RegIndex) (s : State) : Host.Outcome State Fault Refusal :=
  .next (aluR (total rshiftWords) rd rs s)

/-- `rshift $d, $s` (R183). -/
def execRshiftMM (dst src : Address) (s : State) : Host.Outcome State Fault Refusal :=
  .next (aluM (total rshiftWords) dst src s)

/-- `cmp %ra, %rb`: `tmp` and nothing else is written (R184). -/
def execCmpRR (ra rb : RegIndex) (s : State) : Host.Outcome State Fault Refusal :=
  .next (withReg ra s fun a => withReg rb s fun b => s.setReg .tmp (compareWords (s.reg a) (s.reg b)))

/-- `cmp $a, $b` (R185). -/
def execCmpMM (a b : Address) (s : State) : Host.Outcome State Fault Refusal :=
  .next (memRead a s fun x s => memRead b s fun y s => s.setReg .tmp (compareWords x y))

end Sys2Proof.Machine
end

