-- ==== Sys2Proof/Machine/Control.lean ====
section
/-! DEFINITION. Control transfer instructions (41_control.md). In a meaning `pc` is already the address of the next
instruction (R133). -/

namespace Sys2Proof.Machine

/-- JIT: jump when `tmp` is not zero; a register operand is checked whether or not the jump is taken (R201). -/
def jumpIfTrue (kind : OperandKind) (w : Word) (s : State) : State :=
  locationOperand kind w s fun t => if s.jumpCondition then s.jumpTo t else s

/-- JMP (R204). -/
def jump (kind : OperandKind) (w : Word) (s : State) : State :=
  locationOperand kind w s fun t => s.jumpTo t

/-- CALL: the target is read before the push of the return address (R207). -/
def callTo (kind : OperandKind) (w : Word) (s : State) : State :=
  locationOperand kind w s fun t => push s.regs.pc s fun s => s.jumpTo t

/-- `jit %r` (R201). -/
def execJitR (r : RegIndex) (s : State) : Host.Outcome State Fault Refusal := .next (jumpIfTrue .reg r s)

/-- `jit $t` (R202). -/
def execJitM (a : Address) (s : State) : Host.Outcome State Fault Refusal := .next (jumpIfTrue .mem a s)

/-- `jit imm` (R203). -/
def execJitI (imm : Imm) (s : State) : Host.Outcome State Fault Refusal := .next (jumpIfTrue .imm imm s)

/-- `jmp %r` (R204). -/
def execJmpR (r : RegIndex) (s : State) : Host.Outcome State Fault Refusal := .next (jump .reg r s)

/-- `jmp $t` (R205). -/
def execJmpM (a : Address) (s : State) : Host.Outcome State Fault Refusal := .next (jump .mem a s)

/-- `jmp imm` (R206). -/
def execJmpI (imm : Imm) (s : State) : Host.Outcome State Fault Refusal := .next (jump .imm imm s)

/-- `call %r` (R207). -/
def execCallR (r : RegIndex) (s : State) : Host.Outcome State Fault Refusal := .next (callTo .reg r s)

/-- `call $t` (R208). -/
def execCallM (a : Address) (s : State) : Host.Outcome State Fault Refusal := .next (callTo .mem a s)

/-- `call imm` (R209). -/
def execCallI (imm : Imm) (s : State) : Host.Outcome State Fault Refusal := .next (callTo .imm imm s)

/-- `ret`: the popped word is not checked to be a return address (R210). -/
def execRet (s : State) : Host.Outcome State Fault Refusal := .next (pop s fun t => s.dropTop.jumpTo t)

end Sys2Proof.Machine
end

