-- ==== Sys2Proof/Machine/Move.lean ====
section
/-! DEFINITION. Move and store instructions (43_move.md). -/

namespace Sys2Proof.Machine

/-- `mov %rd, %rs` (R250). -/
def execMovRR (rd rs : RegIndex) (s : State) : Host.Outcome State Fault Refusal :=
  .next (withReg rd s fun d => withReg rs s fun r => s.setReg d (s.reg r))

/-- `mov %rd, $s`, the load: the index is checked before the read (R251). -/
def execMovRM (rd : RegIndex) (src : Address) (s : State) : Host.Outcome State Fault Refusal :=
  .next (withReg rd s fun d => memRead src s fun v s => s.setReg d v)

/-- `mov %rd, imm` (R252). -/
def execMovRI (rd : RegIndex) (imm : Imm) (s : State) : Host.Outcome State Fault Refusal :=
  .next (withReg rd s fun d => s.setReg d imm)

/-- `mov $d, %rs`, the store (R253). -/
def execMovMR (dst : Address) (rs : RegIndex) (s : State) : Host.Outcome State Fault Refusal :=
  .next (withReg rs s fun r => memWrite dst (s.reg r) s fun s => s)

/-- `mov $d, $s`: the source is read first (R254). -/
def execMovMM (dst src : Address) (s : State) : Host.Outcome State Fault Refusal :=
  .next (memRead src s fun v s => memWrite dst v s fun s => s)

/-- `stor $d, imm`, the immediate store (R255). -/
def execStorMI (dst : Address) (imm : Imm) (s : State) : Host.Outcome State Fault Refusal :=
  .next (memWrite dst imm s fun s => s)

end Sys2Proof.Machine
end

