-- ==== Sys2Proof/Machine/Stack.lean ====
section
/-! DEFINITION. Stack instructions (42_stack.md). -/

namespace Sys2Proof.Machine

/-- PUSH: the value is read before the stack check and the decrement (R232, R233). -/
def pushOperand (kind : OperandKind) (w : Word) (s : State) : State :=
  valueOperand kind w s fun v s => push v s fun s => s

/-- `push %r` (R232). -/
def execPushR (r : RegIndex) (s : State) : Host.Outcome State Fault Refusal := .next (pushOperand .reg r s)

/-- `push $a` (R233). -/
def execPushM (a : Address) (s : State) : Host.Outcome State Fault Refusal := .next (pushOperand .mem a s)

/-- `push imm` (R234). -/
def execPushI (imm : Imm) (s : State) : Host.Outcome State Fault Refusal := .next (pushOperand .imm imm s)

/-- `pop %r`: `sp` is incremented first and the destination written last, so `pop %sp` leaves the popped word
(R235). -/
def execPopR (r : RegIndex) (s : State) : Host.Outcome State Fault Refusal :=
  .next (withReg r s fun d => pop s fun v => s.dropTop.setReg d v)

/-- `pop $a`: `sp` changes only when the write succeeds (R236). -/
def execPopM (a : Address) (s : State) : Host.Outcome State Fault Refusal :=
  .next (pop s fun v => memWrite a v s fun s => s.dropTop)

end Sys2Proof.Machine
end

