-- ==== Sys2Proof/Machine/System.lean ====
section
/-! DEFINITION. Interrupt, table-load and halt instructions (44_system.md). -/

namespace Sys2Proof.Machine

/-- INT: the operand is a kind value (R270, R272). -/
def interruptOperand (kind : OperandKind) (w : Word) (s : State) : State :=
  valueOperand kind w s fun k s => raiseCode k s

/-- LDITBL: the operand is the table's base address (R280, R282). -/
def loadTableOperand (kind : OperandKind) (w : Word) (s : State) : State :=
  locationOperand kind w s fun b => loadTable b s

/-- `running <- 0`; the step still ticks and counts (R290, R362). -/
def halt (s : State) : State := { s with running := false }

/-- `int %r` (R271). -/
def execIntR (r : RegIndex) (s : State) : Host.Outcome State Fault Refusal := .next (interruptOperand .reg r s)

/-- `int $a` (R272). -/
def execIntM (a : Address) (s : State) : Host.Outcome State Fault Refusal := .next (interruptOperand .mem a s)

/-- `int imm` (R273). -/
def execIntI (imm : Imm) (s : State) : Host.Outcome State Fault Refusal := .next (interruptOperand .imm imm s)

/-- `iret` (R275). -/
def execIret (s : State) : Host.Outcome State Fault Refusal := .next (interruptReturn s)

/-- `lditbl %r` (R281). -/
def execLditblR (r : RegIndex) (s : State) : Host.Outcome State Fault Refusal := .next (loadTableOperand .reg r s)

/-- `lditbl $b` (R282). -/
def execLditblM (a : Address) (s : State) : Host.Outcome State Fault Refusal := .next (loadTableOperand .mem a s)

/-- `lditbl imm` (R283). -/
def execLditblI (imm : Imm) (s : State) : Host.Outcome State Fault Refusal := .next (loadTableOperand .imm imm s)

/-- `nop`, which halts (R290). -/
def execNop (s : State) : Host.Outcome State Fault Refusal := .next (halt s)

/-- `hlt` (R291). -/
def execHlt (s : State) : Host.Outcome State Fault Refusal := .next (halt s)

end Sys2Proof.Machine
end

