-- ==== Sys2Proof/Machine/Dispatch.lean ====
section
/-! DEFINITION. The execute phase: one direct call of a meaning per instruction (R134). -/

namespace Sys2Proof.Machine

/-- Execute a decoded instruction in the state the fetch advance left (R133, R134). -/
def exec (i : Instr) (s : State) : Host.Outcome State Fault Refusal :=
  match i with
  | .nop => Sys2Proof.Machine.execNop s
  | .hlt => Sys2Proof.Machine.execHlt s
  | .addRR rd rs => Sys2Proof.Machine.execAddRR rd rs s
  | .addMM dst src => Sys2Proof.Machine.execAddMM dst src s
  | .subRR rd rs => Sys2Proof.Machine.execSubRR rd rs s
  | .subMM dst src => Sys2Proof.Machine.execSubMM dst src s
  | .mulRR rd rs => Sys2Proof.Machine.execMulRR rd rs s
  | .mulMM dst src => Sys2Proof.Machine.execMulMM dst src s
  | .divRR rd rs => Sys2Proof.Machine.execDivRR rd rs s
  | .divMM dst src => Sys2Proof.Machine.execDivMM dst src s
  | .andRR rd rs => Sys2Proof.Machine.execAndRR rd rs s
  | .andMM dst src => Sys2Proof.Machine.execAndMM dst src s
  | .orRR rd rs => Sys2Proof.Machine.execOrRR rd rs s
  | .orMM dst src => Sys2Proof.Machine.execOrMM dst src s
  | .xorRR rd rs => Sys2Proof.Machine.execXorRR rd rs s
  | .xorMM dst src => Sys2Proof.Machine.execXorMM dst src s
  | .norRR rd rs => Sys2Proof.Machine.execNorRR rd rs s
  | .norMM dst src => Sys2Proof.Machine.execNorMM dst src s
  | .nandRR rd rs => Sys2Proof.Machine.execNandRR rd rs s
  | .nandMM dst src => Sys2Proof.Machine.execNandMM dst src s
  | .lshiftRR rd rs => Sys2Proof.Machine.execLshiftRR rd rs s
  | .lshiftMM dst src => Sys2Proof.Machine.execLshiftMM dst src s
  | .rshiftRR rd rs => Sys2Proof.Machine.execRshiftRR rd rs s
  | .rshiftMM dst src => Sys2Proof.Machine.execRshiftMM dst src s
  | .cmpRR rd rs => Sys2Proof.Machine.execCmpRR rd rs s
  | .cmpMM dst src => Sys2Proof.Machine.execCmpMM dst src s
  | .jitR r => Sys2Proof.Machine.execJitR r s
  | .jitM a => Sys2Proof.Machine.execJitM a s
  | .jitI imm => Sys2Proof.Machine.execJitI imm s
  | .jmpR r => Sys2Proof.Machine.execJmpR r s
  | .jmpM a => Sys2Proof.Machine.execJmpM a s
  | .jmpI imm => Sys2Proof.Machine.execJmpI imm s
  | .callR r => Sys2Proof.Machine.execCallR r s
  | .callM a => Sys2Proof.Machine.execCallM a s
  | .callI imm => Sys2Proof.Machine.execCallI imm s
  | .ret => Sys2Proof.Machine.execRet s
  | .pushR r => Sys2Proof.Machine.execPushR r s
  | .pushM a => Sys2Proof.Machine.execPushM a s
  | .pushI imm => Sys2Proof.Machine.execPushI imm s
  | .popR r => Sys2Proof.Machine.execPopR r s
  | .popM a => Sys2Proof.Machine.execPopM a s
  | .movRR rd rs => Sys2Proof.Machine.execMovRR rd rs s
  | .movRM rd src => Sys2Proof.Machine.execMovRM rd src s
  | .movRI rd imm => Sys2Proof.Machine.execMovRI rd imm s
  | .movMR dst rs => Sys2Proof.Machine.execMovMR dst rs s
  | .movMM dst src => Sys2Proof.Machine.execMovMM dst src s
  | .storMI dst imm => Sys2Proof.Machine.execStorMI dst imm s
  | .intR r => Sys2Proof.Machine.execIntR r s
  | .intM a => Sys2Proof.Machine.execIntM a s
  | .intI imm => Sys2Proof.Machine.execIntI imm s
  | .iret => Sys2Proof.Machine.execIret s
  | .lditblR r => Sys2Proof.Machine.execLditblR r s
  | .lditblM a => Sys2Proof.Machine.execLditblM a s
  | .lditblI imm => Sys2Proof.Machine.execLditblI imm s

end Sys2Proof.Machine
end

