-- ==== Sys2Proof/Machine/Step.lean ====
section
/-! DEFINITION. One step (R138), and where a test places the instruction it runs (log entry 11). -/

namespace Sys2Proof.Machine

/-- Execute the fetched triplet: an invalid word 0 raises BADINSTR after the fetch advance (R133 to R135). -/
def execTriplet (t : Triplet) (s : State) : Host.Outcome State Fault Refusal :=
  match decode t with
  | .error _ => .next (raise .badInstr s)
  | .ok i => exec i s

/-- `Step()` (R138). A step that is not enabled changes nothing (R361). -/
def step (s : State) : Host.Outcome State Fault Refusal :=
  if s.enabled then
    match fetch (boot s) with
    | .stopped t => .next t
    | .raised t => .next (endStep t)
    | .words w t =>
      match execTriplet w (advance w.w0 t) with
      | .next t => .next (finish t)
      | .fault r => .fault r
      | .refused r => .refused r
  else .next s

/-- The state with an opcode-table word stored as the triplet the next step fetches (log entry 11). -/
def State.withFetchWord (s : State) (nbits w : Nat) : State :=
  { s with mem := s.mem.writeTriplet (fetchAddress s) (tableTriplet nbits w) }

end Sys2Proof.Machine
end

