-- ==== Sys2Proof/Machine/Assembler.lean ====
section
/-! DEFINITION. The toolchain surface the spec keeps (R140 to R153): from typed tokens to instructions, label
addresses and the image, and the canonical disassembly. Lexical details: log entry 7. -/

namespace Sys2Proof.Machine

/-- The 25 mnemonics (R117). -/
inductive Mnemonic where
  | nop
  | hlt
  | add
  | sub
  | mul
  | div
  | and
  | or
  | xor
  | nor
  | nand
  | lshift
  | rshift
  | cmp
  | jit
  | jmp
  | call
  | ret
  | push
  | pop
  | mov
  | stor
  | int
  | iret
  | lditbl
  deriving DecidableEq, Repr

/-- A mnemonic as written (R117, R140). -/
def mnemonicName : Mnemonic → String
  | .nop => "nop"
  | .hlt => "hlt"
  | .add => "add"
  | .sub => "sub"
  | .mul => "mul"
  | .div => "div"
  | .and => "and"
  | .or => "or"
  | .xor => "xor"
  | .nor => "nor"
  | .nand => "nand"
  | .lshift => "lshift"
  | .rshift => "rshift"
  | .cmp => "cmp"
  | .jit => "jit"
  | .jmp => "jmp"
  | .call => "call"
  | .ret => "ret"
  | .push => "push"
  | .pop => "pop"
  | .mov => "mov"
  | .stor => "stor"
  | .int => "int"
  | .iret => "iret"
  | .lditbl => "lditbl"

/-- All mnemonics, in the order of the opcode table. -/
def allMnemonics : List Mnemonic :=
  [.nop, .hlt, .add, .sub, .mul, .div, .and, .or, .xor, .nor, .nand, .lshift, .rshift,
   .cmp, .jit, .jmp, .call, .ret, .push, .pop, .mov, .stor, .int, .iret, .lditbl]

/-- The mnemonic a name stands for (R140). -/
def mnemonicOfName (name : String) : Option Mnemonic := allMnemonics.find? (fun m => mnemonicName m == name)

/-- A register's name, written after `%` (R35). -/
def regName : Reg → String
  | .flags => "flags"
  | .tmp => "tmp"
  | .sp => "sp"
  | .ip => "ip"
  | .pc => "pc"
  | .cycle => "cycle"
  | .data n => "data" ++ Nat.repr n
  | .index n => "index" ++ Nat.repr n
  | .addr n => "addr" ++ Nat.repr n
  | .ptr n => "ptr" ++ Nat.repr n

/-- All registers, by rising index: 46 with the default slots (R32). -/
def allRegs (p : Params) : List Reg :=
  let bank (make : Nat → Reg) : List Reg := (List.range p.bankSlots).map make
  [.flags, .tmp, .sp, .ip, .pc, .cycle] ++ bank .data ++ bank .index ++ bank .addr ++ bank .ptr

/-- The register a name stands for; no register has a second name (R35, R141). -/
def regOfName (p : Params) (name : String) : Option Reg := (allRegs p).find? (fun r => regName r == name)

/-- A typed operand token (R141 to R145). -/
inductive Operand where
  /-- `%name`. -/
  | register (name : String)
  /-- `$0x` and the hex digits after it. -/
  | address (hexDigits : String)
  /-- An integer literal as written. -/
  | integer (text : String)
  /-- A character literal. -/
  | character (c : Char)
  /-- The name of a function unit. -/
  | identifier (name : String)
  deriving DecidableEq, Repr

/-- A token after a mnemonic (R140). -/
inductive Token where
  | operand (o : Operand)
  | comma
  deriving DecidableEq, Repr

/-- A line of a source program (R140, R149). -/
inductive Line where
  | label (name : String)
  | instruction (mnemonic : String) (tokens : List Token)
  deriving DecidableEq, Repr

/-- Why assembly fails: the first error found (R140 to R150; the accumulation policy is out of scope, R8). -/
inductive AsmError where
  | unknownMnemonic
  | badShape
  | unknownRegister
  | malformedNumber
  | outOfRange
  | unknownFunction
  | wrongOperandType
  | noValidDestination
  | duplicateFunction
  deriving DecidableEq, Repr

/-- The value of a digit character, in any base up to 16. -/
def digitValue (c : Char) : Option Nat :=
  if '0' ≤ c ∧ c ≤ '9' then some (c.toNat - '0'.toNat)
  else if 'a' ≤ c ∧ c ≤ 'f' then some (c.toNat - 'a'.toNat + 10)
  else if 'A' ≤ c ∧ c ≤ 'F' then some (c.toNat - 'A'.toNat + 10)
  else none

/-- The value of digits in a base, given the value of the digits before them. -/
def digitsFrom (base : Nat) : Nat → List Char → Option Nat
  | acc, [] => some acc
  | acc, c :: cs =>
    match digitValue c with
    | some d => if d < base then digitsFrom base (base * acc + d) cs else none
    | none => none

/-- The value of one or more digits in a base that fits a word (R142, R143). -/
def literalWord (base : Nat) (cs : List Char) : Except AsmError Word :=
  if cs = [] then .error .malformedNumber
  else
    match digitsFrom base 0 cs with
    | none => .error .malformedNumber
    | some n => if n < 2 ^ 64 then .ok (BitVec.ofNat 64 n) else .error .outOfRange

/-- An integer literal: binary (`0b`), hex (`0x`) or decimal, in that priority order; a negative value is an error
(R143). DESIGN CHOICE: every text with a leading minus is refused as negative, `-0` included (log entry 7). -/
def integerWord (cs : List Char) : Except AsmError Word :=
  match cs with
  | '0' :: 'b' :: ds => literalWord 2 ds
  | '0' :: 'x' :: ds => literalWord 16 ds
  | '-' :: _ => .error .outOfRange
  | ds => literalWord 10 ds

/-- The function units of a program: each name and the number of instructions before it (R149, R150). -/
abbrev Units := List (String × Nat)

/-- `offset(name)`: three words for every instruction before the unit (R150, C3). -/
def unitOffset (units : Units) (name : String) : Option Nat :=
  match units.find? (fun u => u.1 == name) with
  | some u => some (3 * u.2)
  | none => none

/-- An operand's lexical kind and operand word (R141 to R145). -/
def operandWord (p : Params) (units : Units) : Operand → Except AsmError (OperandKind × Word)
  | .register name =>
    match regOfName p name with
    | some r => .ok (.reg, regIndex p r)
    | none => .error .unknownRegister
  | .address hexDigits =>
    match literalWord 16 hexDigits.toList with
    | .ok w => .ok (.mem, w)
    | .error e => .error e
  | .integer text =>
    match integerWord text.toList with
    | .ok w => .ok (.imm, w)
    | .error e => .error e
  | .character c => .ok (.imm, (Config.charEncoding c).setWidth 64)
  | .identifier name =>
    match unitOffset units name with
    | some k => .ok (.mem, p.labelBase + BitVec.ofNat 64 k)
    | none => .error .unknownFunction

/-- The instruction of a mnemonic without operands (R118, R146). -/
def select0 : Mnemonic → Option Instr
  | .nop => some .nop
  | .hlt => some .hlt
  | .ret => some .ret
  | .iret => some .iret
  | _ => none

/-- The instruction of a mnemonic and one operand (R118, R146). -/
def select1 (m : Mnemonic) (kind : OperandKind) (a : Word) : Option Instr :=
  match m, kind with
  | .jit, .reg => some (.jitR a)
  | .jit, .mem => some (.jitM a)
  | .jit, .imm => some (.jitI a)
  | .jmp, .reg => some (.jmpR a)
  | .jmp, .mem => some (.jmpM a)
  | .jmp, .imm => some (.jmpI a)
  | .call, .reg => some (.callR a)
  | .call, .mem => some (.callM a)
  | .call, .imm => some (.callI a)
  | .push, .reg => some (.pushR a)
  | .push, .mem => some (.pushM a)
  | .push, .imm => some (.pushI a)
  | .pop, .reg => some (.popR a)
  | .pop, .mem => some (.popM a)
  | .int, .reg => some (.intR a)
  | .int, .mem => some (.intM a)
  | .int, .imm => some (.intI a)
  | .lditbl, .reg => some (.lditblR a)
  | .lditbl, .mem => some (.lditblM a)
  | .lditbl, .imm => some (.lditblI a)
  | _, _ => none

/-- The instruction of a mnemonic and two operands; `mov $d, imm` is the pseudo-instruction for `stor $d, imm`
(R118, R146, R147, R153). -/
def select2 (m : Mnemonic) (kindA kindV : OperandKind) (a v : Word) : Option Instr :=
  match m, kindA, kindV with
  | .add, .reg, .reg => some (.addRR a v)
  | .add, .mem, .mem => some (.addMM a v)
  | .sub, .reg, .reg => some (.subRR a v)
  | .sub, .mem, .mem => some (.subMM a v)
  | .mul, .reg, .reg => some (.mulRR a v)
  | .mul, .mem, .mem => some (.mulMM a v)
  | .div, .reg, .reg => some (.divRR a v)
  | .div, .mem, .mem => some (.divMM a v)
  | .and, .reg, .reg => some (.andRR a v)
  | .and, .mem, .mem => some (.andMM a v)
  | .or, .reg, .reg => some (.orRR a v)
  | .or, .mem, .mem => some (.orMM a v)
  | .xor, .reg, .reg => some (.xorRR a v)
  | .xor, .mem, .mem => some (.xorMM a v)
  | .nor, .reg, .reg => some (.norRR a v)
  | .nor, .mem, .mem => some (.norMM a v)
  | .nand, .reg, .reg => some (.nandRR a v)
  | .nand, .mem, .mem => some (.nandMM a v)
  | .lshift, .reg, .reg => some (.lshiftRR a v)
  | .lshift, .mem, .mem => some (.lshiftMM a v)
  | .rshift, .reg, .reg => some (.rshiftRR a v)
  | .rshift, .mem, .mem => some (.rshiftMM a v)
  | .cmp, .reg, .reg => some (.cmpRR a v)
  | .cmp, .mem, .mem => some (.cmpMM a v)
  | .mov, .reg, .reg => some (.movRR a v)
  | .mov, .reg, .mem => some (.movRM a v)
  | .mov, .reg, .imm => some (.movRI a v)
  | .mov, .mem, .reg => some (.movMR a v)
  | .mov, .mem, .mem => some (.movMM a v)
  | .stor, .mem, .imm => some (.storMI a v)
  | .mov, .mem, .imm => some (.storMI a v)
  | _, _, _ => none

/-- Select the row of the opcode table whose mnemonic and format match the operands; MOV wants a register or an
address as destination (R146, R147). -/
def selectInstr (m : Mnemonic) (ops : List (OperandKind × Word)) : Except AsmError Instr :=
  match ops with
  | [] => (select0 m).elim (.error .wrongOperandType) .ok
  | [(k, a)] => (select1 m k a).elim (.error .wrongOperandType) .ok
  | [(ka, a), (kv, v)] =>
    if m = .mov ∧ ka = .imm then .error .noValidDestination
    else (select2 m ka kv a v).elim (.error .wrongOperandType) .ok
  | _ => .error .badShape

/-- The operands of a line: none, one, or two with a comma between them (R140). -/
def lineOperands : List Token → Except AsmError (List Operand)
  | [] => .ok []
  | [.operand o] => .ok [o]
  | [.operand o, .comma, .operand p] => .ok [o, p]
  | _ => .error .badShape

/-- The operand words of a line's operands, in order. -/
def operandWords (p : Params) (units : Units) : List Operand → Except AsmError (List (OperandKind × Word))
  | [] => .ok []
  | o :: rest =>
    match operandWord p units o, operandWords p units rest with
    | .ok w, .ok ws => .ok (w :: ws)
    | .ok _, .error e => .error e
    | .error e, _ => .error e

/-- One source instruction (R140, R146). -/
def assembleInstruction (p : Params) (units : Units) (mnemonic : String) (tokens : List Token) :
    Except AsmError Instr :=
  match mnemonicOfName mnemonic with
  | none => .error .unknownMnemonic
  | some m =>
    match lineOperands tokens with
    | .error e => .error e
    | .ok os =>
      match operandWords p units os with
      | .error e => .error e
      | .ok ws => selectInstr m ws

/-- Collect the function units; declaring a name twice is an error, and instructions before the first label belong
to no unit (R149). -/
def collectUnits : Nat → Units → List Line → Except AsmError Units
  | _, units, [] => .ok units
  | n, units, .label name :: rest =>
    if units.any (fun u => u.1 == name) then .error .duplicateFunction
    else collectUnits n (units ++ [(name, n)]) rest
  | n, units, .instruction _ _ :: rest => collectUnits (n + 1) units rest

/-- The instructions of a program, in source order (R148). -/
def assembleLines (p : Params) (units : Units) : List Line → Except AsmError (List Instr)
  | [] => .ok []
  | .label _ :: rest => assembleLines p units rest
  | .instruction m ts :: rest =>
    match assembleInstruction p units m ts, assembleLines p units rest with
    | .ok i, .ok is => .ok (i :: is)
    | .ok _, .error e => .error e
    | .error e, _ => .error e

/-- Assemble a program: a reference may come before or after its label (R145, R149). -/
def assemble (p : Params) (program : List Line) : Except AsmError (List Instr) :=
  match collectUnits 0 [] program with
  | .error e => .error e
  | .ok units => assembleLines p units program

/-- The binary image: one 24-byte record per instruction, without padding (R148). -/
def imageBytes (instrs : List Instr) : List Byte := instrs.flatMap encodeBytes

/-- The mnemonic of an instruction (R116). -/
def mnemonicOf : Instr → Mnemonic
  | .nop => .nop
  | .hlt => .hlt
  | .addRR _ _ => .add
  | .addMM _ _ => .add
  | .subRR _ _ => .sub
  | .subMM _ _ => .sub
  | .mulRR _ _ => .mul
  | .mulMM _ _ => .mul
  | .divRR _ _ => .div
  | .divMM _ _ => .div
  | .andRR _ _ => .and
  | .andMM _ _ => .and
  | .orRR _ _ => .or
  | .orMM _ _ => .or
  | .xorRR _ _ => .xor
  | .xorMM _ _ => .xor
  | .norRR _ _ => .nor
  | .norMM _ _ => .nor
  | .nandRR _ _ => .nand
  | .nandMM _ _ => .nand
  | .lshiftRR _ _ => .lshift
  | .lshiftMM _ _ => .lshift
  | .rshiftRR _ _ => .rshift
  | .rshiftMM _ _ => .rshift
  | .cmpRR _ _ => .cmp
  | .cmpMM _ _ => .cmp
  | .jitR _ => .jit
  | .jitM _ => .jit
  | .jitI _ => .jit
  | .jmpR _ => .jmp
  | .jmpM _ => .jmp
  | .jmpI _ => .jmp
  | .callR _ => .call
  | .callM _ => .call
  | .callI _ => .call
  | .ret => .ret
  | .pushR _ => .push
  | .pushM _ => .push
  | .pushI _ => .push
  | .popR _ => .pop
  | .popM _ => .pop
  | .movRR _ _ => .mov
  | .movRM _ _ => .mov
  | .movRI _ _ => .mov
  | .movMR _ _ => .mov
  | .movMM _ _ => .mov
  | .storMI _ _ => .stor
  | .intR _ => .int
  | .intM _ => .int
  | .intI _ => .int
  | .iret => .iret
  | .lditblR _ => .lditbl
  | .lditblM _ => .lditbl
  | .lditblI _ => .lditbl

/-- The operand words of an instruction, each with its kind (R114). -/
def operandsOf : Instr → List (OperandKind × Word)
  | .nop => []
  | .hlt => []
  | .addRR rd rs => [(.reg, rd), (.reg, rs)]
  | .addMM dst src => [(.mem, dst), (.mem, src)]
  | .subRR rd rs => [(.reg, rd), (.reg, rs)]
  | .subMM dst src => [(.mem, dst), (.mem, src)]
  | .mulRR rd rs => [(.reg, rd), (.reg, rs)]
  | .mulMM dst src => [(.mem, dst), (.mem, src)]
  | .divRR rd rs => [(.reg, rd), (.reg, rs)]
  | .divMM dst src => [(.mem, dst), (.mem, src)]
  | .andRR rd rs => [(.reg, rd), (.reg, rs)]
  | .andMM dst src => [(.mem, dst), (.mem, src)]
  | .orRR rd rs => [(.reg, rd), (.reg, rs)]
  | .orMM dst src => [(.mem, dst), (.mem, src)]
  | .xorRR rd rs => [(.reg, rd), (.reg, rs)]
  | .xorMM dst src => [(.mem, dst), (.mem, src)]
  | .norRR rd rs => [(.reg, rd), (.reg, rs)]
  | .norMM dst src => [(.mem, dst), (.mem, src)]
  | .nandRR rd rs => [(.reg, rd), (.reg, rs)]
  | .nandMM dst src => [(.mem, dst), (.mem, src)]
  | .lshiftRR rd rs => [(.reg, rd), (.reg, rs)]
  | .lshiftMM dst src => [(.mem, dst), (.mem, src)]
  | .rshiftRR rd rs => [(.reg, rd), (.reg, rs)]
  | .rshiftMM dst src => [(.mem, dst), (.mem, src)]
  | .cmpRR rd rs => [(.reg, rd), (.reg, rs)]
  | .cmpMM dst src => [(.mem, dst), (.mem, src)]
  | .jitR r => [(.reg, r)]
  | .jitM a => [(.mem, a)]
  | .jitI imm => [(.imm, imm)]
  | .jmpR r => [(.reg, r)]
  | .jmpM a => [(.mem, a)]
  | .jmpI imm => [(.imm, imm)]
  | .callR r => [(.reg, r)]
  | .callM a => [(.mem, a)]
  | .callI imm => [(.imm, imm)]
  | .ret => []
  | .pushR r => [(.reg, r)]
  | .pushM a => [(.mem, a)]
  | .pushI imm => [(.imm, imm)]
  | .popR r => [(.reg, r)]
  | .popM a => [(.mem, a)]
  | .movRR rd rs => [(.reg, rd), (.reg, rs)]
  | .movRM rd src => [(.reg, rd), (.mem, src)]
  | .movRI rd imm => [(.reg, rd), (.imm, imm)]
  | .movMR dst rs => [(.mem, dst), (.reg, rs)]
  | .movMM dst src => [(.mem, dst), (.mem, src)]
  | .storMI dst imm => [(.mem, dst), (.imm, imm)]
  | .intR r => [(.reg, r)]
  | .intM a => [(.mem, a)]
  | .intI imm => [(.imm, imm)]
  | .iret => []
  | .lditblR r => [(.reg, r)]
  | .lditblM a => [(.mem, a)]
  | .lditblI imm => [(.imm, imm)]

/-- A number in uppercase hex without leading zeros (R152). -/
def upperHex (n : Nat) : String := String.ofList ((Nat.toDigits 16 n).map Char.toUpper)

/-- An operand's canonical spelling (R152). An index that names no register is spelled as the spec's vectors spell
it, `%?16` (log entry 7). -/
def operandText (p : Params) : OperandKind × Word → String
  | (.reg, w) =>
    match regOfIndex p w with
    | some r => "%" ++ regName r
    | none => "%?" ++ Nat.repr w.toNat
  | (.mem, w) => "$0x" ++ upperHex w.toNat
  | (.imm, w) => Nat.repr w.toNat

/-- An instruction's canonical spelling (R152). -/
def instrText (p : Params) (i : Instr) : String :=
  match operandsOf i with
  | [] => mnemonicName (mnemonicOf i)
  | o :: rest => 
    mnemonicName (mnemonicOf i) ++ " " ++ rest.foldl (fun t q => t ++ ", " ++ operandText p q) (operandText p o)

/-- The disassembly of a triplet; a word 0 that decodes Invalid is shown as a word of 16 hex digits (R152). -/
def disassemble (p : Params) (t : Triplet) : String :=
  match decode t with
  | .ok i => instrText p i
  | .error _ =>
    let digits := upperHex t.w0.toNat
    ".word 0x" ++ String.ofList (List.replicate (16 - digits.length) '0') ++ digits

end Sys2Proof.Machine
end

