-- ==== Sys2Proof/Machine/Driver.lean ====
section
/-! DEFINITION. The host interface: what the driver does to the block between steps (R15, R350, R370 to R375). No
operation raises an interrupt (R371). -/

namespace Sys2Proof.Machine

/-- Why a host operation is refused or stops. -/
inductive HostError where
  /-- Two entries of PLATFORM_MAP have the same `(start, end)` (R71). -/
  | alreadyMapped
  /-- A load whose byte count is not a multiple of 8 (R93). -/
  | badLength
  /-- A word of a load or dump was unmapped or its device failed: its number in the transfer (R93, R94). -/
  | transferFailed (word : Nat)
  /-- `peek` or `poke` of an index that fails RegCheck (R374). -/
  | badIndex
  /-- `resume` while `fatal` is set (R371). -/
  | stopped
  deriving DecidableEq, Repr

/-- Two entries cover the same `(start, end)` pair (R71). -/
def sameRange (r q : Region) : Bool := r.start == q.start && r.stop == q.stop

/-- Add the entries of a map in list order; an entry equal in `(start, end)` to one already added ends the build,
with `false` (R71, R350; log entry 5). -/
def buildRegions : List Region → List Region → List Region × Bool
  | built, [] => (built, true)
  | built, r :: rest =>
    if built.any (sameRange r) then (built, false) else buildRegions (built ++ [r]) rest

/-- Call the `reset()` hook of every region's device, in registration order (R350 step 3; log entry 10). -/
def resetDevices : List Region → List DeviceState → List DeviceState
  | [], ds => ds
  | r :: rest, ds =>
    match r.backing with
    | .ram => resetDevices rest ds
    | .device id => resetDevices rest (deviceUpdate ds id (Config.deviceReset id (deviceLookup ds id)))

/-- `reset` on a platform, with the parameters of R10 as its arguments (R350): rebuild the region list, create RAM
afresh, call the devices' hooks, and set all core state to its reset value. A setup error leaves the block unable to
step (log entry 5). -/
def driverReset (p : Params) (map : List Region) (peripherals : List DeviceId) (s : State) :
    State × Except HostError Unit :=
  match buildRegions [] map with
  | (regions, false) => ({ s with regions := regions, setupFailed := true }, .error .alreadyMapped)
  | (regions, true) => (State.init p regions peripherals (resetDevices regions s.devices), .ok ())

/-- Split bytes into big-endian words; `none` where the count is not a multiple of 8 (R93). -/
def wordsOfBytes : List Byte → Option (List Word)
  | [] => some []
  | b7 :: b6 :: b5 :: b4 :: b3 :: b2 :: b1 :: b0 :: rest =>
    (wordsOfBytes rest).map (wordOfBytes [b7, b6, b5, b4, b3, b2, b1, b0] :: ·)
  | _ => none

/-- Write words to consecutive bus addresses, modulo 2^64; a failed write stops the transfer, and the words before
it stay written (R93; log entry 8). -/
def loadWords (base : Address) : Nat → List Word → State → State × Except HostError Unit
  | _, [], s => (s, .ok ())
  | k, w :: rest, s =>
    match busWrite s (base + BitVec.ofNat 64 k) w with
    | (.ok (), s') => loadWords base (k + 1) rest s'
    | (.unmapped, s') => (s', .error (.transferFailed k))
    | (.devError, s') => (s', .error (.transferFailed k))

/-- `load(base, bytes)` (R93). -/
def driverLoad (base : Address) (bytes : List Byte) (s : State) : State × Except HostError Unit :=
  match wordsOfBytes bytes with
  | none => (s, .error .badLength)
  | some ws => loadWords base 0 ws s

/-- Read consecutive bus addresses and serialize each word; the reads are real transactions (R94; log entry 8). -/
def dumpWords (base : Address) : Nat → Nat → State → State × Except HostError (List Byte)
  | _, 0, s => (s, .ok [])
  | k, n + 1, s =>
    match busRead s (base + BitVec.ofNat 64 k) with
    | (.ok w, s') =>
      match dumpWords base (k + 1) n s' with
      | (t, .ok bytes) => (t, .ok (wordBytes w ++ bytes))
      | (t, .error e) => (t, .error e)
    | (.unmapped, s') => (s', .error (.transferFailed k))
    | (.devError, s') => (s', .error (.transferFailed k))

/-- `dump(base, count)` (R94). -/
def driverDump (base : Address) (count : Nat) (s : State) : State × Except HostError (List Byte) :=
  dumpWords base 0 count s

/-- `peek(i)` (R374). -/
def driverPeek (i : RegIndex) (s : State) : Except HostError Word :=
  match regOfIndex s.params i with
  | some r => .ok (s.reg r)
  | none => .error .badIndex

/-- `poke(i, v)` (R374). -/
def driverPoke (i : RegIndex) (v : Word) (s : State) : State × Except HostError Unit :=
  match regOfIndex s.params i with
  | some r => (s.setReg r v, .ok ())
  | none => (s, .error .badIndex)

/-- `halt` (R371). -/
def driverHalt (s : State) : State := { s with running := false }

/-- `resume`: refused while `fatal` is set (R371, I33). -/
def driverResume (s : State) : State × Except HostError Unit :=
  if s.fatal.isNone then ({ s with running := true }, .ok ()) else (s, .error .stopped)

/-- What the host sees of the block (R371). -/
structure Status where
  running : Bool
  fatal : Option FatalReason
  lastint : Option Kind
  deriving DecidableEq, Repr

/-- `status` (R371). -/
def driverStatus (s : State) : Status := { running := s.running, fatal := s.fatal, lastint := s.lastint }

/-- `step` as the host calls it: one step, and then the status (R371, R361). -/
def driverStep (s : State) : Host.Outcome (State × Status) Fault Refusal :=
  match step s with
  | .next t => .next (t, driverStatus t)
  | .fault r => .fault r
  | .refused r => .refused r

/-- Destruction of the block: the `teardown()` hook of every region's device, in registration order; what is left
is the devices (R95, R375; log entry 10). -/
def teardownDevices : List Region → List DeviceState → List DeviceState
  | [], ds => ds
  | r :: rest, ds =>
    match r.backing with
    | .ram => teardownDevices rest ds
    | .device id => teardownDevices rest (deviceUpdate ds id (Config.deviceTeardown id (deviceLookup ds id)))

/-- The host destroys the block (R95). -/
def driverDestroy (s : State) : List DeviceState := teardownDevices s.regions s.devices

end Sys2Proof.Machine
end

