-- ==== Sys2Proof/Safety.lean ====
section
/-! DEFINITION. The terms statements use: what an instruction leaves unchanged, where it stores and reads first, what
answers an address, and the machine's invariant. -/

namespace Sys2Proof.Machine

/-- RAM answers this address (R72, R79). -/
def isRam (s : State) (a : Address) : Bool :=
  match decodeAddress s.regions a with
  | some (r, _) => r.backing == .ram
  | none => false

/-- No region contains this address (R72). -/
def isUnmapped (s : State) (a : Address) : Bool := (decodeAddress s.regions a).isNone

/-- The word RAM holds at an address (R79). -/
def State.word (s : State) (a : Address) : Word := s.mem.readWord a

/-- Every register but those named is as before. -/
def regsKept (but : List Reg) (s t : State) : Prop := ∀ r, r ∉ but → t.reg r = s.reg r

/-- The cell `k` is one of the eight of the word at `a` (log entry 1). -/
def inWord (a : Address) (k : Nat) : Prop := wordCell a ≤ k ∧ k < wordCell a + 8

/-- Every byte of RAM outside the named words reads as before. -/
def memKept (but : List Address) (s t : State) : Prop :=
  ∀ k, (∀ a ∈ but, ¬ inWord a k) → t.mem.read k = s.mem.read k

/-- The stack array is as before. -/
def stackKept (s t : State) : Prop := t.stack = s.stack

/-- The saved file, the vector table and `lastint` are as before. -/
def controllerKept (s t : State) : Prop := t.saved = s.saved ∧ t.ivt = s.ivt ∧ t.lastint = s.lastint

/-- `running` and `fatal` are as before. -/
def runKept (s t : State) : Prop := t.running = s.running ∧ t.fatal = s.fatal

/-- The platform is as before: the numbers of R10, the region list, the tick order and the setup flag. -/
def platformKept (s t : State) : Prop :=
  t.params = s.params ∧ t.regions = s.regions ∧ t.peripherals = s.peripherals ∧ t.setupFailed = s.setupFailed

/-- The platform and the devices' states are as before. -/
def busKept (s t : State) : Prop := platformKept s t ∧ t.devices = s.devices

/-- Nothing but the named registers has changed. -/
def onlyRegs (but : List Reg) (s t : State) : Prop :=
  regsKept but s t ∧ memKept [] s t ∧ stackKept s t ∧ controllerKept s t ∧ runKept s t ∧ busKept s t

/-- Nothing but the word at `a` has changed. -/
def onlyWord (a : Address) (s t : State) : Prop :=
  regsKept [] s t ∧ memKept [a] s t ∧ stackKept s t ∧ controllerKept s t ∧ runKept s t ∧ busKept s t

/-- Register `d` holds `v`, and nothing else has changed. -/
def setsReg (d : Reg) (v : Word) (s t : State) : Prop := t.reg d = v ∧ onlyRegs [d] s t

/-- RAM's word at `a` is `v`, and nothing else has changed. -/
def setsWord (a : Address) (v : Word) (s t : State) : Prop := t.word a = v ∧ onlyWord a s t

/-- R230's check passes: a push finds room. -/
abbrev hasRoom (s : State) : Prop := 0 < s.regs.sp.toNat ∧ s.regs.sp.toNat ≤ s.params.stackCapacity.toNat

/-- R231's check passes: a pop finds an entry. -/
abbrev hasEntry (s : State) : Prop := s.regs.sp.toNat < s.params.stackCapacity.toNat

/-- The word `v` has been pushed, and nothing else but the registers named has changed (R230). -/
def pushes (v : Word) (but : List Reg) (s t : State) : Prop :=
  t.regs.sp.toNat + 1 = s.regs.sp.toNat ∧ t.stackAt t.regs.sp.toNat = v ∧
  (∀ k, k ≠ t.regs.sp.toNat → t.stackAt k = s.stackAt k) ∧
  regsKept (.sp :: but) s t ∧ memKept [] s t ∧ controllerKept s t ∧ runKept s t ∧ busKept s t

/-- The interrupt kinds in the order of their codes (R300). -/
def kindOrder : List Kind := [.stackOverflow, .fault, .badAddr, .divByZero, .badInstr, .timer]

/-- The handler of the kind with code `n` has been entered from `s`, with a snapshot, and nothing else has changed
(R310). -/
def enteredHandler (n : Nat) (s t : State) : Prop :=
  (∃ k, kindOrder[n]? = some k ∧ t.lastint = some k) ∧ s.ivt[n]? = some t.regs.pc ∧ t.saved = s.regs ∧
  t.handling = true ∧ (∀ j, 0 < j → t.regs.flags.getLsbD j = s.regs.flags.getLsbD j) ∧
  regsKept [.pc, .flags] s t ∧ memKept [] s t ∧ stackKept s t ∧ t.ivt = s.ivt ∧ runKept s t ∧ busKept s t

/-- A raise while IN_HANDLER has become FAULT, without a snapshot, and nothing else has changed (R311). -/
def nestedEntry (s t : State) : Prop :=
  t.lastint = some .fault ∧ s.ivt[1]? = some t.regs.pc ∧ t.saved = s.saved ∧
  regsKept [.pc] s t ∧ memKept [] s t ∧ stackKept s t ∧ t.ivt = s.ivt ∧ runKept s t ∧ busKept s t

/-- What follows the answer to a transaction of an instruction: it goes on, raises BADADDR or stops (R19). -/
def answered {α : Type} (r : BusResult α × State) (next : α → State → State) : State :=
  match r with
  | (.ok x, s) => next x s
  | (.unmapped, s) => raise .badAddr s
  | (.devError, s) => stopFatal .device s

/-- The next step fetches these three words, all from RAM (R131, R132). -/
abbrev fetchesRam (s : State) (w : Triplet) : Prop :=
  isRam s (fetchAddress s) = true ∧ isRam s (fetchAddress s + 1) = true ∧ isRam s (fetchAddress s + 2) = true ∧
  s.word (fetchAddress s) = w.w0 ∧ s.word (fetchAddress s + 1) = w.a ∧ s.word (fetchAddress s + 2) = w.v

/-- Execute instructions one after another. -/
def execAll : List Instr → State → Host.Outcome State Fault Refusal
  | [], s => .next s
  | i :: rest, s =>
    match exec i s with
    | .next t => execAll rest t
    | .fault r => .fault r
    | .refused r => .refused r

/-- PUSH and CALL (R230). -/
def pushesWord (i : Instr) : Bool := mnemonicOf i == .push || mnemonicOf i == .call

/-- POP and RET (R231). -/
def popsWord (i : Instr) : Bool := mnemonicOf i == .pop || mnemonicOf i == .ret

/-- LDITBL (R280). -/
def loadsTable (i : Instr) : Bool := mnemonicOf i == .lditbl

/-- NOP and HLT (R290, R291). -/
def halts (i : Instr) : Bool := mnemonicOf i == .nop || mnemonicOf i == .hlt

/-- The contents a value operand gives at a state, where it has any (R120). -/
def operandValue (s : State) : OperandKind × Word → Option Word
  | (.reg, w) => (regOfIndex s.params w).map s.reg
  | (.mem, w) =>
    match (busRead s w).1 with
    | .ok v => some v
    | .unmapped => none
    | .devError => none
  | (.imm, w) => some w

/-- The word a location operand gives at a state: the memory form is the address itself (R121). -/
def operandLocation (s : State) : OperandKind × Word → Option Word
  | (.reg, w) => (regOfIndex s.params w).map s.reg
  | (.mem, w) => some w
  | (.imm, w) => some w

/-- The kind value of an INT at a state (R270). -/
def interruptValue (i : Instr) (s : State) : Option Word :=
  if mnemonicOf i = .int then (operandsOf i).head?.bind (operandValue s) else none

/-- The divisor of a DIV at a state: the second operand, read after the first (R160, R161, R168). -/
def divisor (i : Instr) (s : State) : Option Word :=
  if mnemonicOf i = .div then
    match operandsOf i with
    | [(.mem, a), v] => operandValue (busRead s a).2 v
    | [_, v] => operandValue s v
    | _ => none
  else none

/-- The addresses of an instruction's data accesses at a state (R303): its memory operands, but for the targets of
jumps and calls, which are not read (R121), and the six words of LDITBL's table (R280). -/
def dataAddresses (i : Instr) (s : State) : List Address :=
  match mnemonicOf i with
  | .jit | .jmp | .call => []
  | .lditbl =>
    ((operandsOf i).filterMap (operandLocation s)).flatMap fun b => (List.range 6).map fun k => b + BitVec.ofNat 64 k
  | .nop | .hlt | .add | .sub | .mul | .div | .and | .or | .xor | .nor | .nand | .lshift | .rshift | .cmp | .ret
  | .push | .pop | .mov | .stor | .int | .iret =>
    (operandsOf i).filterMap fun o => if o.1 = .mem then some o.2 else none

/-- The causes the rules list for an interrupt of each kind that an instruction takes from IDLE (R301 to R306). -/
def interruptCause (k : Kind) (i : Instr) (s : State) : Prop :=
  match k with
  | .stackOverflow =>
    pushesWord i = true ∧ ¬ hasRoom s ∨ popsWord i = true ∧ ¬ hasEntry s ∨ interruptValue i s = some 0
  | .fault => i = .iret ∨ interruptValue i s = some 1
  | .badAddr =>
    wellFormed s.params i = false ∨ (∃ a ∈ dataAddresses i s, isUnmapped s a = true) ∨ interruptValue i s = some 2
  | .divByZero => divisor i s = some 0 ∨ interruptValue i s = some 3
  | .badInstr => interruptValue i s = some 4
  | .timer => interruptValue i s = some 5

/-- The registers an instruction's rule writes where it raises nothing; IRET, which writes all of them, is not
described here. -/
def writtenRegs (p : Params) : Instr → List Reg
  | .addRR rd _ | .subRR rd _ | .mulRR rd _ | .divRR rd _ | .andRR rd _ | .orRR rd _ | .xorRR rd _
  | .norRR rd _ | .nandRR rd _ | .lshiftRR rd _ | .rshiftRR rd _ => (regOfIndex p rd).toList
  | .cmpRR _ _ | .cmpMM _ _ => [.tmp]
  | .jitR _ | .jitM _ | .jitI _ | .jmpR _ | .jmpM _ | .jmpI _ => [.pc]
  | .callR _ | .callM _ | .callI _ | .ret => [.pc, .sp]
  | .pushR _ | .pushM _ | .pushI _ | .popM _ => [.sp]
  | .popR rd => .sp :: (regOfIndex p rd).toList
  | .movRR rd _ | .movRM rd _ | .movRI rd _ => (regOfIndex p rd).toList
  | .nop | .hlt | .addMM _ _ | .subMM _ _ | .mulMM _ _ | .divMM _ _ | .andMM _ _ | .orMM _ _ | .xorMM _ _
  | .norMM _ _ | .nandMM _ _ | .lshiftMM _ _ | .rshiftMM _ _ | .movMR _ _ | .movMM _ _ | .storMI _ _ | .intR _
  | .intM _ | .intI _ | .iret | .lditblR _ | .lditblM _ | .lditblI _ => []

/-- The address of the one bus word an instruction may write, where its rule has a MemWrite (R134). -/
def storeAddress : Instr → Option Address
  | .addMM dst _ | .subMM dst _ | .mulMM dst _ | .divMM dst _ | .andMM dst _ | .orMM dst _ | .xorMM dst _
  | .norMM dst _ | .nandMM dst _ | .lshiftMM dst _ | .rshiftMM dst _ => some dst
  | .popM a => some a
  | .movMR dst _ | .movMM dst _ | .storMI dst _ => some dst
  | .nop | .hlt | .addRR _ _ | .subRR _ _ | .mulRR _ _ | .divRR _ _ | .andRR _ _ | .orRR _ _ | .xorRR _ _
  | .norRR _ _ | .nandRR _ _ | .lshiftRR _ _ | .rshiftRR _ _ | .cmpRR _ _ | .cmpMM _ _ | .jitR _ | .jitM _
  | .jitI _ | .jmpR _ | .jmpM _ | .jmpI _ | .callR _ | .callM _ | .callI _ | .ret | .pushR _ | .pushM _
  | .pushI _ | .popR _ | .movRR _ _ | .movRM _ _ | .movRI _ _ | .intR _ | .intM _ | .intI _ | .iret
  | .lditblR _ | .lditblM _ | .lditblI _ => none

/-- The address of the first memory read of an instruction's rule, for one whose registers are valid (R78). -/
def firstRead (i : Instr) (s : State) : Option Address :=
  match i with
  | .addMM dst _ | .subMM dst _ | .mulMM dst _ | .divMM dst _ | .andMM dst _ | .orMM dst _ | .xorMM dst _
  | .norMM dst _ | .nandMM dst _ | .lshiftMM dst _ | .rshiftMM dst _ => some dst
  | .cmpMM a _ => some a
  | .pushM a => some a
  | .movRM _ src | .movMM _ src => some src
  | .intM a => some a
  | .lditblM a => some a
  | .lditblI imm => some imm
  | .lditblR r => (regOfIndex s.params r).map s.reg
  | .nop | .hlt | .addRR _ _ | .subRR _ _ | .mulRR _ _ | .divRR _ _ | .andRR _ _ | .orRR _ _ | .xorRR _ _
  | .norRR _ _ | .nandRR _ _ | .lshiftRR _ _ | .rshiftRR _ _ | .cmpRR _ _ | .jitR _ | .jitM _ | .jitI _
  | .jmpR _ | .jmpM _ | .jmpI _ | .callR _ | .callM _ | .callI _ | .ret | .pushR _ | .pushI _ | .popR _
  | .popM _ | .movRR _ _ | .movRI _ _ | .movMR _ _ | .storMI _ _ | .intR _ | .intI _ | .iret => none

/-- The memory invariant: RAM keeps its canonical form, and every cell ever written lies in a word that RAM
answers. -/
def memInv (s : State) : Prop :=
  s.mem.wf ∧ ∀ c ∈ s.mem, ∃ a : Address, isRam s a ∧ inWord a c.1

/-- The bus invariant: after a setup that succeeded, no two regions have the same `(start, end)` (R71). -/
def busInv (s : State) : Prop :=
  s.setupFailed = false → s.regions.Pairwise (fun r q => ¬ (r.start = q.start ∧ r.stop = q.stop))

/-- Each bank of a register file lists exactly its slots (R30, R32). -/
def RegFile.shaped (p : Params) (x : RegFile) : Prop :=
  x.data.length = p.bankSlots ∧ x.index.length = p.bankSlots ∧ x.addr.length = p.bankSlots ∧
  x.ptr.length = p.bankSlots

/-- The shape of the core's arrays: the stack lists exactly `STACK_CAPACITY` entries, and both register files are
shaped (R30, R44, R45). -/
def shapeInv (s : State) : Prop :=
  s.stack.length = s.params.stackCapacity.toNat ∧ s.regs.shaped s.params ∧ s.saved.shaped s.params

/-- The machine's invariant. -/
def machineInv (s : State) : Prop := memInv s ∧ busInv s ∧ shapeInv s

end Sys2Proof.Machine
end

