-- ==== Sys2Proof/Certificates/Slice0/Obligations.lean ====
section
/-! DEFINITION. The statements for the provers. Each docstring names the rules of spec/ it formalises. -/

open Sys2Proof Sys2Proof.Machine

/-! ## Arithmetic, bitwise, shift and compare (40_alu.md) -/

namespace Sys2Proof.Claims

/-- R160 for one instruction: its word 0, its result in natural numbers, its frame, and its exception. -/
def aluRegisterRule (w0 : Word) (build : RegIndex → RegIndex → Instr) (f : Nat → Nat → Nat) : Prop :=
  ∀ (a v : Word) (s : State),
    decode { w0 := w0, a := a, v := v } = .ok (build a v) ∧
    (∀ d r, regOfIndex s.params a = some d → regOfIndex s.params v = some r →
      ∃ t, exec (build a v) s = .next t ∧
        setsReg d (BitVec.ofNat 64 (f (s.reg d).toNat (s.reg r).toNat)) s t) ∧
    (regCheck s.params a = false ∨ regCheck s.params v = false → exec (build a v) s = .next (raise .badAddr s))

/-- R161 for one instruction: its word 0, its transactions in order, its result and frame where RAM answers, and its
exception. -/
def aluMemoryRule (w0 : Word) (build : Address → Address → Instr) (f : Nat → Nat → Nat) : Prop :=
  ∀ (a v : Word) (s : State),
    decode { w0 := w0, a := a, v := v } = .ok (build a v) ∧
    exec (build a v) s = .next
      (answered (busRead s a) fun x s1 =>
       answered (busRead s1 v) fun y s2 =>
       answered (busWrite s2 a (BitVec.ofNat 64 (f x.toNat y.toNat))) fun _ s3 => s3) ∧
    (isRam s a = true → isRam s v = true → ∃ t, exec (build a v) s = .next t ∧
      setsWord a (BitVec.ofNat 64 (f (s.word a).toNat (s.word v).toNat)) s t) ∧
    (isUnmapped s a = true ∨ isRam s a = true ∧ isUnmapped s v = true →
      exec (build a v) s = .next (raise .badAddr s))

/-- The complement of a 64-bit number. -/
def notNat (n : Nat) : Nat := 2 ^ 64 - 1 - n

/-- R180's `f`, in natural numbers. -/
def shiftLeftNat (a b : Nat) : Nat := if 64 ≤ b then 0 else a * 2 ^ b % 2 ^ 64

/-- R182's `f`, in natural numbers. -/
def shiftRightNat (a b : Nat) : Nat := if 64 ≤ b then 0 else a / 2 ^ b

end Sys2Proof.Claims

open Sys2Proof.Claims

/-- R162, R164, R166: add, sub and mul of registers, exact modulo 2^64. -/
def Obligations.ArithmeticRegisterForms : Prop :=
  aluRegisterRule 0x0102000000000000 .addRR (fun a b => (a + b) % 2 ^ 64) ∧
  aluRegisterRule 0x0104000000000000 .subRR (fun a b => (a + (2 ^ 64 - b)) % 2 ^ 64) ∧
  aluRegisterRule 0x0106000000000000 .mulRR (fun a b => a * b % 2 ^ 64)

/-- The bitwise register forms (40_alu.md section 3), bit by bit. That the names mean the bitwise operations is the
spec's own reading, which it marks 'from general knowledge' (R170 to R179). -/
def Obligations.BitwiseRegisterForms : Prop :=
  aluRegisterRule 0x010A000000000000 .andRR (fun a b => a &&& b) ∧
  aluRegisterRule 0x010C000000000000 .orRR (fun a b => a ||| b) ∧
  aluRegisterRule 0x010E000000000000 .xorRR (fun a b => a ^^^ b) ∧
  aluRegisterRule 0x0110000000000000 .norRR (fun a b => notNat (a ||| b)) ∧
  aluRegisterRule 0x0112000000000000 .nandRR (fun a b => notNat (a &&& b))

/-- R180, R182: the shifts of registers; the amount is the whole word, and 64 or more gives 0. -/
def Obligations.ShiftRegisterForms : Prop :=
  aluRegisterRule 0x0114000000000000 .lshiftRR shiftLeftNat ∧
  aluRegisterRule 0x0116000000000000 .rshiftRR shiftRightNat

/-- R168, R304: the register divide. The index check comes before the divisor's. -/
def Obligations.DivideRegisterForm : Prop :=
  ∀ (a v : Word) (s : State),
    decode { w0 := 0x0108000000000000, a := a, v := v } = .ok (.divRR a v) ∧
    (∀ d r, regOfIndex s.params a = some d → regOfIndex s.params v = some r →
      (s.reg r ≠ 0 → ∃ t, exec (.divRR a v) s = .next t ∧
        setsReg d (BitVec.ofNat 64 ((s.reg d).toNat / (s.reg r).toNat)) s t) ∧
      (s.reg r = 0 → exec (.divRR a v) s = .next (raise .divByZero s))) ∧
    (regCheck s.params a = false ∨ regCheck s.params v = false → exec (.divRR a v) s = .next (raise .badAddr s))

/-- R163, R165, R167: add, sub and mul of memory words. -/
def Obligations.ArithmeticMemoryForms : Prop :=
  aluMemoryRule 0x0203000000000000 .addMM (fun a b => (a + b) % 2 ^ 64) ∧
  aluMemoryRule 0x0205000000000000 .subMM (fun a b => (a + (2 ^ 64 - b)) % 2 ^ 64) ∧
  aluMemoryRule 0x0207000000000000 .mulMM (fun a b => a * b % 2 ^ 64)

/-- The bitwise memory forms (40_alu.md section 3), with the same reading of the names. -/
def Obligations.BitwiseMemoryForms : Prop :=
  aluMemoryRule 0x020B000000000000 .andMM (fun a b => a &&& b) ∧
  aluMemoryRule 0x020D000000000000 .orMM (fun a b => a ||| b) ∧
  aluMemoryRule 0x020F000000000000 .xorMM (fun a b => a ^^^ b) ∧
  aluMemoryRule 0x0211000000000000 .norMM (fun a b => notNat (a ||| b)) ∧
  aluMemoryRule 0x0213000000000000 .nandMM (fun a b => notNat (a &&& b))

/-- R181, R183: the shifts of memory words. -/
def Obligations.ShiftMemoryForms : Prop :=
  aluMemoryRule 0x0215000000000000 .lshiftMM shiftLeftNat ∧
  aluMemoryRule 0x0217000000000000 .rshiftMM shiftRightNat

/-- R169: the memory divide. Both reads come before the divisor's check; on DIVBYZERO nothing is written. -/
def Obligations.DivideMemoryForm : Prop :=
  ∀ (a v : Word) (s : State),
    decode { w0 := 0x0209000000000000, a := a, v := v } = .ok (.divMM a v) ∧
    exec (.divMM a v) s = .next
      (answered (busRead s a) fun x s1 =>
       answered (busRead s1 v) fun y s2 =>
       if y = 0 then raise .divByZero s2
       else answered (busWrite s2 a (BitVec.ofNat 64 (x.toNat / y.toNat))) fun _ s3 => s3) ∧
    (isRam s a = true → isRam s v = true →
      (s.word v ≠ 0 → ∃ t, exec (.divMM a v) s = .next t ∧
        setsWord a (BitVec.ofNat 64 ((s.word a).toNat / (s.word v).toNat)) s t) ∧
      (s.word v = 0 → exec (.divMM a v) s = .next (raise .divByZero s))) ∧
    (isUnmapped s a = true ∨ isRam s a = true ∧ isUnmapped s v = true →
      exec (.divMM a v) s = .next (raise .badAddr s))

/-- R184: cmp of registers writes 1 or 0 to `tmp` and nothing else. -/
def Obligations.CompareRegisterForm : Prop :=
  ∀ (a v : Word) (s : State),
    decode { w0 := 0x0118000000000000, a := a, v := v } = .ok (.cmpRR a v) ∧
    (∀ p q, regOfIndex s.params a = some p → regOfIndex s.params v = some q →
      ∃ t, exec (.cmpRR a v) s = .next t ∧
        setsReg .tmp (if (s.reg p).toNat = (s.reg q).toNat then 1 else 0) s t) ∧
    (regCheck s.params a = false ∨ regCheck s.params v = false → exec (.cmpRR a v) s = .next (raise .badAddr s))

/-- R185: cmp of memory words. -/
def Obligations.CompareMemoryForm : Prop :=
  ∀ (a v : Word) (s : State),
    decode { w0 := 0x0219000000000000, a := a, v := v } = .ok (.cmpMM a v) ∧
    exec (.cmpMM a v) s = .next
      (answered (busRead s a) fun x s1 =>
       answered (busRead s1 v) fun y s2 => s2.setReg .tmp (if x.toNat = y.toNat then 1 else 0)) ∧
    (isRam s a = true → isRam s v = true → ∃ t, exec (.cmpMM a v) s = .next t ∧
      setsReg .tmp (if (s.word a).toNat = (s.word v).toNat then 1 else 0) s t) ∧
    (isUnmapped s a = true ∨ isRam s a = true ∧ isUnmapped s v = true →
      exec (.cmpMM a v) s = .next (raise .badAddr s))

/-! ## Control transfer (41_control.md) -/

/-- R201, R202, R203: jit jumps exactly when `tmp` is not zero; a bad register index raises whether or not the jump
would be taken. -/
def Obligations.JumpIfTrueForms : Prop :=
  ∀ (a v : Word) (s : State),
    decode { w0 := 0x011A000000000000, a := a, v := v } = .ok (.jitR a) ∧
    decode { w0 := 0x021B000000000000, a := a, v := v } = .ok (.jitM a) ∧
    decode { w0 := 0x031C000000000000, a := a, v := v } = .ok (.jitI a) ∧
    (s.reg .tmp ≠ 0 →
      (∀ r, regOfIndex s.params a = some r → ∃ t, exec (.jitR a) s = .next t ∧ setsReg .pc (s.reg r) s t) ∧
      (∃ t, exec (.jitM a) s = .next t ∧ setsReg .pc a s t) ∧
      (∃ t, exec (.jitI a) s = .next t ∧ setsReg .pc a s t)) ∧
    (s.reg .tmp = 0 →
      (regCheck s.params a = true → exec (.jitR a) s = .next s) ∧
      exec (.jitM a) s = .next s ∧ exec (.jitI a) s = .next s) ∧
    (regCheck s.params a = false → exec (.jitR a) s = .next (raise .badAddr s))

/-- R204, R205, R206: jmp. -/
def Obligations.JumpForms : Prop :=
  ∀ (a v : Word) (s : State),
    decode { w0 := 0x011D000000000000, a := a, v := v } = .ok (.jmpR a) ∧
    decode { w0 := 0x021E000000000000, a := a, v := v } = .ok (.jmpM a) ∧
    decode { w0 := 0x031F000000000000, a := a, v := v } = .ok (.jmpI a) ∧
    (∀ r, regOfIndex s.params a = some r → ∃ t, exec (.jmpR a) s = .next t ∧ setsReg .pc (s.reg r) s t) ∧
    (∃ t, exec (.jmpM a) s = .next t ∧ setsReg .pc a s t) ∧
    (∃ t, exec (.jmpI a) s = .next t ∧ setsReg .pc a s t) ∧
    (regCheck s.params a = false → exec (.jmpR a) s = .next (raise .badAddr s))

/-- R207, R208, R209: call pushes the return address and jumps; `call %sp` goes to the old `sp`; the index check comes
before the stack's, and a full stack commits nothing. -/
def Obligations.CallForms : Prop :=
  ∀ (a v : Word) (s : State),
    decode { w0 := 0x0120000000000000, a := a, v := v } = .ok (.callR a) ∧
    decode { w0 := 0x0221000000000000, a := a, v := v } = .ok (.callM a) ∧
    decode { w0 := 0x0322000000000000, a := a, v := v } = .ok (.callI a) ∧
    (hasRoom s →
      (∀ r, regOfIndex s.params a = some r →
        ∃ t, exec (.callR a) s = .next t ∧ t.reg .pc = s.reg r ∧ pushes (s.reg .pc) [.pc] s t) ∧
      (∃ t, exec (.callM a) s = .next t ∧ t.reg .pc = a ∧ pushes (s.reg .pc) [.pc] s t) ∧
      (∃ t, exec (.callI a) s = .next t ∧ t.reg .pc = a ∧ pushes (s.reg .pc) [.pc] s t)) ∧
    (¬ hasRoom s →
      (regCheck s.params a = true → exec (.callR a) s = .next (raise .stackOverflow s)) ∧
      exec (.callM a) s = .next (raise .stackOverflow s) ∧
      exec (.callI a) s = .next (raise .stackOverflow s)) ∧
    (regCheck s.params a = false → exec (.callR a) s = .next (raise .badAddr s))

/-- R210: ret pops into `pc`; on an empty stack `pc` and `sp` stay and STACK_OVERFLOW is raised. -/
def Obligations.ReturnForm : Prop :=
  ∀ (a v : Word) (s : State),
    decode { w0 := 0x0023000000000000, a := a, v := v } = .ok .ret ∧
    (hasEntry s → ∃ t, exec .ret s = .next t ∧
      t.reg .pc = s.stackAt (s.reg .sp).toNat ∧ (t.reg .sp).toNat = (s.reg .sp).toNat + 1 ∧
      onlyRegs [.pc, .sp] s t) ∧
    (¬ hasEntry s → exec .ret s = .next (raise .stackOverflow s))

/-! ## Stack (42_stack.md) -/

/-- R232, R233, R234: push in its three forms; the operand is read before the stack is checked. -/
def Obligations.PushForms : Prop :=
  ∀ (a v : Word) (s : State),
    decode { w0 := 0x0124000000000000, a := a, v := v } = .ok (.pushR a) ∧
    decode { w0 := 0x0225000000000000, a := a, v := v } = .ok (.pushM a) ∧
    decode { w0 := 0x0326000000000000, a := a, v := v } = .ok (.pushI a) ∧
    (hasRoom s →
      (∀ r, regOfIndex s.params a = some r → ∃ t, exec (.pushR a) s = .next t ∧ pushes (s.reg r) [] s t) ∧
      (isRam s a = true → ∃ t, exec (.pushM a) s = .next t ∧ pushes (s.word a) [] s t) ∧
      (∃ t, exec (.pushI a) s = .next t ∧ pushes a [] s t)) ∧
    (¬ hasRoom s →
      (regCheck s.params a = true → exec (.pushR a) s = .next (raise .stackOverflow s)) ∧
      exec (.pushM a) s = .next (answered (busRead s a) fun _ s1 => raise .stackOverflow s1) ∧
      exec (.pushI a) s = .next (raise .stackOverflow s)) ∧
    (regCheck s.params a = false → exec (.pushR a) s = .next (raise .badAddr s)) ∧
    (isUnmapped s a = true → exec (.pushM a) s = .next (raise .badAddr s))

/-- R235: pop into a register; the destination is written last, so `pop %sp` leaves the popped word. -/
def Obligations.PopRegisterForm : Prop :=
  ∀ (a v : Word) (s : State),
    decode { w0 := 0x0127000000000000, a := a, v := v } = .ok (.popR a) ∧
    (∀ r, regOfIndex s.params a = some r →
      (hasEntry s → ∃ t, exec (.popR a) s = .next t ∧
        t.reg r = s.stackAt (s.reg .sp).toNat ∧
        (r ≠ .sp → (t.reg .sp).toNat = (s.reg .sp).toNat + 1) ∧
        onlyRegs [r, .sp] s t) ∧
      (¬ hasEntry s → exec (.popR a) s = .next (raise .stackOverflow s))) ∧
    (regCheck s.params a = false → exec (.popR a) s = .next (raise .badAddr s))

/-- R236: pop into memory; the stack is checked first, and `sp` moves only when the write succeeds. -/
def Obligations.PopMemoryForm : Prop :=
  ∀ (a v : Word) (s : State),
    decode { w0 := 0x0228000000000000, a := a, v := v } = .ok (.popM a) ∧
    (hasEntry s →
      exec (.popM a) s = .next
        (answered (busWrite s a (s.stackAt (s.reg .sp).toNat)) fun _ s1 => s1.setReg .sp (s1.reg .sp + 1)) ∧
      (isRam s a = true → ∃ t, exec (.popM a) s = .next t ∧
        t.word a = s.stackAt (s.reg .sp).toNat ∧ (t.reg .sp).toNat = (s.reg .sp).toNat + 1 ∧
        regsKept [.sp] s t ∧ memKept [a] s t ∧ stackKept s t ∧ controllerKept s t ∧ runKept s t ∧ busKept s t) ∧
      (isUnmapped s a = true → exec (.popM a) s = .next (raise .badAddr s))) ∧
    (¬ hasEntry s → exec (.popM a) s = .next (raise .stackOverflow s)) ∧
    selectInstr .pop [(.imm, a)] = .error .wrongOperandType

/-- R230, R237 and R11, for any `STACK_CAPACITY`: from an empty stack, up to so many pushes succeed, each word lies where
the rule puts it, and the push after the last raises STACK_OVERFLOW; on the stack as reset leaves it a pop raises the
same, and one push always finds room, since the capacity is at least 1. -/
def Obligations.StackHoldsExactlyItsCapacity : Prop :=
  (∀ (s : State) (vs : List Word) (capacity : Nat), s.params.stackCapacity.toNat = capacity →
    s.regs.sp.toNat = capacity → vs.length ≤ capacity →
    ∃ t, execAll (vs.map Instr.pushI) s = .next t ∧
      t.regs.sp.toNat + vs.length = capacity ∧
      (∀ k (h : k < vs.length), t.stackAt (capacity - 1 - k) = vs[k]) ∧
      t.lastint = s.lastint ∧
      (vs.length = capacity → ∀ v, exec (.pushI v) t = .next (raise .stackOverflow t))) ∧
  (∀ (p : Params) (map : List Region) (ps : List DeviceId) (ds : List DeviceState) (i : RegIndex),
    regCheck p i = true →
    exec (.popR i) (State.init p map ps ds) = .next (raise .stackOverflow (State.init p map ps ds))) ∧
  (∀ (p : Params) (map : List Region) (ps : List DeviceId) (ds : List DeviceState) (v : Word),
    1 ≤ p.stackCapacity.toNat ∧
    ∃ t, exec (.pushI v) (State.init p map ps ds) = .next t ∧ pushes v [] (State.init p map ps ds) t)

/-! ## Move and store (43_move.md) -/

/-- R250, R252: mov of a register or an immediate into a register. -/
def Obligations.MoveToRegisterForms : Prop :=
  ∀ (a v : Word) (s : State),
    decode { w0 := 0x0129000000000000, a := a, v := v } = .ok (.movRR a v) ∧
    decode { w0 := 0x012B000000000000, a := a, v := v } = .ok (.movRI a v) ∧
    (∀ d r, regOfIndex s.params a = some d → regOfIndex s.params v = some r →
      ∃ t, exec (.movRR a v) s = .next t ∧ setsReg d (s.reg r) s t) ∧
    (∀ d, regOfIndex s.params a = some d → ∃ t, exec (.movRI a v) s = .next t ∧ setsReg d v s t) ∧
    (regCheck s.params a = false ∨ regCheck s.params v = false → exec (.movRR a v) s = .next (raise .badAddr s)) ∧
    (regCheck s.params a = false → exec (.movRI a v) s = .next (raise .badAddr s))

/-- R251: the load; the index is checked before the read. -/
def Obligations.LoadForm : Prop :=
  ∀ (a v : Word) (s : State),
    decode { w0 := 0x012A000000000000, a := a, v := v } = .ok (.movRM a v) ∧
    (∀ d, regOfIndex s.params a = some d →
      exec (.movRM a v) s = .next (answered (busRead s v) fun x s1 => s1.setReg d x) ∧
      (isRam s v = true → ∃ t, exec (.movRM a v) s = .next t ∧ setsReg d (s.word v) s t) ∧
      (isUnmapped s v = true → exec (.movRM a v) s = .next (raise .badAddr s))) ∧
    (regCheck s.params a = false → exec (.movRM a v) s = .next (raise .badAddr s))

/-- R253, R255: the store of a register and of an immediate. -/
def Obligations.StoreForms : Prop :=
  ∀ (a v : Word) (s : State),
    decode { w0 := 0x022C000000000000, a := a, v := v } = .ok (.movMR a v) ∧
    decode { w0 := 0x022E000000000000, a := a, v := v } = .ok (.storMI a v) ∧
    (∀ r, regOfIndex s.params v = some r →
      exec (.movMR a v) s = .next (answered (busWrite s a (s.reg r)) fun _ s1 => s1) ∧
      (isRam s a = true → ∃ t, exec (.movMR a v) s = .next t ∧ setsWord a (s.reg r) s t) ∧
      (isUnmapped s a = true → exec (.movMR a v) s = .next (raise .badAddr s))) ∧
    (regCheck s.params v = false → exec (.movMR a v) s = .next (raise .badAddr s)) ∧
    exec (.storMI a v) s = .next (answered (busWrite s a v) fun _ s1 => s1) ∧
    (isRam s a = true → ∃ t, exec (.storMI a v) s = .next t ∧ setsWord a v s t) ∧
    (isUnmapped s a = true → exec (.storMI a v) s = .next (raise .badAddr s)) ∧
    selectInstr .mov [(.mem, a), (.imm, v)] = .ok (.storMI a v)

/-- R254: mov of a memory word to memory; the source is read first. -/
def Obligations.MemoryToMemoryMove : Prop :=
  ∀ (a v : Word) (s : State),
    decode { w0 := 0x022D000000000000, a := a, v := v } = .ok (.movMM a v) ∧
    exec (.movMM a v) s = .next
      (answered (busRead s v) fun x s1 => answered (busWrite s1 a x) fun _ s2 => s2) ∧
    (isRam s v = true → isRam s a = true → ∃ t, exec (.movMM a v) s = .next t ∧ setsWord a (s.word v) s t) ∧
    (isUnmapped s v = true ∨ isRam s v = true ∧ isUnmapped s a = true →
      exec (.movMM a v) s = .next (raise .badAddr s))

/-! ## Interrupts, table load and halt (44_system.md, 60_exceptions.md) -/

namespace Sys2Proof.Claims

/-- R270: what raising the kind value `k` comes to, in the three cases. -/
def raisesValue (k : Word) (s t : State) : Prop :=
  (s.handling = true → nestedEntry s t) ∧
  (s.handling = false → k.toNat < 6 → enteredHandler k.toNat s t) ∧
  (s.handling = false → 6 ≤ k.toNat → t = { s with fatal := some .badKind })

end Sys2Proof.Claims

/-- R270, R271, R272, R273: int in its three forms. -/
def Obligations.InterruptForms : Prop :=
  ∀ (a v : Word) (s : State),
    decode { w0 := 0x012F000000000000, a := a, v := v } = .ok (.intR a) ∧
    decode { w0 := 0x0230000000000000, a := a, v := v } = .ok (.intM a) ∧
    decode { w0 := 0x0331000000000000, a := a, v := v } = .ok (.intI a) ∧
    (∀ r, regOfIndex s.params a = some r → ∃ t, exec (.intR a) s = .next t ∧ raisesValue (s.reg r) s t) ∧
    (regCheck s.params a = false → exec (.intR a) s = .next (raise .badAddr s)) ∧
    (isRam s a = true → ∃ t, exec (.intM a) s = .next t ∧ raisesValue (s.word a) s t) ∧
    (isUnmapped s a = true → exec (.intM a) s = .next (raise .badAddr s)) ∧
    (∃ t, exec (.intI a) s = .next t ∧ raisesValue a s t)

/-- R310, R311: taking an interrupt of any of the six kinds from IDLE, and a raise of any value, one that names no kind
included, from IN_HANDLER. -/
def Obligations.InterruptEntry : Prop :=
  (∀ (n : Nat) (k : Kind) (s : State), kindOrder[n]? = some k →
    (s.handling = false → enteredHandler n s (raise k s)) ∧
    (s.handling = true → nestedEntry s (raise k s))) ∧
  (∀ (k : Word) (s : State), s.handling = true → nestedEntry s (raiseCode k s))

/-- R313: iret in each state of the controller. -/
def Obligations.InterruptReturn : Prop :=
  ∀ (a v : Word) (s : State),
    decode { w0 := 0x0032000000000000, a := a, v := v } = .ok .iret ∧
    (s.handling = true → ∃ t, exec .iret s = .next t ∧ t.handling = false ∧
      (∀ j, 0 < j → t.regs.flags.getLsbD j = s.saved.flags.getLsbD j) ∧
      (∀ r, r ≠ .flags → t.reg r = s.saved.get r) ∧
      memKept [] s t ∧ stackKept s t ∧ controllerKept s t ∧ runKept s t ∧ busKept s t) ∧
    (s.handling = false → ∃ t, exec .iret s = .next t ∧ enteredHandler 1 s t)

/-- R320: after an entry from IDLE, an iret that finds the snapshot still in place restores every register
exactly, whatever the handler did to the registers, the stack or memory meanwhile. -/
def Obligations.ReturnRestoresExactly : Prop :=
  ∀ (k : Kind) (s h : State), s.handling = false → h.saved = (raise k s).saved → h.handling = true →
    ∃ t, exec .iret h = .next t ∧ t.regs = s.regs ∧
      t.mem = h.mem ∧ t.stack = h.stack ∧ t.ivt = h.ivt ∧ t.lastint = h.lastint ∧ t.devices = h.devices

/-- R280 to R283: lditbl reads six words and only then writes the whole table; a read that fails leaves it as it was. -/
def Obligations.LoadTableForms : Prop :=
  ∀ (a v : Word) (s : State),
    decode { w0 := 0x0133000000000000, a := a, v := v } = .ok (.lditblR a) ∧
    decode { w0 := 0x0234000000000000, a := a, v := v } = .ok (.lditblM a) ∧
    decode { w0 := 0x0335000000000000, a := a, v := v } = .ok (.lditblI a) ∧
    (∀ (i : Instr) (b : Word),
      i = .lditblM a ∧ b = a ∨ i = .lditblI a ∧ b = a ∨
        (∃ r, regOfIndex s.params a = some r ∧ i = .lditblR a ∧ b = s.reg r) →
      exec i s = .next
        (answered (busRead s b) fun e0 s1 => answered (busRead s1 (b + 1)) fun e1 s2 =>
         answered (busRead s2 (b + 2)) fun e2 s3 => answered (busRead s3 (b + 3)) fun e3 s4 =>
         answered (busRead s4 (b + 4)) fun e4 s5 => answered (busRead s5 (b + 5)) fun e5 s6 =>
         { s6 with ivt := #v[e0, e1, e2, e3, e4, e5] }) ∧
      ((∀ k < 6, isRam s (b + BitVec.ofNat 64 k) = true) →
        ∃ t, exec i s = .next t ∧
          (∀ (k : Nat) (h : k < 6), t.ivt[k] = s.word (b + BitVec.ofNat 64 k)) ∧
          regsKept [] s t ∧ memKept [] s t ∧ stackKept s t ∧ t.saved = s.saved ∧ t.lastint = s.lastint ∧
          runKept s t ∧ busKept s t) ∧
      (∀ j < 6, (∀ k < j, isRam s (b + BitVec.ofNat 64 k) = true) → isUnmapped s (b + BitVec.ofNat 64 j) = true →
        exec i s = .next (raise .badAddr s))) ∧
    (regCheck s.params a = false → exec (.lditblR a) s = .next (raise .badAddr s))

/-- R290, R291, R362: nop and hlt clear `running` and nothing else; the step that runs one still ends with its tick
phase and its cycle count, and no further step happens. -/
def Obligations.HaltForms : Prop :=
  ∀ (a v : Word) (s : State),
    decode { w0 := 0x0000000000000000, a := a, v := v } = .ok .nop ∧
    decode { w0 := 0x0001000000000000, a := a, v := v } = .ok .hlt ∧
    exec .nop s = .next { s with running := false } ∧
    exec .hlt s = .next { s with running := false } ∧
    (∀ w0 : Word, w0 = 0x0000000000000000 ∨ w0 = 0x0001000000000000 →
      s.enabled = true → fetchesRam s { w0 := w0, a := a, v := v } →
      ∃ t, step s = .next t ∧ t = endStep { advance w0 (boot s) with running := false } ∧
        t.running = false ∧ t.reg .ip = w0 ∧ t.reg .cycle = s.reg .cycle + 1 ∧
        (s.peripherals = [] → t.reg .pc = fetchAddress s + 3) ∧ step t = .next t)

/-- R301 to R306, for what an instruction does in IDLE: it takes an interrupt, of a kind for which it meets one of the
conditions the rules list; or it stops, for an INT of a kind value of 6 or more or for a device that failed; or it
records no interrupt and takes none, whatever `lastint` held before. -/
def Obligations.InterruptCauses : Prop :=
  ∀ (i : Instr) (s t : State), s.handling = false → exec i s = .next t →
    (∃ k ds, t = raise k { s with devices := ds } ∧ interruptCause k i s) ∨
    (∃ ds v, t = stopFatal .badKind { s with devices := ds } ∧ interruptValue i s = some v ∧ 6 ≤ v.toNat) ∨
    (∃ ds, t = stopFatal .device { s with devices := ds } ∧ dataAddresses i s ≠ []) ∨
    (t.saved = s.saved ∧ t.lastint = s.lastint ∧ t.fatal = s.fatal ∧ regsKept (writtenRegs s.params i) s t)

namespace Sys2Proof.Claims

/-- The outcome is a next state whose `flags` holds `w`, so that `IF` is its bit 0, and nothing else has changed. -/
def writesFlags (w : Word) (s : State) (o : Host.Outcome State Fault Refusal) : Prop :=
  ∃ t, o = .next t ∧ t.handling = w.getLsbD 0 ∧ t.regs.flags = w ∧ onlyRegs [.flags] s t

end Sys2Proof.Claims

/-- R323: a mov in each of its register forms, a pop or an ALU instruction with `%flags` as destination, or the host's
poke of index 0, sets `IF` to bit 0 of the value written, with no snapshot and no record. -/
def Obligations.SoftwareWritesInterruptBit : Prop :=
  ∀ (v : Word) (s : State),
    writesFlags v s (exec (.movRI 0 v) s) ∧
    (∀ r, regOfIndex s.params v = some r → writesFlags (s.reg r) s (exec (.movRR 0 v) s)) ∧
    (isRam s v = true → writesFlags (s.word v) s (exec (.movRM 0 v) s)) ∧
    (hasEntry s → ∃ t, exec (.popR 0) s = .next t ∧ t.handling = (s.stackAt s.regs.sp.toNat).getLsbD 0 ∧
      t.regs.flags = s.stackAt s.regs.sp.toNat ∧ onlyRegs [.flags, .sp] s t) ∧
    (∀ r, regOfIndex s.params v = some r →
      ∀ p ∈ [(Instr.addRR 0 v, s.regs.flags + s.reg r), (.subRR 0 v, s.regs.flags - s.reg r),
        (.mulRR 0 v, s.regs.flags * s.reg r), (.andRR 0 v, s.regs.flags &&& s.reg r),
        (.orRR 0 v, s.regs.flags ||| s.reg r), (.xorRR 0 v, s.regs.flags ^^^ s.reg r),
        (.norRR 0 v, ~~~(s.regs.flags ||| s.reg r)), (.nandRR 0 v, ~~~(s.regs.flags &&& s.reg r)),
        (.lshiftRR 0 v, s.regs.flags <<< (s.reg r).toNat), (.rshiftRR 0 v, s.regs.flags >>> (s.reg r).toNat)],
        writesFlags p.2 s (exec p.1 s)) ∧
    (∀ r, regOfIndex s.params v = some r → s.reg r ≠ 0 →
      writesFlags (s.regs.flags / s.reg r) s (exec (.divRR 0 v) s)) ∧
    (∃ t, driverPoke 0 v s = (t, .ok ()) ∧ writesFlags v s (.next t))

/-- 30_encoding.md section 5 (R134) and 60_exceptions.md section 3 (R319, the spec's own inference): an instruction
either raises, stops the block, or commits. Where it raises or stops, nothing of it is left but the entry or the stop
and the states of devices it had read or written; where it commits, no more than the one word and the registers of its
rule are written, and no interrupt is recorded. -/
def Obligations.InterruptsArePrecise : Prop :=
  ∀ (i : Instr) (s t : State), exec i s = .next t →
    (∃ k ds, t = raise k { s with devices := ds }) ∨
    (∃ r ds, t = stopFatal r { s with devices := ds }) ∨
    (t.saved = s.saved ∧ t.lastint = s.lastint ∧ t.fatal = s.fatal ∧ memKept (storeAddress i).toList s t ∧
      (i = .iret ∨ regsKept (writtenRegs s.params i) s t))

/-- R33: RegCheck with the default slots; an instruction with a register operand that fails RegCheck raises BADADDR and
does nothing else; the host's peek and poke of such an index are refused and change nothing. -/
def Obligations.InvalidRegisterIndexRaises : Prop :=
  (∀ i : Word, regCheck Config.defaults i = true ↔
    i.toNat ≤ 15 ∨ (17 ≤ i.toNat ∧ i.toNat ≤ 26) ∨ (28 ≤ i.toNat ∧ i.toNat ≤ 37) ∨
      (39 ≤ i.toNat ∧ i.toNat ≤ 48)) ∧
  (∀ (i : Instr) (s : State), wellFormed s.params i = false → exec i s = .next (raise .badAddr s)) ∧
  (∀ (i v : Word) (s : State), regCheck s.params i = false →
    driverPeek i s = .error .badIndex ∧ driverPoke i v s = (s, .error .badIndex))

/-- 10_state.md section 1 (R32): the flat indices. The scalars are 0 to 5 in the source's order, slot `n` of bank `b` is
`6 + 11 * b + n` with the default slots, the other indices are invalid, no two indices name one register, and the
assembler and the host use the same scheme. For another `BANK_SLOTS` the numbering is the model's (log entry 14): one
padding index after each bank. -/
def Obligations.RegisterNumbering : Prop :=
  (∀ (n : Nat) (r : Reg) (p : Params), [Reg.flags, .tmp, .sp, .ip, .pc, .cycle][n]? = some r →
    regOfIndex p (BitVec.ofNat 64 n) = some r) ∧
  (∀ n < 10,
    regOfIndex Config.defaults (BitVec.ofNat 64 (6 + 11 * 0 + n)) = some (.data n) ∧
    regOfIndex Config.defaults (BitVec.ofNat 64 (6 + 11 * 1 + n)) = some (.index n) ∧
    regOfIndex Config.defaults (BitVec.ofNat 64 (6 + 11 * 2 + n)) = some (.addr n) ∧
    regOfIndex Config.defaults (BitVec.ofNat 64 (6 + 11 * 3 + n)) = some (.ptr n)) ∧
  (∀ i : Word, i = 16 ∨ i = 27 ∨ i = 38 ∨ 49 ≤ i.toNat → regOfIndex Config.defaults i = none) ∧
  (∀ (p : Params) (i j : Word) (r : Reg), regOfIndex p i = some r → regOfIndex p j = some r → i = j) ∧
  (∀ (p : Params) (b n : Nat), n < p.bankSlots → 6 + (p.bankSlots + 1) * b + n < 2 ^ 64 →
    regOfIndex p (BitVec.ofNat 64 (6 + (p.bankSlots + 1) * b + n)) =
      [Reg.data n, .index n, .addr n, .ptr n][b]?) ∧
  (∀ (i : Word) (r : Reg) (units : Units) (s : State), regOfIndex Config.defaults i = some r →
    operandWord Config.defaults units (.register (regName r)) = .ok (.reg, i) ∧
    (s.params = Config.defaults → driverPeek i s = .ok (s.reg r)))

/-- R75, R76: the first memory read of an instruction whose registers are valid: where no region answers, BADADDR is
raised, and where a device fails, the block stops with fatal(DEVICE). -/
def Obligations.FirstReadFailureRaisesOrStops : Prop :=
  ∀ (i : Instr) (s : State) (a : Address), wellFormed s.params i = true → firstRead i s = some a →
    (isUnmapped s a = true → exec i s = .next (raise .badAddr s)) ∧
    (match busRead s a with
     | (.devError, s1) => exec i s = .next (stopFatal .device s1)
     | (.unmapped, s1) => s1 = s ∧ isUnmapped s a = true
     | (.ok _, _) => isUnmapped s a = false)

/-! ## Who writes what (10_state.md) -/

/-- R45, R46, R48, R71: over every instruction, the stack array is written only by PUSH and CALL and only just below
the old top, the table only by LDITBL, `running` is only cleared and only by NOP and HLT, and the platform never. -/
def Obligations.StateHasItsWriters : Prop :=
  ∀ (i : Instr) (s t : State), exec i s = .next t →
    (t.stack = s.stack ∨
      pushesWord i = true ∧ hasRoom s ∧ ∀ k, k ≠ s.regs.sp.toNat - 1 → t.stackAt k = s.stackAt k) ∧
    (t.ivt = s.ivt ∨ loadsTable i = true) ∧
    (t.running = s.running ∨ halts i = true ∧ t.running = false) ∧
    platformKept s t

/-- R44, R48, R49, R71: over every step, `saved` changes only to a snapshot of an interrupted IDLE program, `running` is
never set, `fatal` is never cleared, and the platform does not change. -/
def Obligations.StepNeverSetsWhatOnlyTheHostSets : Prop :=
  ∀ s t : State, step s = .next t →
    (t.running = true → s.running = true) ∧
    (s.fatal ≠ none → t = s) ∧
    (t.saved = s.saved ∨ flagsHandling t.saved.flags = false) ∧
    platformKept s t

/-! ## The step (30_encoding.md, 70_reset_and_hazards.md) -/

/-- 30_encoding.md section 5 (R133, R134, and R138, the spec's own inference): an enabled step whose fetch gives a
triplet that decodes runs that instruction, after the fetch advance and before the end of the step. -/
def Obligations.StepRunsTheDecodedInstruction : Prop :=
  ∀ (s t u : State) (w : Triplet) (i : Instr),
    s.enabled = true → fetch (boot s) = .words w t → decode w = .ok i → exec i (advance w.w0 t) = .next u →
    step s = .next (finish u) ∧ Sys2Proof.core.step s = .next (finish u)

/-- 30_encoding.md sections 1 and 5 (R110, R131 to R133, and R138, the spec's own inference): where RAM holds an
instruction's record at the fetch address, the step runs it with `ip` its word 0 and `pc` the next record's address. -/
def Obligations.StepRunsTheEncodedInstruction : Prop :=
  ∀ (s : State) (i : Instr), s.enabled = true → fetchesRam s (encode i) →
    ∃ e u, e = advance (encode i).w0 (boot s) ∧ e.reg .ip = (encode i).w0 ∧ e.reg .pc = fetchAddress s + 3 ∧
      onlyRegs [.ip, .pc] s e ∧ exec i e = .next u ∧ step s = .next (finish u)

/-- R130, R361: a step that is not enabled changes nothing, and the host receives the status. -/
def Obligations.DisabledStepChangesNothing : Prop :=
  ∀ s : State, s.running = false ∨ s.fatal ≠ none →
    step s = .next s ∧ driverStep s = .next (s, { running := s.running, fatal := s.fatal, lastint := s.lastint })

/-- R131: the boot rule. It applies at every step that starts with `pc = 0`, and after reset the first step fetches at
`IO_BASE`, by default 0xA0000000. -/
def Obligations.BootRule : Prop :=
  (∀ s : State, s.regs.pc = 0 →
    setsReg .pc (BitVec.ofNat 64 (s.params.ioBase.toNat + 3 * s.regs.cycle.toNat)) s (boot s)) ∧
  (∀ s : State, s.regs.pc ≠ 0 → boot s = s) ∧
  (∀ s : State, s.enabled = true → step s = step (boot s)) ∧
  (∀ (p : Params) (map : List Region) (ps : List DeviceId) (ds : List DeviceState),
    fetchAddress (State.init p map ps ds) = p.ioBase) ∧
  State.reset.params.ioBase = 0xA0000000

/-- R132: the three fetch reads in order; an unmapped one raises BADADDR with `pc` and `ip` as they were and the step
goes on to its end; a failing device stops the block. -/
def Obligations.FetchFaults : Prop :=
  (∀ u : State, fetch u =
    match busRead u u.regs.pc with
    | (.unmapped, t) => .raised (raise .badAddr t)
    | (.devError, t) => .stopped (stopFatal .device t)
    | (.ok f0, t) =>
      match busRead t (u.regs.pc + 1) with
      | (.unmapped, t) => .raised (raise .badAddr t)
      | (.devError, t) => .stopped (stopFatal .device t)
      | (.ok f1, t) =>
        match busRead t (u.regs.pc + 2) with
        | (.unmapped, t) => .raised (raise .badAddr t)
        | (.devError, t) => .stopped (stopFatal .device t)
        | (.ok f2, t) => .words { w0 := f0, a := f1, v := f2 } t) ∧
  (∀ s : State, s.enabled = true →
    match fetch (boot s) with
    | .raised t => step s = .next (endStep t)
    | .stopped t => step s = .next t
    | .words _ t => t.regs = (boot s).regs) ∧
  (∀ (s : State) (n : Nat), s.enabled = true → n < 3 →
    (∀ k < n, isRam s (fetchAddress s + BitVec.ofNat 64 k) = true) →
    isUnmapped s (fetchAddress s + BitVec.ofNat 64 n) = true →
    step s = .next (endStep (raise .badAddr (boot s))))

/-- A fetched word 0 that is none of the table's raises BADINSTR after the fetch advance (30_encoding.md sections 4 and
5; that the saved `pc` points past the triplet is the spec's inference, R135). -/
def Obligations.IllegalWordRaisesBadInstr : Prop :=
  ∀ (s : State) (w : Triplet) (e : DecodeError), s.enabled = true → fetchesRam s w → decode w = .error e →
    step s = .next (endStep (raise .badInstr (advance w.w0 (boot s)))) ∧
    (s.handling = false → s.peripherals = [] → ∀ t, step s = .next t →
      t.saved.pc = fetchAddress s + 3 ∧ t.saved.ip = w.w0 ∧ t.lastint = some .badInstr ∧
      s.ivt[4]? = some t.regs.pc ∧ t.regs.cycle = s.regs.cycle + 1)

/-- R136, R137, R318, R321: the end of a step. Devices are ticked once each in registration order, each request raised
before the next tick; from IN_HANDLER any request is FAULT and the snapshot stands, from IDLE the first takes the
snapshot; then `cycle` grows by one, and nothing else changes but device states. -/
def Obligations.TickPhaseAndCycle : Prop :=
  (∀ s : State, finish s = if s.fatal = none then endStep s else s) ∧
  (∀ s : State, endStep s = (tickAll s.peripherals s).setReg .cycle (s.reg .cycle + 1)) ∧
  (∀ s : State, tickAll [] s = s) ∧
  (∀ (d : DeviceId) (ds : List DeviceId) (s : State), tickAll (d :: ds) s = tickAll ds
    (match Config.deviceTick d (deviceLookup s.devices d) with
     | (none, x) => s.setDevice d x
     | (some k, x) => raise k (s.setDevice d x))) ∧
  (∀ s : State, (endStep s).mem = s.mem ∧ (endStep s).stack = s.stack ∧ (endStep s).ivt = s.ivt ∧
    runKept s (endStep s) ∧ regsKept [.pc, .flags, .cycle] s (endStep s)) ∧
  (∀ s : State, s.handling = true → (endStep s).saved = s.saved ∧ (endStep s).regs.flags = s.regs.flags ∧
    ((endStep s).regs.pc = s.regs.pc ∧ (endStep s).lastint = s.lastint ∨
     (endStep s).regs.pc = s.vector .fault ∧ (endStep s).lastint = some .fault)) ∧
  (∀ s : State, s.handling = false →
    regsKept [.cycle] s (endStep s) ∧ controllerKept s (endStep s) ∨
    (endStep s).saved = s.regs ∧ (endStep s).handling = true ∧
      ∃ k, (endStep s).lastint = some k ∧ (endStep s).regs.pc = s.vector k)

/-- R360, R312: a step that stops the block has no tick phase and no cycle count; it leaves the fetch's effects and
device states, and no later step does anything. -/
def Obligations.FatalStopEndsTheStep : Prop :=
  (∀ s t : State, s.enabled = true → step s = .next t → t.fatal ≠ none →
    t.regs.cycle = s.regs.cycle ∧ regsKept [.pc, .ip] s t ∧ t.mem = s.mem ∧ stackKept s t ∧ controllerKept s t ∧
    t.running = s.running ∧ step t = .next t) ∧
  (∀ (s : State) (k v : Word), s.enabled = true → s.handling = false → 6 ≤ k.toNat →
    fetchesRam s { w0 := 0x0331000000000000, a := k, v := v } →
    step s = .next { advance 0x0331000000000000 (boot s) with fatal := some .badKind })

/-- 60_exceptions.md section 3 (R315, the spec's own inference), over 30_encoding.md section 5 (R132, R137): with no
device to tick, an unmapped FAULT vector livelocks a handler: every later step faults again at its fetch, `pc` stays,
and only `cycle` advances. -/
def Obligations.UnmappedFaultVectorLivelocks : Prop :=
  ∀ (n : Nat) (s : State), s.enabled = true → s.handling = true → s.peripherals = [] →
    s.regs.pc = s.vector .fault → s.regs.pc ≠ 0 → isUnmapped s s.regs.pc = true → s.lastint = some .fault →
    Host.Core.run Sys2Proof.core n s =
      .next { s with regs := { s.regs with cycle := s.regs.cycle + BitVec.ofNat 64 n } }

/-! ## Encoding (30_encoding.md) -/

namespace Sys2Proof.Claims

/-- The 54 words of R116. -/
def opcodeWords : List Word := [
  0x0000000000000000, 0x0001000000000000, 0x0102000000000000, 0x0203000000000000, 0x0104000000000000,
  0x0205000000000000, 0x0106000000000000, 0x0207000000000000, 0x0108000000000000, 0x0209000000000000,
  0x010A000000000000, 0x020B000000000000, 0x010C000000000000, 0x020D000000000000, 0x010E000000000000,
  0x020F000000000000, 0x0110000000000000, 0x0211000000000000, 0x0112000000000000, 0x0213000000000000,
  0x0114000000000000, 0x0215000000000000, 0x0116000000000000, 0x0217000000000000, 0x0118000000000000,
  0x0219000000000000, 0x011A000000000000, 0x021B000000000000, 0x031C000000000000, 0x011D000000000000,
  0x021E000000000000, 0x031F000000000000, 0x0120000000000000, 0x0221000000000000, 0x0322000000000000,
  0x0023000000000000, 0x0124000000000000, 0x0225000000000000, 0x0326000000000000, 0x0127000000000000,
  0x0228000000000000, 0x0129000000000000, 0x012A000000000000, 0x012B000000000000, 0x022C000000000000,
  0x022D000000000000, 0x022E000000000000, 0x012F000000000000, 0x0230000000000000, 0x0331000000000000,
  0x0032000000000000, 0x0133000000000000, 0x0234000000000000, 0x0335000000000000 ]

/-- The words of the rows without operands (format F0 of R114). -/
def wordsWithoutOperands : List Word :=
  [0x0000000000000000, 0x0001000000000000, 0x0023000000000000, 0x0032000000000000]

/-- The words of the rows with one operand (formats F1R, F1M and F1I of R114). -/
def wordsWithOneOperand : List Word := [
  0x011A000000000000, 0x021B000000000000, 0x031C000000000000, 0x011D000000000000, 0x021E000000000000,
  0x031F000000000000, 0x0120000000000000, 0x0221000000000000, 0x0322000000000000, 0x0124000000000000,
  0x0225000000000000, 0x0326000000000000, 0x0127000000000000, 0x0228000000000000, 0x012F000000000000,
  0x0230000000000000, 0x0331000000000000, 0x0133000000000000, 0x0234000000000000, 0x0335000000000000 ]

end Sys2Proof.Claims

/-- 30_encoding.md section 4 (R125, R126, and R127, the spec's own inference): a triplet decodes exactly when its word 0
is one of the 54, whatever its operand words, and what it decodes to encodes to that word. -/
def Obligations.DecodesExactlyTheTable : Prop :=
  ∀ t : Triplet, ((∃ i, decode t = .ok i) ↔ t.w0 ∈ opcodeWords) ∧
    ∀ i, decode t = .ok i → (encode i).w0 = t.w0

/-- R115: any value in a word the format leaves unused decodes to the same instruction, and the encoder writes 0
there. -/
def Obligations.UnusedWordsAreIgnored : Prop :=
  (∀ w ∈ wordsWithoutOperands, ∀ a v b u : Word,
    decode { w0 := w, a := a, v := v } = decode { w0 := w, a := b, v := u }) ∧
  (∀ w ∈ wordsWithOneOperand, ∀ a v u : Word,
    decode { w0 := w, a := a, v := v } = decode { w0 := w, a := a, v := u }) ∧
  (∀ i : Instr, ((encode i).w0 ∈ wordsWithoutOperands → (encode i).a = 0) ∧
    ((encode i).w0 ∈ wordsWithoutOperands ∨ (encode i).w0 ∈ wordsWithOneOperand → (encode i).v = 0))

/-- 30_encoding.md sections 1, 4 and 6 (R110, R148, and R127, the spec's own inference): for every instruction, with
every operand at every value, decoding its words gives it back; its record is 24 bytes, and decoding the record, with
any bytes after it, gives the instruction and those bytes; no two instructions share their words. -/
def Obligations.DecodeInvertsEncode : Prop :=
  (∀ i : Instr, decode (encode i) = .ok i) ∧
  (∀ (i : Instr) (rest : List Byte), (encodeBytes i).length = 24 ∧
    decodeRecord (encodeBytes i ++ rest) = .ok (i, rest)) ∧
  (∀ i j : Instr, encode i = encode j → i = j)

/-- Words written out from R116, one or two of each family, decode to the instructions they stand for. -/
def Obligations.SampleWordsDecode : Prop :=
  decode { w0 := 0x0102000000000000, a := 6, v := 7 } = .ok (.addRR 6 7) ∧
  decode { w0 := 0x0217000000000000, a := 0xA0000100, v := 0xA0000101 } = .ok (.rshiftMM 0xA0000100 0xA0000101) ∧
  decode { w0 := 0x031C000000000000, a := 0xA0000000, v := 0 } = .ok (.jitI 0xA0000000) ∧
  decode { w0 := 0x0023000000000000, a := 0, v := 0 } = .ok .ret ∧
  decode { w0 := 0x0228000000000000, a := 0xA0000100, v := 0 } = .ok (.popM 0xA0000100) ∧
  decode { w0 := 0x022E000000000000, a := 0xA0000100, v := 7 } = .ok (.storMI 0xA0000100 7) ∧
  decode { w0 := 0x0331000000000000, a := 3, v := 0 } = .ok (.intI 3) ∧
  decode { w0 := 0x0001000000000000, a := 0, v := 0 } = .ok .hlt

/-- R146, R147, R153: the assembler selects an instruction's own row from its mnemonic and operands, selects nothing
else but by the one pseudo-instruction `mov $d, imm`, and refuses an immediate destination of mov. -/
def Obligations.AssemblerSelectsTheRow : Prop :=
  (∀ i : Instr, selectInstr (mnemonicOf i) (operandsOf i) = .ok i) ∧
  (∀ (m : Mnemonic) (ops : List (OperandKind × Word)) (i : Instr), selectInstr m ops = .ok i →
    mnemonicOf i = m ∧ operandsOf i = ops ∨
    ∃ d x, m = .mov ∧ ops = [(.mem, d), (.imm, x)] ∧ i = .storMI d x) ∧
  (∀ (d x : Word) (k : OperandKind), selectInstr .mov [(.imm, d), (k, x)] = .error .noValidDestination)

/-- R145, R149, R150: a label's operand word is LABEL_BASE plus three words for every instruction before it, wherever
the reference stands; a name declared twice is an error. -/
def Obligations.LabelsNameTheirWords : Prop :=
  Config.defaults.labelBase = 0xA0000000 ∧
  (∀ (p : Params) (before rest : List Line) (name : String) (units : Units),
    collectUnits 0 [] (before ++ .label name :: rest) = .ok units →
    operandWord p units (.identifier name) = .ok (.mem, p.labelBase + BitVec.ofNat 64
      (3 * (before.filter (fun l => match l with | .label _ => false | .instruction _ _ => true)).length))) ∧
  (∀ (before between rest : List Line) (name : String),
    collectUnits 0 [] (before ++ .label name :: (between ++ .label name :: rest)) = .error .duplicateFunction)

/-! ## The bus and memory (20_memory.md) -/

namespace Sys2Proof.Claims

/-- What the bus hands on of a device's reply (R73, R74). -/
def busAnswer {α : Type} : DeviceReply α → BusResult α
  | .ok x => .ok x
  | .devError => .devError

/-- The state of device `id` is `d`, and nothing else has changed. -/
def onlyDevice (id : DeviceId) (d : DeviceState) (s t : State) : Prop :=
  deviceLookup t.devices id = d ∧ (∀ j, j ≠ id → deviceLookup t.devices j = deviceLookup s.devices j) ∧
  t = { s with devices := t.devices }

end Sys2Proof.Claims

/-- R72, R73 and R74: the first entry in registration order that contains the address answers, with the offset into it;
where none does, the answer is Unmapped and nothing changes. Where it is RAM's, a read answers with its word and
changes nothing, and a write answers Ok and changes only that word. Where it is a device's, a read or a write is one
call of that device with the offset, its answer is handed on as it is, and nothing changes but that device's state. -/
def Obligations.FirstMatchingRegionAnswers : Prop :=
  ∀ (rs : List Region) (a : Address),
    (∀ (r : Region) (off : Word), decodeAddress rs a = some (r, off) ↔
      ∃ k : Nat, rs[k]? = some r ∧ (r.start.toNat ≤ a.toNat ∧ a.toNat < r.stop.toNat) ∧ off = a - r.start ∧
        ∀ j < k, ∀ q : Region, rs[j]? = some q → ¬ (q.start.toNat ≤ a.toNat ∧ a.toNat < q.stop.toNat)) ∧
    (decodeAddress rs a = none ↔ ∀ q ∈ rs, ¬ (q.start.toNat ≤ a.toNat ∧ a.toNat < q.stop.toNat)) ∧
    (∀ (s : State) (w : Word), s.regions = rs → decodeAddress rs a = none →
      busRead s a = (.unmapped, s) ∧ busWrite s a w = (.unmapped, s)) ∧
    (∀ (s : State) (w : Word) (r : Region), s.regions = rs → decodeAddress rs a = some (r, a - r.start) →
      r.backing = .ram →
      busRead s a = (.ok (s.word a), s) ∧ ∃ t, busWrite s a w = (.ok (), t) ∧ setsWord a w s t) ∧
    (∀ (s : State) (w : Word) (r : Region) (id : DeviceId), s.regions = rs →
      decodeAddress rs a = some (r, a - r.start) → r.backing = .device id →
      (let (reply, d) := Config.deviceRead id (deviceLookup s.devices id) (a - r.start)
       ∃ t, busRead s a = (busAnswer reply, t) ∧ onlyDevice id d s t) ∧
      (let (reply, d) := Config.deviceWrite id (deviceLookup s.devices id) (a - r.start) w
       ∃ t, busWrite s a w = (busAnswer reply, t) ∧ onlyDevice id d s t))

/-- 20_memory.md section 3: RAM answers a read with the word most recently written there, and before any write with
RAM_INIT, which the model holds as a free value for each byte cell (log entries 1 and 2); a write never fails and
changes no other word; the default platform maps RAM at 0xA0000000 to 0xE0000000. -/
def Obligations.RamHoldsWhatWasWritten : Prop :=
  (∀ (s : State) (a : Address) (w : Word), isRam s a = true →
    ∃ t, busWrite s a w = (.ok (), t) ∧ busRead t a = (.ok w, t) ∧ onlyWord a s t ∧
      ∀ b, b ≠ a → isRam s b = true → busRead t b = (.ok (s.word b), t)) ∧
  (∀ (s : State) (a : Address), isRam s a = true → (∀ k, inWord a k → s.mem.read k = none) →
    busRead s a = (.ok (wordOfBytes ((List.range 8).map (fun k => Config.ramInit (8 * a.toNat + k)))), s)) ∧
  (∀ (p : Params) (ps : List DeviceId) (ds : List DeviceState) (a : Address),
    isRam (State.init p p.ramWindow ps ds) a = true ↔
      p.ramBase.toNat ≤ a.toNat ∧ a.toNat < (p.ramBase + p.ramSize).toNat) ∧
  (∀ a : Address, isRam State.reset a = true ↔ 0xA0000000 ≤ a.toNat ∧ a.toNat < 0xE0000000)

/-! ## Reset and the host (70_reset_and_hazards.md) -/

/-- R52: every reset value the rule gives to core state, after any reset that succeeds, with any parameters; and
`State.reset` is one on the default platform. -/
def Obligations.ResetValues : Prop :=
  (∀ (p : Params) (map : List Region) (ps : List DeviceId) (s t : State), driverReset p map ps s = (t, .ok ()) →
    (∀ r, t.reg r = if r = .sp then p.stackCapacity else 0) ∧
    (∀ r, t.saved.get r = 0) ∧
    t.stack.length = p.stackCapacity.toNat ∧ (∀ k, t.stackAt k = 0) ∧
    (∀ (k : Nat) (h : k < 6), t.ivt[k] = 0) ∧
    t.lastint = none ∧ t.running = true ∧ t.fatal = none ∧
    (∀ k, t.mem.read k = none ∧ t.mem.byteAt k = Config.ramInit k)) ∧
  Config.defaults.bankSlots = 10 ∧ Config.defaults.stackCapacity = 20 ∧ Config.defaults.ramBase = 0xA0000000 ∧
  Config.defaults.ramSize = 0x40000000 ∧ Config.defaults.ioBase = 0xA0000000 ∧
  Config.defaults.labelBase = 0xA0000000 ∧
  driverReset Config.defaults Config.defaults.ramWindow [] State.reset = (State.reset, .ok ())

/-- R350, R351, R71, R10: reset takes the parameters, the region list and the tick order as given. When no two entries
of the list have the same bounds, it calls the hook of every entry that is a device's, in order, on that device's
state, and sets all core state as `State.init` has it, whatever the state before, a fatal stop included; otherwise it
fails and the block takes no step. That a hook is called once for each entry (log entry 10) and that a failed reset
keeps the rest of the old state (log entry 5, not stated here) are the model's choices. -/
def Obligations.ResetRebuildsOrFails : Prop :=
  (∀ (p : Params) (map : List Region) (ps : List DeviceId) (s : State),
    (map.Pairwise (fun (r q : Region) => ¬ (r.start = q.start ∧ r.stop = q.stop)) →
      driverReset p map ps s = (State.init p map ps (resetDevices map s.devices), .ok ())) ∧
    (¬ map.Pairwise (fun (r q : Region) => ¬ (r.start = q.start ∧ r.stop = q.stop)) →
      ∃ t, driverReset p map ps s = (t, .error .alreadyMapped) ∧ step t = .next t)) ∧
  (∀ ds : List DeviceState, resetDevices [] ds = ds) ∧
  (∀ (r : Region) (rest : List Region) (ds : List DeviceState), r.backing = .ram →
    resetDevices (r :: rest) ds = resetDevices rest ds) ∧
  (∀ (r : Region) (rest : List Region) (ds : List DeviceState) (id : DeviceId), r.backing = .device id →
    ∃ es, resetDevices (r :: rest) ds = resetDevices rest es ∧
      ∀ j, deviceLookup es j = if j = id then Config.deviceReset id (deviceLookup ds id) else deviceLookup ds j)

/-- R93, R94, R84 for addresses that RAM answers or nothing does: a load writes each 8 bytes, most significant first, as
one word to consecutive addresses, and a dump reads the bytes back; a byte count that is no multiple of 8 is refused;
an unmapped word stops the load, and the words before it stay written. That addresses wrap and that the error carries
the number of the word are the model's reading (log entry 8). -/
def Obligations.LoadThenDumpGivesTheBytes : Prop :=
  ∀ (s : State) (base : Address) (bytes : List Byte) (n : Nat), bytes.length = 8 * n →
    ((∀ k < n, isRam s (base + BitVec.ofNat 64 k) = true) →
      ∃ t, driverLoad base bytes s = (t, .ok ()) ∧ driverDump base n t = (t, .ok bytes) ∧
        (∀ k < n, (t.word (base + BitVec.ofNat 64 k)).toNat =
          ((List.range 8).map fun j => (bytes[8 * k + j]?.getD 0).toNat * 2 ^ (8 * (7 - j))).sum) ∧
        regsKept [] s t ∧ stackKept s t ∧ controllerKept s t ∧ runKept s t ∧ busKept s t ∧
        ∀ c, (∀ k < n, ¬ inWord (base + BitVec.ofNat 64 k) c) → t.mem.read c = s.mem.read c) ∧
    (∀ j < n, (∀ k < j, isRam s (base + BitVec.ofNat 64 k) = true) →
      isUnmapped s (base + BitVec.ofNat 64 j) = true →
      ∃ t, driverLoad base bytes s = (t, .error (.transferFailed j)) ∧
        driverDump base j t = (t, .ok (bytes.take (8 * j)))) ∧
    (∀ extra : List Byte, 0 < extra.length → extra.length < 8 →
      driverLoad base (bytes ++ extra) s = (s, .error .badLength))

/-- 20_memory.md section 7 and 30_encoding.md section 6 (R93, R148, and R151, the spec's own inference): after the host
loads an assembled image into RAM, the three words of the k-th instruction stand at `base + 3 * k`, so a step that
starts there runs it. -/
def Obligations.LoadedImageIsWhatRuns : Prop :=
  ∀ (is : List Instr) (base : Address) (s : State),
    (∀ k < 3 * is.length, isRam s (base + BitVec.ofNat 64 k) = true) →
    ∃ t, driverLoad base (imageBytes is) s = (t, .ok ()) ∧
      ∀ (k : Nat) (h : k < is.length), base + BitVec.ofNat 64 (3 * k) ≠ 0 →
        fetchesRam (t.jumpTo (base + BitVec.ofNat 64 (3 * k))) (encode is[k])

/-- R371, R374: the host's peek and poke by flat index, its halt, its resume and its status. -/
def Obligations.HostOperations : Prop :=
  ∀ (i v : Word) (s : State),
    (∀ r, regOfIndex s.params i = some r → driverPeek i s = .ok (s.reg r) ∧
      ∃ t, driverPoke i v s = (t, .ok ()) ∧ setsReg r v s t) ∧
    (regCheck s.params i = false → driverPeek i s = .error .badIndex ∧ driverPoke i v s = (s, .error .badIndex)) ∧
    driverHalt s = { s with running := false } ∧
    (s.fatal = none → driverResume s = ({ s with running := true }, .ok ())) ∧
    (s.fatal ≠ none → driverResume s = (s, .error .stopped)) ∧
    driverStatus s = { running := s.running, fatal := s.fatal, lastint := s.lastint }

/-! ## The invariant -/

/-- The model's own invariant, over R71, R72 and R79: RAM's list of written cells keeps its canonical form, every
written cell lies in a word that RAM answers, the region list keeps its set-up rule, and the stack and the banks of
both register files keep their lengths. Every step keeps it, from any state that has it. -/
def Obligations.EveryStepKeepsTheInvariant : Prop :=
  ∀ s t : State, machineInv s → step s = .next t → machineInv t

/-- The invariant holds at reset, on the default platform and on any platform a reset accepts. -/
def Obligations.ResetHasTheInvariant : Prop :=
  machineInv State.reset ∧
  ∀ (p : Params) (map : List Region) (ps : List DeviceId) (s t : State),
    driverReset p map ps s = (t, .ok ()) → machineInv t
end

