-- ==== Sys2Proof/Laws/Entries.lean ====
section
/-! SUPPORT. Numbered entries: a write is read back, leaves every other entry alone, and keeps the length of a list
that has the entry. -/

namespace Sys2Proof.Machine

variable {α : Type} (d : α)

@[simp] theorem entryAt_nil (n : Nat) : entryAt d [] n = d := rfl

/-- Reading an entry after a write: the value written, or what was there before. -/
theorem entryAt_setEntry (l : List α) (n m : Nat) (x : α) :
    entryAt d (setEntry d l n x) m = if m = n then x else entryAt d l m := by
  induction n generalizing l m with
  | zero => cases l <;> cases m <;> simp [setEntry, entryAt]
  | succ n ih => cases l <;> cases m <;> simp [setEntry, entryAt, ih]

/-- Writing an entry the list has keeps its length. -/
theorem length_setEntry (l : List α) (n : Nat) (x : α) (h : n < l.length) : (setEntry d l n x).length = l.length := by
  induction n generalizing l with
  | zero => cases l <;> simp_all [setEntry]
  | succ n ih =>
    cases l with
    | nil => simp at h
    | cons y ys => simpa [setEntry] using ih ys (by simpa using h)

/-- The entries of a list of equal values. -/
@[simp] theorem entryAt_replicate (n m : Nat) : entryAt d (List.replicate n d) m = d := by
  induction n generalizing m with
  | zero => rfl
  | succ n ih => cases m <;> simp [List.replicate_succ, entryAt, ih]

end Sys2Proof.Machine
end

