-- ==== Sys2Proof/Laws/State.lean ====
section
/-! SUPPORT. One lemma per field per state update, true by definition. -/

namespace Sys2Proof.Machine

section setReg
variable (s : State) (r : Reg) (v : Word)

@[simp] theorem setReg_regs : (s.setReg r v).regs = s.regs.set r v := rfl
@[simp] theorem setReg_params : (s.setReg r v).params = s.params := rfl
@[simp] theorem setReg_saved : (s.setReg r v).saved = s.saved := rfl
@[simp] theorem setReg_stack : (s.setReg r v).stack = s.stack := rfl
@[simp] theorem setReg_ivt : (s.setReg r v).ivt = s.ivt := rfl
@[simp] theorem setReg_lastint : (s.setReg r v).lastint = s.lastint := rfl
@[simp] theorem setReg_running : (s.setReg r v).running = s.running := rfl
@[simp] theorem setReg_fatal : (s.setReg r v).fatal = s.fatal := rfl
@[simp] theorem setReg_mem : (s.setReg r v).mem = s.mem := rfl
@[simp] theorem setReg_regions : (s.setReg r v).regions = s.regions := rfl
@[simp] theorem setReg_peripherals : (s.setReg r v).peripherals = s.peripherals := rfl
@[simp] theorem setReg_devices : (s.setReg r v).devices = s.devices := rfl
@[simp] theorem setReg_setupFailed : (s.setReg r v).setupFailed = s.setupFailed := rfl

end setReg

section setDevice
variable (s : State) (id : DeviceId) (d : DeviceState)

@[simp] theorem setDevice_regs : (s.setDevice id d).regs = s.regs := rfl
@[simp] theorem setDevice_params : (s.setDevice id d).params = s.params := rfl
@[simp] theorem setDevice_saved : (s.setDevice id d).saved = s.saved := rfl
@[simp] theorem setDevice_stack : (s.setDevice id d).stack = s.stack := rfl
@[simp] theorem setDevice_ivt : (s.setDevice id d).ivt = s.ivt := rfl
@[simp] theorem setDevice_lastint : (s.setDevice id d).lastint = s.lastint := rfl
@[simp] theorem setDevice_running : (s.setDevice id d).running = s.running := rfl
@[simp] theorem setDevice_fatal : (s.setDevice id d).fatal = s.fatal := rfl
@[simp] theorem setDevice_mem : (s.setDevice id d).mem = s.mem := rfl
@[simp] theorem setDevice_regions : (s.setDevice id d).regions = s.regions := rfl
@[simp] theorem setDevice_peripherals : (s.setDevice id d).peripherals = s.peripherals := rfl
@[simp] theorem setDevice_devices : (s.setDevice id d).devices = deviceUpdate s.devices id d := rfl
@[simp] theorem setDevice_setupFailed : (s.setDevice id d).setupFailed = s.setupFailed := rfl

end setDevice

section jumpTo
variable (s : State) (a : Address)

@[simp] theorem jumpTo_regs : (s.jumpTo a).regs = { s.regs with pc := a } := rfl
@[simp] theorem jumpTo_params : (s.jumpTo a).params = s.params := rfl
@[simp] theorem jumpTo_saved : (s.jumpTo a).saved = s.saved := rfl
@[simp] theorem jumpTo_stack : (s.jumpTo a).stack = s.stack := rfl
@[simp] theorem jumpTo_ivt : (s.jumpTo a).ivt = s.ivt := rfl
@[simp] theorem jumpTo_lastint : (s.jumpTo a).lastint = s.lastint := rfl
@[simp] theorem jumpTo_running : (s.jumpTo a).running = s.running := rfl
@[simp] theorem jumpTo_fatal : (s.jumpTo a).fatal = s.fatal := rfl
@[simp] theorem jumpTo_mem : (s.jumpTo a).mem = s.mem := rfl
@[simp] theorem jumpTo_regions : (s.jumpTo a).regions = s.regions := rfl
@[simp] theorem jumpTo_peripherals : (s.jumpTo a).peripherals = s.peripherals := rfl
@[simp] theorem jumpTo_devices : (s.jumpTo a).devices = s.devices := rfl
@[simp] theorem jumpTo_setupFailed : (s.jumpTo a).setupFailed = s.setupFailed := rfl

end jumpTo

section dropTop
variable (s : State)

@[simp] theorem dropTop_regs : (s.dropTop).regs = { s.regs with sp := s.regs.sp + 1 } := rfl
@[simp] theorem dropTop_params : (s.dropTop).params = s.params := rfl
@[simp] theorem dropTop_saved : (s.dropTop).saved = s.saved := rfl
@[simp] theorem dropTop_stack : (s.dropTop).stack = s.stack := rfl
@[simp] theorem dropTop_ivt : (s.dropTop).ivt = s.ivt := rfl
@[simp] theorem dropTop_lastint : (s.dropTop).lastint = s.lastint := rfl
@[simp] theorem dropTop_running : (s.dropTop).running = s.running := rfl
@[simp] theorem dropTop_fatal : (s.dropTop).fatal = s.fatal := rfl
@[simp] theorem dropTop_mem : (s.dropTop).mem = s.mem := rfl
@[simp] theorem dropTop_regions : (s.dropTop).regions = s.regions := rfl
@[simp] theorem dropTop_peripherals : (s.dropTop).peripherals = s.peripherals := rfl
@[simp] theorem dropTop_devices : (s.dropTop).devices = s.devices := rfl
@[simp] theorem dropTop_setupFailed : (s.dropTop).setupFailed = s.setupFailed := rfl

end dropTop

section enterHandler
variable (s : State) (k : Kind)

@[simp] theorem enterHandler_regs :
    (enterHandler k s).regs = { s.regs with flags := flagsEnter s.regs.flags, pc := s.vector k } := rfl
@[simp] theorem enterHandler_params : (enterHandler k s).params = s.params := rfl
@[simp] theorem enterHandler_saved : (enterHandler k s).saved = s.regs := rfl
@[simp] theorem enterHandler_stack : (enterHandler k s).stack = s.stack := rfl
@[simp] theorem enterHandler_ivt : (enterHandler k s).ivt = s.ivt := rfl
@[simp] theorem enterHandler_lastint : (enterHandler k s).lastint = some k := rfl
@[simp] theorem enterHandler_running : (enterHandler k s).running = s.running := rfl
@[simp] theorem enterHandler_fatal : (enterHandler k s).fatal = s.fatal := rfl
@[simp] theorem enterHandler_mem : (enterHandler k s).mem = s.mem := rfl
@[simp] theorem enterHandler_regions : (enterHandler k s).regions = s.regions := rfl
@[simp] theorem enterHandler_peripherals : (enterHandler k s).peripherals = s.peripherals := rfl
@[simp] theorem enterHandler_devices : (enterHandler k s).devices = s.devices := rfl
@[simp] theorem enterHandler_setupFailed : (enterHandler k s).setupFailed = s.setupFailed := rfl

end enterHandler

section nestedFault
variable (s : State)

@[simp] theorem nestedFault_regs : (nestedFault s).regs = { s.regs with pc := s.vector .fault } := rfl
@[simp] theorem nestedFault_params : (nestedFault s).params = s.params := rfl
@[simp] theorem nestedFault_saved : (nestedFault s).saved = s.saved := rfl
@[simp] theorem nestedFault_stack : (nestedFault s).stack = s.stack := rfl
@[simp] theorem nestedFault_ivt : (nestedFault s).ivt = s.ivt := rfl
@[simp] theorem nestedFault_lastint : (nestedFault s).lastint = some .fault := rfl
@[simp] theorem nestedFault_running : (nestedFault s).running = s.running := rfl
@[simp] theorem nestedFault_fatal : (nestedFault s).fatal = s.fatal := rfl
@[simp] theorem nestedFault_mem : (nestedFault s).mem = s.mem := rfl
@[simp] theorem nestedFault_regions : (nestedFault s).regions = s.regions := rfl
@[simp] theorem nestedFault_peripherals : (nestedFault s).peripherals = s.peripherals := rfl
@[simp] theorem nestedFault_devices : (nestedFault s).devices = s.devices := rfl
@[simp] theorem nestedFault_setupFailed : (nestedFault s).setupFailed = s.setupFailed := rfl

end nestedFault

section stopFatal
variable (s : State) (reason : FatalReason)

@[simp] theorem stopFatal_regs : (stopFatal reason s).regs = s.regs := rfl
@[simp] theorem stopFatal_params : (stopFatal reason s).params = s.params := rfl
@[simp] theorem stopFatal_saved : (stopFatal reason s).saved = s.saved := rfl
@[simp] theorem stopFatal_stack : (stopFatal reason s).stack = s.stack := rfl
@[simp] theorem stopFatal_ivt : (stopFatal reason s).ivt = s.ivt := rfl
@[simp] theorem stopFatal_lastint : (stopFatal reason s).lastint = s.lastint := rfl
@[simp] theorem stopFatal_running : (stopFatal reason s).running = s.running := rfl
@[simp] theorem stopFatal_fatal : (stopFatal reason s).fatal = some reason := rfl
@[simp] theorem stopFatal_mem : (stopFatal reason s).mem = s.mem := rfl
@[simp] theorem stopFatal_regions : (stopFatal reason s).regions = s.regions := rfl
@[simp] theorem stopFatal_peripherals : (stopFatal reason s).peripherals = s.peripherals := rfl
@[simp] theorem stopFatal_devices : (stopFatal reason s).devices = s.devices := rfl
@[simp] theorem stopFatal_setupFailed : (stopFatal reason s).setupFailed = s.setupFailed := rfl

end stopFatal

section halt
variable (s : State)

@[simp] theorem halt_regs : (halt s).regs = s.regs := rfl
@[simp] theorem halt_params : (halt s).params = s.params := rfl
@[simp] theorem halt_saved : (halt s).saved = s.saved := rfl
@[simp] theorem halt_stack : (halt s).stack = s.stack := rfl
@[simp] theorem halt_ivt : (halt s).ivt = s.ivt := rfl
@[simp] theorem halt_lastint : (halt s).lastint = s.lastint := rfl
@[simp] theorem halt_running : (halt s).running = false := rfl
@[simp] theorem halt_fatal : (halt s).fatal = s.fatal := rfl
@[simp] theorem halt_mem : (halt s).mem = s.mem := rfl
@[simp] theorem halt_regions : (halt s).regions = s.regions := rfl
@[simp] theorem halt_peripherals : (halt s).peripherals = s.peripherals := rfl
@[simp] theorem halt_devices : (halt s).devices = s.devices := rfl
@[simp] theorem halt_setupFailed : (halt s).setupFailed = s.setupFailed := rfl

end halt

section advance
variable (s : State) (w : Word)

@[simp] theorem advance_regs : (advance w s).regs = { s.regs with ip := w, pc := s.regs.pc + 3 } := rfl
@[simp] theorem advance_params : (advance w s).params = s.params := rfl
@[simp] theorem advance_saved : (advance w s).saved = s.saved := rfl
@[simp] theorem advance_stack : (advance w s).stack = s.stack := rfl
@[simp] theorem advance_ivt : (advance w s).ivt = s.ivt := rfl
@[simp] theorem advance_lastint : (advance w s).lastint = s.lastint := rfl
@[simp] theorem advance_running : (advance w s).running = s.running := rfl
@[simp] theorem advance_fatal : (advance w s).fatal = s.fatal := rfl
@[simp] theorem advance_mem : (advance w s).mem = s.mem := rfl
@[simp] theorem advance_regions : (advance w s).regions = s.regions := rfl
@[simp] theorem advance_peripherals : (advance w s).peripherals = s.peripherals := rfl
@[simp] theorem advance_devices : (advance w s).devices = s.devices := rfl
@[simp] theorem advance_setupFailed : (advance w s).setupFailed = s.setupFailed := rfl

end advance

section registers
variable (s : State)

@[simp] theorem reg_flags : s.reg .flags = s.regs.flags := rfl
@[simp] theorem reg_tmp : s.reg .tmp = s.regs.tmp := rfl
@[simp] theorem reg_sp : s.reg .sp = s.regs.sp := rfl
@[simp] theorem reg_ip : s.reg .ip = s.regs.ip := rfl
@[simp] theorem reg_pc : s.reg .pc = s.regs.pc := rfl
@[simp] theorem reg_cycle : s.reg .cycle = s.regs.cycle := rfl

end registers

section afterReset
variable (p : Params) (map : List Region) (ps : List DeviceId) (ds : List DeviceState)

@[simp] theorem init_params : (State.init p map ps ds).params = p := rfl
@[simp] theorem init_regs : (State.init p map ps ds).regs = .reset p := rfl
@[simp] theorem init_saved : (State.init p map ps ds).saved = .zero p := rfl
@[simp] theorem init_stack : (State.init p map ps ds).stack = .replicate p.stackCapacity.toNat 0 := rfl
@[simp] theorem init_ivt : (State.init p map ps ds).ivt = .replicate Config.ivtSize 0 := rfl
@[simp] theorem init_lastint : (State.init p map ps ds).lastint = none := rfl
@[simp] theorem init_running : (State.init p map ps ds).running = true := rfl
@[simp] theorem init_fatal : (State.init p map ps ds).fatal = none := rfl
@[simp] theorem init_mem : (State.init p map ps ds).mem = [] := rfl
@[simp] theorem init_regions : (State.init p map ps ds).regions = map := rfl
@[simp] theorem init_peripherals : (State.init p map ps ds).peripherals = ps := rfl
@[simp] theorem init_devices : (State.init p map ps ds).devices = ds := rfl
@[simp] theorem init_setupFailed : (State.init p map ps ds).setupFailed = false := rfl

@[simp] theorem regFileReset_flags : (RegFile.reset p).flags = 0 := rfl
@[simp] theorem regFileReset_tmp : (RegFile.reset p).tmp = 0 := rfl
@[simp] theorem regFileReset_sp : (RegFile.reset p).sp = p.stackCapacity := rfl
@[simp] theorem regFileReset_ip : (RegFile.reset p).ip = 0 := rfl
@[simp] theorem regFileReset_pc : (RegFile.reset p).pc = 0 := rfl
@[simp] theorem regFileReset_cycle : (RegFile.reset p).cycle = 0 := rfl

end afterReset

end Sys2Proof.Machine
end

