-- ==== Sys2Proof/Laws/Memory.lean ====
section
/-! SUPPORT. RAM: read after write, and that every write keeps the canonical form. -/

namespace Sys2Proof.Machine

theorem Memory.read_write_same (m : Memory) (a : Nat) (b : Byte) : (m.write a b).read a = some b := by
  induction m with
  | nil => simp [Memory.write, Memory.read]
  | cons x rest ih =>
    obtain ⟨k, c⟩ := x
    unfold Memory.write
    split
    · simp [Memory.read]
    · split
      · simp [Memory.read]
      · have : k ≠ a := fun h => by omega
        simp [Memory.read, this, ih]

theorem Memory.read_write_other (m : Memory) (a k : Nat) (b : Byte) (h : k ≠ a) :
    (m.write a b).read k = m.read k := by
  induction m with
  | nil => simp [Memory.write, Memory.read, h.symm]
  | cons x rest ih =>
    obtain ⟨k', c⟩ := x
    unfold Memory.write
    split
    · simp [Memory.read, h.symm]
    · split
      · subst_vars; simp [Memory.read, h.symm]
      · simp [Memory.read, ih]

/-- A write adds no cell but the one it writes. -/
theorem Memory.mem_write (m : Memory) (a : Nat) (b : Byte) (c : Host.Cell) (h : c ∈ m.write a b) :
    c.1 = a ∨ c ∈ m := by
  induction m with
  | nil => simp [Memory.write] at h; simp [h]
  | cons x rest ih =>
    obtain ⟨k, d⟩ := x
    unfold Memory.write at h
    split at h
    · simp at h; grind
    · split at h
      · simp at h; grind
      · simp at h; grind

/-- A write keeps the addresses strictly rising. -/
theorem Memory.wf_write (m : Memory) (a : Nat) (b : Byte) (h : m.wf) : (m.write a b).wf := by
  induction m with
  | nil => simp [Memory.write, Memory.wf]
  | cons x rest ih =>
    obtain ⟨k, d⟩ := x
    simp only [Memory.wf, List.pairwise_cons] at h
    unfold Memory.write
    split
    · rename_i hlt
      simp only [Memory.wf, List.pairwise_cons, List.mem_cons]
      refine ⟨?_, h.1, h.2⟩
      rintro c (rfl | hc)
      · exact hlt
      · exact Nat.lt_trans hlt (h.1 c hc)
    · split
      · subst_vars
        simpa only [Memory.wf, List.pairwise_cons] using h
      · simp only [Memory.wf, List.pairwise_cons]
        refine ⟨fun c hc => ?_, ih h.2⟩
        rcases Memory.mem_write _ _ _ _ hc with hc | hc
        · omega
        · exact h.1 c hc

theorem Memory.wf_writeBytes (m : Memory) (k : Nat) (bs : List Byte) (h : m.wf) : (m.writeBytes k bs).wf := by
  induction bs generalizing m k with
  | nil => exact h
  | cons b bs ih => exact ih _ _ (Memory.wf_write m k b h)

theorem Memory.mem_writeBytes (m : Memory) (k : Nat) (bs : List Byte) (c : Host.Cell)
    (h : c ∈ m.writeBytes k bs) : (k ≤ c.1 ∧ c.1 < k + bs.length) ∨ c ∈ m := by
  induction bs generalizing m k with
  | nil => exact .inr h
  | cons b bs ih =>
    rcases ih _ _ h with h | h
    · left; simp; omega
    · rcases Memory.mem_write _ _ _ _ h with h | h
      · left; simp; omega
      · exact .inr h

theorem Memory.read_writeBytes_other (m : Memory) (k : Nat) (bs : List Byte) (j : Nat)
    (h : j < k ∨ k + bs.length ≤ j) : (m.writeBytes k bs).read j = m.read j := by
  induction bs generalizing m k with
  | nil => rfl
  | cons b bs ih =>
    simp only [List.length_cons] at h
    unfold Memory.writeBytes
    rw [ih _ _ (by omega), Memory.read_write_other _ _ _ _ (by omega)]

theorem Memory.readBytes_congr (m m' : Memory) (k n : Nat) (h : ∀ j, k ≤ j → j < k + n → m'.read j = m.read j) :
    m'.readBytes k n = m.readBytes k n := by
  induction n generalizing k with
  | zero => rfl
  | succ n ih =>
    simp only [Memory.readBytes, Memory.byteAt]
    rw [h k (by omega) (by omega), ih (k + 1) fun j h1 h2 => h j (by omega) (by omega)]

/-- Reading back the bytes just written. -/
theorem Memory.readBytes_writeBytes (m : Memory) (k : Nat) (bs : List Byte) :
    (m.writeBytes k bs).readBytes k bs.length = bs := by
  induction bs generalizing m k with
  | nil => rfl
  | cons b bs ih =>
    simp only [Memory.writeBytes, List.length_cons, Memory.readBytes, List.cons.injEq]
    refine ⟨?_, ih _ _⟩
    simp [Memory.byteAt, Memory.read_writeBytes_other _ _ _ _ (Or.inl (Nat.lt_succ_self k)),
      Memory.read_write_same]

end Sys2Proof.Machine

namespace Sys2Proof

@[simp] theorem wordBytes_length (w : Word) : (wordBytes w).length = 8 := rfl

/-- A word is what its serialized bytes stand for (R84). -/
@[simp] theorem wordOfBytes_wordBytes (w : Word) : wordOfBytes (wordBytes w) = w := by
  apply BitVec.eq_of_toNat_eq
  have h := w.isLt
  simp only [wordOfBytes, wordBytes, wordByte, List.foldl_cons, List.foldl_nil, BitVec.toNat_ofNat,
    BitVec.extractLsb'_toNat, Nat.shiftRight_eq_div_pow]
  norm_num
  omega

/-- Eight bytes are the serialization of the word they stand for (R84). -/
theorem wordBytes_wordOfBytes (b7 b6 b5 b4 b3 b2 b1 b0 : Byte) :
    wordBytes (wordOfBytes [b7, b6, b5, b4, b3, b2, b1, b0]) = [b7, b6, b5, b4, b3, b2, b1, b0] := by
  have h7 := b7.isLt
  have h6 := b6.isLt
  have h5 := b5.isLt
  have h4 := b4.isLt
  have h3 := b3.isLt
  have h2 := b2.isLt
  have h1 := b1.isLt
  have h0 := b0.isLt
  simp only [wordOfBytes, wordBytes, wordByte, List.foldl_cons, List.foldl_nil]
  simp only [List.cons.injEq, and_true]
  refine ⟨?_, ?_, ?_, ?_, ?_, ?_, ?_, ?_⟩ <;>
  · apply BitVec.eq_of_toNat_eq
    simp only [BitVec.toNat_ofNat, BitVec.extractLsb'_toNat, Nat.shiftRight_eq_div_pow]
    norm_num
    omega

end Sys2Proof

namespace Sys2Proof.Machine

theorem wordCell_inj (a b : Address) (h : wordCell a = wordCell b) : a = b := by
  apply BitVec.eq_of_toNat_eq
  simp only [wordCell] at h
  omega

/-- The cells of two different words are apart. -/
theorem inWord_unique (a b : Address) (k : Nat) (ha : inWord a k) (hb : inWord b k) : a = b := by
  apply BitVec.eq_of_toNat_eq
  simp only [inWord, wordCell] at ha hb
  omega

theorem Memory.wf_writeWord (m : Memory) (a : Address) (w : Word) (h : m.wf) : (m.writeWord a w).wf :=
  Memory.wf_writeBytes _ _ _ h

theorem Memory.mem_writeWord (m : Memory) (a : Address) (w : Word) (c : Host.Cell)
    (h : c ∈ m.writeWord a w) : inWord a c.1 ∨ c ∈ m := by
  rcases Memory.mem_writeBytes _ _ _ _ h with h | h
  · exact .inl ⟨h.1, by simpa using h.2⟩
  · exact .inr h

/-- A stored word changes no byte outside its own eight cells. -/
theorem Memory.read_writeWord_other (m : Memory) (a : Address) (w : Word) (k : Nat) (h : ¬ inWord a k) :
    (m.writeWord a w).read k = m.read k := by
  apply Memory.read_writeBytes_other
  simp only [inWord] at h
  simp only [wordBytes_length]
  omega

/-- A word reads back as it was stored (R79). -/
@[simp] theorem Memory.readWord_writeWord_same (m : Memory) (a : Address) (w : Word) :
    (m.writeWord a w).readWord a = w := by
  unfold Memory.readWord Memory.writeWord
  have h := Memory.readBytes_writeBytes m (wordCell a) (wordBytes w)
  rw [wordBytes_length] at h
  rw [h, wordOfBytes_wordBytes]

/-- A word depends on its own eight cells alone. -/
theorem Memory.readWord_congr (m m' : Memory) (a : Address) (h : ∀ k, inWord a k → m'.read k = m.read k) :
    m'.readWord a = m.readWord a := by
  unfold Memory.readWord
  rw [Memory.readBytes_congr m m' _ _ fun j h1 h2 => h j ⟨h1, h2⟩]

/-- A stored word leaves every other word alone (R79). -/
theorem Memory.readWord_writeWord_other (m : Memory) (a b : Address) (w : Word) (h : b ≠ a) :
    (m.writeWord a w).readWord b = m.readWord b :=
  Memory.readWord_congr _ _ _ fun k hk =>
    Memory.read_writeWord_other _ _ _ _ fun ha => h (inWord_unique b a k hk ha)

end Sys2Proof.Machine
end

