-- ==== Sys2Proof/Laws/Bus.lean ====
section
/-! SUPPORT. The bus: what each transaction can do. -/

namespace Sys2Proof.Machine

/-- An address is answered by RAM, by a device, or by nothing. -/
theorem address_cases (s : State) (a : Address) :
    isRam s a = true ∨ isUnmapped s a = true ∨
      ∃ r off id, decodeAddress s.regions a = some (r, off) ∧ r.backing = .device id := by
  unfold isRam isUnmapped
  rcases h : decodeAddress s.regions a with _ | ⟨r, off⟩
  · simp
  · rcases hb : r.backing with _ | id
    · simp [hb]
    · exact .inr (.inr ⟨r, off, id, rfl, hb⟩)

theorem isRam_congr (s t : State) (a : Address) (h : t.regions = s.regions) : isRam t a = isRam s a := by
  simp only [isRam, h]

theorem isUnmapped_congr (s t : State) (a : Address) (h : t.regions = s.regions) :
    isUnmapped t a = isUnmapped s a := by
  simp only [isUnmapped, h]

theorem isRam_not_unmapped (s : State) (a : Address) (h : isRam s a = true) : isUnmapped s a = false := by
  unfold isRam at h
  unfold isUnmapped
  split at h <;> simp_all

/-- RAM answers a read with its word and changes nothing (R79). -/
theorem busRead_ram (s : State) (a : Address) (h : isRam s a = true) : busRead s a = (.ok (s.word a), s) := by
  unfold isRam at h
  unfold busRead
  split at h
  · rename_i r off hd
    have hb : r.backing = .ram := by simpa using h
    simp [hd, hb, State.word]
  · simp at h

theorem busRead_unmapped (s : State) (a : Address) (h : isUnmapped s a = true) :
    busRead s a = (.unmapped, s) := by
  have : decodeAddress s.regions a = none := by simpa [isUnmapped] using h
  simp [busRead, this]

theorem busWrite_ram (s : State) (a : Address) (w : Word) (h : isRam s a = true) :
    busWrite s a w = (.ok (), { s with mem := s.mem.writeWord a w }) := by
  unfold isRam at h
  unfold busWrite
  split at h
  · rename_i r off hd
    have hb : r.backing = .ram := by simpa using h
    simp [hd, hb]
  · simp at h

theorem busWrite_unmapped (s : State) (a : Address) (w : Word) (h : isUnmapped s a = true) :
    busWrite s a w = (.unmapped, s) := by
  have : decodeAddress s.regions a = none := by simpa [isUnmapped] using h
  simp [busWrite, this]

/-- A device's state after an update is the one given, and no other device's changes (R50). -/
theorem deviceLookup_update (ds : List DeviceState) (id j : DeviceId) (d : DeviceState) :
    deviceLookup (deviceUpdate ds id d) j = if j = id then d else deviceLookup ds j :=
  entryAt_setEntry [] ds id j d

/-- A read changes nothing but a device's own state (R77, R83). -/
theorem busRead_state (s : State) (a : Address) : ∃ ds, (busRead s a).2 = { s with devices := ds } := by
  unfold busRead
  split
  · exact ⟨s.devices, rfl⟩
  · split
    · exact ⟨s.devices, rfl⟩
    · split <;> exact ⟨_, rfl⟩

/-- A write changes nothing but a device's own state, or the one word of RAM it stores (R74, R83). -/
theorem busWrite_state (s : State) (a : Address) (w : Word) :
    (∃ ds, (busWrite s a w).2 = { s with devices := ds }) ∨
      isRam s a = true ∧ busWrite s a w = (.ok (), { s with mem := s.mem.writeWord a w }) := by
  rcases address_cases s a with h | h | ⟨r, off, id, hd, hb⟩
  · exact .inr ⟨h, busWrite_ram s a w h⟩
  · left; exact ⟨s.devices, by rw [busWrite_unmapped s a w h]⟩
  · left
    unfold busWrite
    simp only [hd, hb]
    split <;> exact ⟨_, rfl⟩

/-- A read is unmapped exactly where no region contains the address (R72, R73). -/
theorem busRead_unmapped_iff (s : State) (a : Address) :
    (busRead s a).1 = .unmapped ↔ isUnmapped s a = true := by
  constructor
  · intro h
    rcases address_cases s a with hr | hu | ⟨r, off, id, hd, hb⟩
    · simp [busRead_ram s a hr] at h
    · exact hu
    · unfold busRead at h
      simp only [hd, hb] at h
      split at h <;> simp at h
  · intro h; rw [busRead_unmapped s a h]

/-- The decoder's answer contains the address, at its offset (R72). -/
theorem decodeAddress_contains (rs : List Region) (a : Address) (r : Region) (off : Word)
    (h : decodeAddress rs a = some (r, off)) : r ∈ rs ∧ regionContains r a = true ∧ off = a - r.start := by
  induction rs with
  | nil => simp [decodeAddress] at h
  | cons q rest ih =>
    unfold decodeAddress at h
    split at h
    · rename_i hq
      simp at h
      obtain ⟨rfl, rfl⟩ := h
      simp [hq]
    · have := ih h
      exact ⟨List.mem_cons_of_mem _ this.1, this.2⟩

end Sys2Proof.Machine
end

