-- ==== Sys2Proof/Laws/Registers.lean ====
section
/-! SUPPORT. Registers: read after write, and the numbering of R32 and R33. -/

namespace Sys2Proof.Machine

/-- Reading a register after a write: the value written, or what was there before. -/
theorem RegFile.get_set (x : RegFile) (r q : Reg) (v : Word) :
    (x.set r v).get q = if q = r then v else x.get q := by
  cases r <;> cases q <;> simp [RegFile.get, RegFile.set, entryAt_setEntry]

@[simp] theorem reg_setReg_same (s : State) (r : Reg) (v : Word) : (s.setReg r v).reg r = v := by
  simp [State.reg, RegFile.get_set]

theorem reg_setReg_other (s : State) (r q : Reg) (v : Word) (h : q ≠ r) : (s.setReg r v).reg q = s.reg q := by
  simp [State.reg, RegFile.get_set, h]

/-- Writing a register that an index names keeps a file's shape (R32). -/
theorem RegFile.shaped_set (p : Params) (x : RegFile) (i : RegIndex) (r : Reg) (v : Word) (h : x.shaped p)
    (hr : regOfIndex p i = some r) : (x.set r v).shaped p := by
  have hs : ∀ n, r = .data n ∨ r = .index n ∨ r = .addr n ∨ r = .ptr n → n < p.bankSlots := by
    intro n hn
    unfold regOfIndex bankReg at hr
    split at hr
    all_goals try (cases hr; simp at hn)
    split at hr
    · split at hr <;> cases hr <;> simp at hn <;> omega
    · simp at hr
  obtain ⟨h1, h2, h3, h4⟩ := h
  cases r <;> simp only [RegFile.set, RegFile.shaped, h1, h2, h3, h4, true_and, and_true]
  case data n => rw [length_setEntry _ _ _ _ (by rw [h1]; exact hs n (by simp)), h1]
  case index n => rw [length_setEntry _ _ _ _ (by rw [h2]; exact hs n (by simp)), h2]
  case addr n => rw [length_setEntry _ _ _ _ (by rw [h3]; exact hs n (by simp)), h3]
  case ptr n => rw [length_setEntry _ _ _ _ (by rw [h4]; exact hs n (by simp)), h4]

end Sys2Proof.Machine

namespace Sys2Proof

/-- The index of a slot names that slot, where the bank has it and the index fits a word (R32; log entry 14). -/
theorem regOfIndex_bankIndex (p : Params) (b s : Nat) (hs : s < p.bankSlots)
    (hw : 6 + (p.bankSlots + 1) * b + s < 2 ^ 64) : regOfIndex p (bankIndex p b s) = bankReg b s := by
  have hn : (bankIndex p b s).toNat = ((p.bankSlots + 1) * b + s) + 6 := by
    simp only [bankIndex, BitVec.toNat_ofNat]
    rw [Nat.mod_eq_of_lt hw]; omega
  have hm : ((p.bankSlots + 1) * b + s) % (p.bankSlots + 1) = s := by
    rw [Nat.mul_add_mod, Nat.mod_eq_of_lt (by omega)]
  have hd : ((p.bankSlots + 1) * b + s) / (p.bankSlots + 1) = b := by
    rw [Nat.mul_add_div (by omega), Nat.div_eq_of_lt (by omega), Nat.add_zero]
  unfold regOfIndex
  rw [hn]
  simp only [hm, hd, hs, if_true]

/-- An index that names a register is that register's index: no register has two (R32, R35). -/
theorem regIndex_of_regOfIndex (p : Params) (i : RegIndex) (r : Reg) (h : regOfIndex p i = some r) :
    regIndex p r = i := by
  have hw := i.isLt
  unfold regOfIndex at h
  split at h
  case h_7 n hn =>
    have hdm := Nat.div_add_mod n (p.bankSlots + 1)
    split at h
    · have key : ∀ b, n / (p.bankSlots + 1) = b → bankIndex p b (n % (p.bankSlots + 1)) = i := by
        rintro b rfl
        apply BitVec.eq_of_toNat_eq
        rw [bankIndex, BitVec.toNat_ofNat, Nat.mod_eq_of_lt (by omega)]; omega
      unfold bankReg at h
      split at h <;> cases h <;> exact key _ ‹_›
    · simp at h
  all_goals (cases h; apply BitVec.eq_of_toNat_eq; simp [regIndex]; omega)

end Sys2Proof
end

