-- ==== Sys2Proof/Laws/Ops.lean ====
section
/-! SUPPORT. What each shared operation can do, said once. -/

namespace Sys2Proof.Machine

section raising
variable (k : Kind) (s : State)

/-- The two cases of taking an interrupt (R310, R311). -/
theorem raise_cases :
    s.handling = true ∧ raise k s = nestedFault s ∨ s.handling = false ∧ raise k s = enterHandler k s := by
  unfold raise
  split <;> simp_all

theorem raise_handling (h : s.handling = true) : raise k s = nestedFault s := by simp [raise, h]

theorem raise_idle (h : s.handling = false) : raise k s = enterHandler k s := by simp [raise, h]

@[simp] theorem raise_params : (raise k s).params = s.params := by unfold raise; split <;> rfl
@[simp] theorem raise_stack : (raise k s).stack = s.stack := by unfold raise; split <;> rfl
@[simp] theorem raise_ivt : (raise k s).ivt = s.ivt := by unfold raise; split <;> rfl
@[simp] theorem raise_running : (raise k s).running = s.running := by unfold raise; split <;> rfl
@[simp] theorem raise_fatal : (raise k s).fatal = s.fatal := by unfold raise; split <;> rfl
@[simp] theorem raise_mem : (raise k s).mem = s.mem := by unfold raise; split <;> rfl
@[simp] theorem raise_regions : (raise k s).regions = s.regions := by unfold raise; split <;> rfl
@[simp] theorem raise_peripherals : (raise k s).peripherals = s.peripherals := by unfold raise; split <;> rfl
@[simp] theorem raise_devices : (raise k s).devices = s.devices := by unfold raise; split <;> rfl
@[simp] theorem raise_setupFailed : (raise k s).setupFailed = s.setupFailed := by unfold raise; split <;> rfl

/-- Taking an interrupt writes no register but `pc` and `flags` (R310). -/
theorem raise_reg (r : Reg) (hp : r ≠ .pc) (hf : r ≠ .flags) : (raise k s).reg r = s.reg r := by
  unfold raise
  split <;> cases r <;> simp_all [State.reg, RegFile.get, enterHandler, nestedFault]

end raising

/-- The three cases of INT's raise (R270). -/
theorem raiseCode_cases (k : Word) (s : State) :
    s.handling = true ∧ raiseCode k s = nestedFault s ∨
    (∃ kind, s.handling = false ∧ kindOfCode k = some kind ∧ raiseCode k s = enterHandler kind s) ∨
    s.handling = false ∧ kindOfCode k = none ∧ raiseCode k s = stopFatal .badKind s := by
  unfold raiseCode
  by_cases h : s.handling = true
  · exact .inl ⟨h, by simp [h]⟩
  · have h' : s.handling = false := by simpa using h
    cases hk : kindOfCode k with
    | none => right; right; simp [h']
    | some kind => right; left; exact ⟨kind, h', rfl, by simp [h']⟩

/-- A kind value names a kind exactly when it is below 6 (R300). -/
theorem kindOfCode_isSome_iff (k : Word) : (kindOfCode k).isSome = true ↔ k.toNat < 6 := by
  unfold kindOfCode
  split <;> (simp_all; try omega)

/-- A valid register operand goes on with its register. -/
theorem withReg_valid (i : RegIndex) (s : State) (next : Reg → State) (r : Reg) (h : regOfIndex s.params i = some r) :
    withReg i s next = next r := by
  simp [withReg, h]

/-- An invalid register operand raises BADADDR (R33). -/
theorem withReg_invalid (i : RegIndex) (s : State) (next : Reg → State) (h : regCheck s.params i = false) :
    withReg i s next = raise .badAddr s := by
  have : regOfIndex s.params i = none := by simpa [regCheck] using h
  simp [withReg, this]

/-- What a register operand can come to. -/
theorem withReg_elim {P : State → Prop} (i : RegIndex) (s : State) (next : Reg → State)
    (hraise : regCheck s.params i = false → P (raise .badAddr s))
    (hnext : ∀ r, regOfIndex s.params i = some r → P (next r)) : P (withReg i s next) := by
  rcases h : regOfIndex s.params i with _ | r
  · have hc : regCheck s.params i = false := by simp [regCheck, h]
    rw [withReg_invalid i s next hc]; exact hraise hc
  · rw [withReg_valid i s next r h]; exact hnext r h

/-- A read of RAM goes on with its word and the same state (R79). -/
theorem memRead_ram (a : Address) (s : State) (next : Word → State → State) (h : isRam s a = true) :
    memRead a s next = next (s.word a) s := by
  simp [memRead, busRead_ram s a h]

/-- A read of an unmapped address raises BADADDR (R75). -/
theorem memRead_unmapped (a : Address) (s : State) (next : Word → State → State)
    (h : isUnmapped s a = true) : memRead a s next = raise .badAddr s := by
  simp [memRead, busRead_unmapped s a h]

/-- What a read can come to: it raises at an unmapped address, stops, or goes on, with nothing changed but device
states. -/
theorem memRead_elim {P : State → Prop} (a : Address) (s : State) (next : Word → State → State)
    (hraise : isUnmapped s a = true → P (raise .badAddr s))
    (hstop : ∀ ds, P (stopFatal .device { s with devices := ds }))
    (hnext : ∀ w ds, busRead s a = (.ok w, { s with devices := ds }) → P (next w { s with devices := ds })) :
    P (memRead a s next) := by
  obtain ⟨ds, hds⟩ := busRead_state s a
  rcases h : isUnmapped s a
  · have hu := busRead_unmapped_iff s a
    unfold memRead
    split <;> (rename_i w t hb; rw [hb] at hds hu; subst hds)
    · exact hnext _ _ hb
    · simp [h] at hu
    · exact hstop _
  · rw [memRead_unmapped a s next h]; exact hraise h

/-- A write to RAM goes on with the word stored (R79). -/
theorem memWrite_ram (a : Address) (w : Word) (s : State) (next : State → State) (h : isRam s a = true) :
    memWrite a w s next = next { s with mem := s.mem.writeWord a w } := by
  simp [memWrite, busWrite_ram s a w h]

/-- A write to an unmapped address raises BADADDR (R75). -/
theorem memWrite_unmapped (a : Address) (w : Word) (s : State) (next : State → State)
    (h : isUnmapped s a = true) : memWrite a w s next = raise .badAddr s := by
  simp [memWrite, busWrite_unmapped s a w h]

/-- What a write can come to. -/
theorem memWrite_elim {P : State → Prop} (a : Address) (w : Word) (s : State) (next : State → State)
    (hraise : isUnmapped s a = true → P (raise .badAddr s))
    (hstop : ∀ ds, P (stopFatal .device { s with devices := ds }))
    (hdevice : ∀ ds, P (next { s with devices := ds }))
    (hram : isRam s a = true → P (next { s with mem := s.mem.writeWord a w })) : P (memWrite a w s next) := by
  rcases address_cases s a with hr | hu | ⟨r, off, id, hd, hb⟩
  · rw [memWrite_ram a w s next hr]; exact hram hr
  · rw [memWrite_unmapped a w s next hu]; exact hraise hu
  · rw [memWrite, busWrite]
    simp only [hd, hb]
    rcases Config.deviceWrite id (deviceLookup s.devices id) off w with ⟨_ | _, d⟩
    · exact hdevice _
    · exact hstop _

/-- What a push can come to (R230). -/
theorem push_elim {P : State → Prop} (v : Word) (s : State) (next : State → State)
    (hfull : s.stackFull = true → P (raise .stackOverflow s))
    (hnext : s.stackFull = false → P (next { s with
      regs := { s.regs with sp := s.regs.sp - 1 }
      stack := setEntry 0 s.stack (s.regs.sp - 1).toNat v })) : P (push v s next) := by
  unfold push
  split
  · exact hfull ‹_›
  · rename_i h
    exact hnext (Bool.eq_false_of_not_eq_true h)

/-- What a pop can come to (R231). -/
theorem pop_elim {P : State → Prop} (s : State) (next : Word → State)
    (hempty : s.stackEmpty = true → P (raise .stackOverflow s))
    (hnext : s.stackEmpty = false → P (next (s.stackAt s.regs.sp.toNat))) : P (pop s next) := by
  unfold pop
  split
  · exact hempty ‹_›
  · rename_i h
    exact hnext (Bool.eq_false_of_not_eq_true h)

/-- What loading the table can come to (R280). -/
theorem loadTable_elim {P : State → Prop} (b : Address) (s : State)
    (hraise : ∀ k < 6, isUnmapped s (b + BitVec.ofNat 64 k) = true → ∀ ds, P (raise .badAddr { s with devices := ds }))
    (hstop : ∀ ds, P (stopFatal .device { s with devices := ds }))
    (hload : ∀ ds ivt, P { s with devices := ds, ivt := ivt }) : P (loadTable b s) := by
  unfold loadTable
  refine memRead_elim b s _ (fun h => hraise 0 (by decide) (by simpa using h) s.devices) hstop fun e0 d0 _ => ?_
  refine memRead_elim _ _ _ (fun h => hraise 1 (by decide) h d0) (fun d => hstop d) fun e1 d1 _ => ?_
  refine memRead_elim _ _ _ (fun h => hraise 2 (by decide) h d1) (fun d => hstop d) fun e2 d2 _ => ?_
  refine memRead_elim _ _ _ (fun h => hraise 3 (by decide) h d2) (fun d => hstop d) fun e3 d3 _ => ?_
  refine memRead_elim _ _ _ (fun h => hraise 4 (by decide) h d3) (fun d => hstop d) fun e4 d4 _ => ?_
  refine memRead_elim _ _ _ (fun h => hraise 5 (by decide) h d4) (fun d => hstop d) fun e5 d5 _ => ?_
  exact hload d5 #v[e0, e1, e2, e3, e4, e5]

/-- What a value operand can come to (R120). -/
theorem valueOperand_elim {P : State → Prop} (kind : OperandKind) (w : Word) (s : State)
    (next : Word → State → State)
    (hindex : kind = .reg → regCheck s.params w = false → P (raise .badAddr s))
    (hunmapped : kind = .mem → isUnmapped s w = true → P (raise .badAddr s))
    (hstop : kind = .mem → ∀ ds, P (stopFatal .device { s with devices := ds }))
    (hnext : ∀ v ds, operandValue s (kind, w) = some v → P (next v { s with devices := ds })) :
    P (valueOperand kind w s next) := by
  cases kind with
  | reg => exact withReg_elim w s _ (hindex rfl) fun r h => hnext _ s.devices (by simp [operandValue, h])
  | mem => exact memRead_elim w s _ (hunmapped rfl) (hstop rfl) fun v ds h => hnext v ds (by simp [operandValue, h])
  | imm => exact hnext w s.devices rfl

/-- What a location operand can come to (R121). -/
theorem locationOperand_elim {P : State → Prop} (kind : OperandKind) (w : Word) (s : State)
    (next : Word → State) (hindex : kind = .reg → regCheck s.params w = false → P (raise .badAddr s))
    (hnext : ∀ v, operandLocation s (kind, w) = some v → P (next v)) :
    P (locationOperand kind w s next) := by
  cases kind with
  | reg => exact withReg_elim w s _ (hindex rfl) fun r h => hnext _ (by simp [operandLocation, h])
  | mem => exact hnext w rfl
  | imm => exact hnext w rfl

/-- What a register-form operation can come to (R160). -/
theorem aluR_elim {P : State → Prop} (f : Word → Word → Option Word) (rd rs : RegIndex) (s : State)
    (hindex : regCheck s.params rd = false ∨ regCheck s.params rs = false → P (raise .badAddr s))
    (hnone : ∀ d r, regOfIndex s.params rd = some d → regOfIndex s.params rs = some r →
      f (s.reg d) (s.reg r) = none → P (raise .divByZero s))
    (hset : ∀ d w, regOfIndex s.params rd = some d → P (s.setReg d w)) : P (aluR f rd rs s) := by
  refine withReg_elim rd s _ (fun h => hindex (.inl h)) fun d hd =>
    withReg_elim rs s _ (fun h => hindex (.inr h)) fun r hr => ?_
  split
  · exact hset d _ hd
  · exact hnone d r hd hr ‹_›

/-- What a memory-form operation can come to (R161). -/
theorem aluM_elim {P : State → Prop} (f : Word → Word → Option Word) (dst src : Address) (s : State)
    (hunmapped : isUnmapped s dst = true ∨ isUnmapped s src = true →
      ∀ ds, P (raise .badAddr { s with devices := ds }))
    (hnone : ∀ a b ds es, busRead s dst = (.ok a, { s with devices := ds }) →
      busRead { s with devices := ds } src = (.ok b, { s with devices := es }) → f a b = none →
      P (raise .divByZero { s with devices := es }))
    (hstop : ∀ ds, P (stopFatal .device { s with devices := ds }))
    (hdevice : ∀ ds, P { s with devices := ds })
    (hram : isRam s dst = true → ∀ w ds, P { s with devices := ds, mem := s.mem.writeWord dst w }) :
    P (aluM f dst src s) := by
  refine memRead_elim dst s _ (fun h => hunmapped (.inl h) s.devices) hstop fun a d0 ha => ?_
  refine memRead_elim src _ _ (fun h => hunmapped (.inr h) d0) (fun d => hstop d) fun b d1 hb => ?_
  split
  · refine memWrite_elim dst _ _ _ (fun h => hunmapped (.inl h) d1) (fun d => hstop d) (fun d => hdevice d) fun h => ?_
    exact hram (by simpa [isRam] using h) _ d1
  · exact hnone a b d0 d1 ha hb ‹_›

/-- Returning, in the two states of the controller (R313). -/
theorem interruptReturn_cases (s : State) :
    s.handling = true ∧ interruptReturn s = { s with regs := { s.saved with flags := flagsLeave s.saved.flags } } ∨
    s.handling = false ∧ interruptReturn s = enterHandler .fault s := by
  unfold interruptReturn
  by_cases h : s.handling = true
  · simp [h]
  · have h' : s.handling = false := by simpa using h
    simp [h', raise_idle]

end Sys2Proof.Machine
end

