-- ==== Sys2Proof/Laws/Cycle.lean ====
section
/-! SUPPORT. The phases of a step around execution. -/

namespace Sys2Proof.Machine

section booting
variable (s : State)

@[simp] theorem boot_params : (boot s).params = s.params := by unfold boot; split <;> rfl
@[simp] theorem boot_saved : (boot s).saved = s.saved := by unfold boot; split <;> rfl
@[simp] theorem boot_stack : (boot s).stack = s.stack := by unfold boot; split <;> rfl
@[simp] theorem boot_ivt : (boot s).ivt = s.ivt := by unfold boot; split <;> rfl
@[simp] theorem boot_lastint : (boot s).lastint = s.lastint := by unfold boot; split <;> rfl
@[simp] theorem boot_running : (boot s).running = s.running := by unfold boot; split <;> rfl
@[simp] theorem boot_fatal : (boot s).fatal = s.fatal := by unfold boot; split <;> rfl
@[simp] theorem boot_mem : (boot s).mem = s.mem := by unfold boot; split <;> rfl
@[simp] theorem boot_regions : (boot s).regions = s.regions := by unfold boot; split <;> rfl
@[simp] theorem boot_peripherals : (boot s).peripherals = s.peripherals := by unfold boot; split <;> rfl
@[simp] theorem boot_devices : (boot s).devices = s.devices := by unfold boot; split <;> rfl
@[simp] theorem boot_setupFailed : (boot s).setupFailed = s.setupFailed := by unfold boot; split <;> rfl

end booting

/-- What one fetch read can come to (R132). -/
theorem fetchWord_elim {P : Fetched → Prop} (a : Address) (s : State) (next : Word → State → Fetched)
    (hraise : ∀ ds, P (.raised (raise .badAddr { s with devices := ds })))
    (hstop : ∀ ds, P (.stopped (stopFatal .device { s with devices := ds })))
    (hnext : ∀ w ds, P (next w { s with devices := ds })) : P (fetchWord a s next) := by
  obtain ⟨ds, hds⟩ := busRead_state s a
  unfold fetchWord
  split <;> (rename_i w t hb; rw [hb] at hds; subst hds)
  · exact hnext _ _
  all_goals first | exact hraise _ | exact hstop _

/-- What the fetch can come to: nothing but device states has changed when the words are there (R132). -/
theorem fetch_elim {P : Fetched → Prop} (s : State)
    (hraise : ∀ ds, P (.raised (raise .badAddr { s with devices := ds })))
    (hstop : ∀ ds, P (.stopped (stopFatal .device { s with devices := ds })))
    (hwords : ∀ t ds, P (.words t { s with devices := ds })) : P (fetch s) := by
  unfold fetch
  refine fetchWord_elim _ s _ hraise hstop fun w0 d0 => ?_
  refine fetchWord_elim _ _ _ (fun d => hraise d) (fun d => hstop d) fun a d1 => ?_
  refine fetchWord_elim _ _ _ (fun d => hraise d) (fun d => hstop d) fun v d2 => ?_
  exact hwords _ d2

/-- The three things a fetch can come to (R132). -/
theorem fetch_cases (s : State) :
    (∃ ds, fetch s = .raised (raise .badAddr { s with devices := ds })) ∨
    (∃ ds, fetch s = .stopped (stopFatal .device { s with devices := ds })) ∨
    (∃ w ds, fetch s = .words w { s with devices := ds }) :=
  fetch_elim (P := fun f => (∃ ds, f = .raised (raise .badAddr { s with devices := ds })) ∨
      (∃ ds, f = .stopped (stopFatal .device { s with devices := ds })) ∨
      (∃ w ds, f = .words w { s with devices := ds })) s
    (fun ds => .inl ⟨ds, rfl⟩) (fun ds => .inr (.inl ⟨ds, rfl⟩)) (fun w ds => .inr (.inr ⟨w, ds, rfl⟩))

/-- A fetch from RAM reads the three words and changes nothing (R79, R132). -/
theorem fetch_ram (s : State) (h0 : isRam s s.regs.pc = true) (h1 : isRam s (s.regs.pc + 1) = true)
    (h2 : isRam s (s.regs.pc + 2) = true) :
    fetch s = .words { w0 := s.word s.regs.pc, a := s.word (s.regs.pc + 1), v := s.word (s.regs.pc + 2) } s := by
  simp only [fetch, fetchWord, busRead_ram s _ h0, busRead_ram s _ h1, busRead_ram s _ h2]

section ticking
variable (id : DeviceId) (ids : List DeviceId) (s : State)

/-- What a tick can come to (R136). -/
theorem tickDevice_elim {P : State → Prop} (hquiet : ∀ d, P (s.setDevice id d))
    (hraise : ∀ k d, P (raise k (s.setDevice id d))) : P (tickDevice id s) := by
  unfold tickDevice
  split
  · exact hquiet _
  · exact hraise _ _

@[simp] theorem tickDevice_params : (tickDevice id s).params = s.params := by unfold tickDevice; split <;> simp
@[simp] theorem tickDevice_stack : (tickDevice id s).stack = s.stack := by unfold tickDevice; split <;> simp
@[simp] theorem tickDevice_ivt : (tickDevice id s).ivt = s.ivt := by unfold tickDevice; split <;> simp
@[simp] theorem tickDevice_running : (tickDevice id s).running = s.running := by unfold tickDevice; split <;> simp
@[simp] theorem tickDevice_fatal : (tickDevice id s).fatal = s.fatal := by unfold tickDevice; split <;> simp
@[simp] theorem tickDevice_mem : (tickDevice id s).mem = s.mem := by unfold tickDevice; split <;> simp
@[simp] theorem tickDevice_regions : (tickDevice id s).regions = s.regions := by unfold tickDevice; split <;> simp
@[simp] theorem tickDevice_peripherals : (tickDevice id s).peripherals = s.peripherals := by
  unfold tickDevice; split <;> simp
@[simp] theorem tickDevice_setupFailed : (tickDevice id s).setupFailed = s.setupFailed := by
  unfold tickDevice; split <;> simp

/-- A tick writes no register but `pc` and `flags` (R310, R311). -/
theorem tickDevice_reg (r : Reg) (hp : r ≠ .pc) (hf : r ≠ .flags) : (tickDevice id s).reg r = s.reg r := by
  unfold tickDevice
  split
  · rfl
  · rw [raise_reg _ _ r hp hf]; rfl

/-- A property that every tick keeps holds after the tick phase. -/
theorem tickAll_keeps {P : State → Prop} (hstep : ∀ i t, P t → P (tickDevice i t)) (h : P s) :
    P (tickAll ids s) := by
  induction ids generalizing s with
  | nil => exact h
  | cons i rest ih => exact ih _ (hstep i s h)

@[simp] theorem tickAll_params : (tickAll ids s).params = s.params :=
  tickAll_keeps ids s (P := fun t => t.params = s.params) (fun i t h => by simp [h]) rfl
@[simp] theorem tickAll_stack : (tickAll ids s).stack = s.stack :=
  tickAll_keeps ids s (P := fun t => t.stack = s.stack) (fun i t h => by simp [h]) rfl
@[simp] theorem tickAll_ivt : (tickAll ids s).ivt = s.ivt :=
  tickAll_keeps ids s (P := fun t => t.ivt = s.ivt) (fun i t h => by simp [h]) rfl
@[simp] theorem tickAll_running : (tickAll ids s).running = s.running :=
  tickAll_keeps ids s (P := fun t => t.running = s.running) (fun i t h => by simp [h]) rfl
@[simp] theorem tickAll_fatal : (tickAll ids s).fatal = s.fatal :=
  tickAll_keeps ids s (P := fun t => t.fatal = s.fatal) (fun i t h => by simp [h]) rfl
@[simp] theorem tickAll_mem : (tickAll ids s).mem = s.mem :=
  tickAll_keeps ids s (P := fun t => t.mem = s.mem) (fun i t h => by simp [h]) rfl
@[simp] theorem tickAll_regions : (tickAll ids s).regions = s.regions :=
  tickAll_keeps ids s (P := fun t => t.regions = s.regions) (fun i t h => by simp [h]) rfl
@[simp] theorem tickAll_peripherals : (tickAll ids s).peripherals = s.peripherals :=
  tickAll_keeps ids s (P := fun t => t.peripherals = s.peripherals) (fun i t h => by simp [h]) rfl
@[simp] theorem tickAll_setupFailed : (tickAll ids s).setupFailed = s.setupFailed :=
  tickAll_keeps ids s (P := fun t => t.setupFailed = s.setupFailed) (fun i t h => by simp [h]) rfl

/-- The tick phase writes no register but `pc` and `flags`. -/
theorem tickAll_reg (r : Reg) (hp : r ≠ .pc) (hf : r ≠ .flags) : (tickAll ids s).reg r = s.reg r :=
  tickAll_keeps ids s (P := fun t => t.reg r = s.reg r)
    (fun i t h => by rw [tickDevice_reg i t r hp hf, h]) rfl

end ticking

section ending
variable (s : State)

@[simp] theorem endStep_params : (endStep s).params = s.params := by simp [endStep]
@[simp] theorem endStep_stack : (endStep s).stack = s.stack := by simp [endStep]
@[simp] theorem endStep_ivt : (endStep s).ivt = s.ivt := by simp [endStep]
@[simp] theorem endStep_running : (endStep s).running = s.running := by simp [endStep]
@[simp] theorem endStep_fatal : (endStep s).fatal = s.fatal := by simp [endStep]
@[simp] theorem endStep_mem : (endStep s).mem = s.mem := by simp [endStep]
@[simp] theorem endStep_regions : (endStep s).regions = s.regions := by simp [endStep]
@[simp] theorem endStep_peripherals : (endStep s).peripherals = s.peripherals := by simp [endStep]
@[simp] theorem endStep_setupFailed : (endStep s).setupFailed = s.setupFailed := by simp [endStep]

/-- The cycle count of a step that is not fatal (R137). -/
theorem endStep_cycle : (endStep s).regs.cycle = s.regs.cycle + 1 := by
  have h := tickAll_reg s.peripherals s .cycle (by decide) (by decide)
  simp only [reg_cycle] at h
  simp [endStep, h]

/-- With no peripheral, the end of a step is the cycle count alone (R137). -/
theorem endStep_quiet (h : s.peripherals = []) :
    endStep s = { s with regs := { s.regs with cycle := s.regs.cycle + 1 } } := by
  simp [endStep, h, tickAll]

end ending

end Sys2Proof.Machine
end

