-- ==== Sys2Proof/Laws/Decode.lean ====
section
/-! SUPPORT. The decoder and the encoder: each row's triplet decodes to its instruction, whatever its operand words. -/

namespace Sys2Proof

/-- The opcode table's rows have distinct opcode numbers (R116). -/
theorem opcodeTable_nodup : (opcodeTable.map OpcodeRow.opc).Nodup := by decide

/-- What decodes is one row's word 0: no other (R125, R127). -/
theorem decodeRow_ok (w0 : Word) (row : OpcodeRow) (h : decodeRow w0 = .ok row) :
    w0.extractLsb' 0 48 = 0 ∧ row ∈ opcodeTable ∧ row.opc = wordByte w0 6 ∧ tagCode row.tag = wordByte w0 7 := by
  unfold decodeRow at h
  split at h
  · simp at h
  · rename_i hlow
    split at h
    · simp at h
    · split at h
      · simp at h
      · rename_i found hrow
        split at h
        · rename_i htag
          obtain rfl : found = row := by simpa using h
          refine ⟨by simpa using hlow, List.mem_of_find?_eq_some hrow, ?_, htag⟩
          simpa using List.find?_some hrow
        · simp at h

/-- A triplet's instruction is its row's, of its own operand words. -/
theorem decode_of_row (w a v : Word) (row : OpcodeRow) (h : decodeRow w = .ok row) :
    decode { w0 := w, a := a, v := v } = .ok (row.build a v) := by
  simp [decode, h]

/-- A decoded triplet's row. -/
theorem decode_ok (t : Triplet) (i : Instr) (h : decode t = .ok i) :
    ∃ row, decodeRow t.w0 = .ok row ∧ i = row.build t.a t.v := by
  unfold decode at h
  split at h
  · simp at h
  · rename_i row hrow
    exact ⟨row, hrow, by simpa using h.symm⟩

/-- The tag and opcode number fix the row. -/
theorem opcodeTable_row_unique (r q : OpcodeRow) (hr : r ∈ opcodeTable) (hq : q ∈ opcodeTable) (h : r.opc = q.opc) :
    r = q :=
  List.inj_on_of_nodup_map opcodeTable_nodup hr hq h

/-- A word is its tag byte, its opcode byte and its low 48 bits (R111). -/
theorem word_of_parts (w : Word) (h : w.extractLsb' 0 48 = 0) :
    w = ((wordByte w 7).setWidth 64 <<< 56) ||| ((wordByte w 6).setWidth 64 <<< 48) := by
  have hlow : ∀ j < 48, w.getLsbD j = false := fun j hj => by
    have := congrArg (fun v => v.getLsbD j) h
    simpa [BitVec.getLsbD_extractLsb', hj] using this
  apply BitVec.eq_of_getLsbD_eq
  intro j hj
  simp only [wordByte, BitVec.getLsbD_or, BitVec.getLsbD_shiftLeft, BitVec.getLsbD_setWidth,
    BitVec.getLsbD_extractLsb']
  by_cases h48 : j < 48
  · simp [hlow j h48, h48, show j < 56 by omega]
  · by_cases h56 : j < 56
    · simp [h48, h56, hj, show j - 48 < 8 by omega, show j - 48 < 64 by omega, show 8 * 6 + (j - 48) = j by omega]
    · simp [h48, h56, hj, show j - 56 < 8 by omega, show j - 56 < 64 by omega, show 8 * 7 + (j - 56) = j by omega,
        show ¬ j - 48 < 8 by omega]

/-- The word 0 a row decodes from is the one R111 gives it. -/
theorem decodeRow_word (w0 : Word) (row : OpcodeRow) (h : decodeRow w0 = .ok row) :
    w0 = encodeWord0 row.tag row.opc := by
  obtain ⟨hlow, -, hopc, htag⟩ := decodeRow_ok w0 row h
  rw [encodeWord0, hopc, htag]
  exact word_of_parts w0 hlow

end Sys2Proof
end

