-- ==== Sys2Proof/Laws/Step.lean ====
section
/-! SUPPORT. What a step can come to, said once. -/

namespace Sys2Proof.Machine

/-- Every instruction answers a next state: nothing faults and nothing is refused (log entry 4). -/
theorem exec_next (i : Instr) (s : State) : ∃ t, exec i s = .next t := by
  cases i <;> exact ⟨_, rfl⟩

theorem execTriplet_next (t : Triplet) (s : State) : ∃ u, execTriplet t s = .next u := by
  unfold execTriplet
  split
  · exact ⟨_, rfl⟩
  · exact exec_next _ _

/-- Every step answers a next state (log entry 4). -/
theorem step_next (s : State) : ∃ t, step s = .next t := by
  unfold step
  split
  · split
    · exact ⟨_, rfl⟩
    · exact ⟨_, rfl⟩
    · rename_i w t _
      obtain ⟨u, hu⟩ := execTriplet_next w (advance w.w0 t)
      exact ⟨finish u, by simp [hu]⟩
  · exact ⟨_, rfl⟩

/-- A step that is not enabled changes nothing (R361). -/
theorem step_disabled (s : State) (h : s.enabled = false) : step s = .next s := by
  simp [step, h]

/-- An enabled step, by what its fetch comes to (R138). -/
theorem step_words (s : State) (w : Triplet) (t u : State) (he : s.enabled = true)
    (hf : fetch (boot s) = .words w t) (hx : execTriplet w (advance w.w0 t) = .next u) :
    step s = .next (finish u) := by
  simp [step, he, hf, hx]

theorem step_raised (s t : State) (he : s.enabled = true) (hf : fetch (boot s) = .raised t) :
    step s = .next (endStep t) := by
  simp [step, he, hf]

theorem step_stopped (s t : State) (he : s.enabled = true) (hf : fetch (boot s) = .stopped t) :
    step s = .next t := by
  simp [step, he, hf]

/-- What a step can come to: it is disabled, its fetch raises or stops, its word 0 is invalid, or it runs the
instruction it decoded (R138). -/
theorem step_cases (s t : State) (h : step s = .next t) :
    s.enabled = false ∧ t = s ∨
    s.enabled = true ∧
      ((∃ ds, t = endStep (raise .badAddr { boot s with devices := ds })) ∨
       (∃ ds, t = stopFatal .device { boot s with devices := ds }) ∨
       (∃ w ds e, decode w = .error e ∧
          t = finish (raise .badInstr (advance w.w0 { boot s with devices := ds }))) ∨
       (∃ w ds i u, decode w = .ok i ∧ exec i (advance w.w0 { boot s with devices := ds }) = .next u ∧
          t = finish u)) := by
  by_cases he : s.enabled = true
  · right
    refine ⟨he, ?_⟩
    rcases fetch_cases (boot s) with ⟨ds, hf⟩ | ⟨ds, hf⟩ | ⟨w, ds, hf⟩
    · left
      rw [step_raised s _ he hf] at h
      exact ⟨ds, by simpa using h.symm⟩
    · right; left
      rw [step_stopped s _ he hf] at h
      exact ⟨ds, by simpa using h.symm⟩
    · right; right
      obtain ⟨u, hu⟩ := execTriplet_next w (advance w.w0 { boot s with devices := ds })
      rw [step_words s w _ u he hf hu] at h
      have ht : finish u = t := by simpa using h
      unfold execTriplet at hu
      split at hu
      · rename_i e hd
        left
        refine ⟨w, ds, e, hd, ?_⟩
        rw [← ht, ← (by simpa using hu : raise .badInstr (advance w.w0 { boot s with devices := ds }) = u)]
      · rename_i i hd
        right
        exact ⟨w, ds, i, u, hd, hu, ht.symm⟩
  · left
    have he' : s.enabled = false := by simpa using he
    rw [step_disabled s he'] at h
    exact ⟨he', by simpa using h.symm⟩

end Sys2Proof.Machine
end

