-- ==== Sys2Proof/Laws/Frames.lean ====
section
/-! SUPPORT. The frames of the shared operations, in the terms of Safety.lean. -/

namespace Sys2Proof.Machine

/-- Writing a register changes nothing else. -/
theorem onlyRegs_setReg (s : State) (d : Reg) (v : Word) : onlyRegs [d] s (s.setReg d v) :=
  ⟨fun r hr => reg_setReg_other s d r v (by simpa using hr), fun _ _ => rfl, rfl, ⟨rfl, rfl, rfl⟩, ⟨rfl, rfl⟩,
    ⟨⟨rfl, rfl, rfl, rfl⟩, rfl⟩⟩

/-- The register written holds the value (R18). -/
theorem setsReg_setReg (s : State) (d : Reg) (v : Word) : setsReg d v s (s.setReg d v) :=
  ⟨reg_setReg_same s d v, onlyRegs_setReg s d v⟩

/-- A jump writes `pc` and nothing else (R20). -/
theorem jumpTo_eq_setReg (s : State) (t : Address) : s.jumpTo t = s.setReg .pc t := rfl

/-- Storing a word in RAM changes nothing else (R79). -/
theorem setsWord_writeWord (s : State) (a : Address) (w : Word) :
    setsWord a w s { s with mem := s.mem.writeWord a w } :=
  ⟨Memory.readWord_writeWord_same _ _ _, fun _ _ => rfl,
    fun k hk => Memory.read_writeWord_other _ _ _ _ (hk a (by simp)), rfl, ⟨rfl, rfl, rfl⟩, ⟨rfl, rfl⟩,
    ⟨⟨rfl, rfl, rfl, rfl⟩, rfl⟩⟩

/-- A memory read is its transaction and what follows its answer (R19). -/
theorem memRead_answered (a : Address) (s : State) (next : Word → State → State) :
    memRead a s next = answered (busRead s a) next := by
  unfold memRead answered
  rcases busRead s a with ⟨_ | _ | _, t⟩ <;> rfl

/-- A memory write is its transaction and what follows its answer (R19). -/
theorem memWrite_answered (a : Address) (w : Word) (s : State) (next : State → State) :
    memWrite a w s next = answered (busWrite s a w) (fun _ t => next t) := by
  unfold memWrite answered
  rcases busWrite s a w with ⟨_ | _ | _, t⟩ <;> rfl

/-- A register operand passes RegCheck exactly when it names a register (R33). -/
theorem regCheck_iff (p : Params) (i : RegIndex) : regCheck p i = true ↔ ∃ r, regOfIndex p i = some r := by
  simp [regCheck, Option.isSome_iff_exists]

/-- Taking an interrupt from IDLE, in the terms of the statements (R310). -/
theorem enteredHandler_enterHandler (k : Kind) (n : Nat) (s : State) (hn : kindOrder[n]? = some k) :
    enteredHandler n s (enterHandler k s) := by
  refine ⟨⟨k, hn, rfl⟩, ?_, rfl, ?_, ?_, ?_, fun _ _ => rfl, rfl, rfl, ⟨rfl, rfl⟩, ⟨⟨rfl, rfl, rfl, rfl⟩, rfl⟩⟩
  · match n, hn with
    | 0, h | 1, h | 2, h | 3, h | 4, h | 5, h => cases h; exact Vector.getElem?_eq_getElem (by decide)
  · simp [State.handling, flagsHandling, flagsEnter]
  · intro j hj
    have h1 : (1 : Word).getLsbD j = false := by
      cases j with
      | zero => omega
      | succ j => simp [BitVec.getLsbD_ofNat, Nat.testBit_succ]
    show (s.regs.flags ||| 1).getLsbD j = _
    rw [BitVec.getLsbD_or, h1, Bool.or_false]
  · intro r hr
    have : r ≠ .pc ∧ r ≠ .flags := by simpa using hr
    cases r <;> simp_all [State.reg, RegFile.get, enterHandler]

/-- A raise while IN_HANDLER, in the terms of the statements (R311). -/
theorem nestedEntry_nestedFault (s : State) : nestedEntry s (nestedFault s) := by
  refine ⟨rfl, ?_, rfl, ?_, fun _ _ => rfl, rfl, rfl, ⟨rfl, rfl⟩, ⟨⟨rfl, rfl, rfl, rfl⟩, rfl⟩⟩
  · exact Vector.getElem?_eq_getElem (by decide)
  · intro r hr
    have : r ≠ .pc := by simpa using hr
    cases r <;> simp_all [State.reg, RegFile.get, nestedFault]

end Sys2Proof.Machine
end

