-- ==== Sys2Proof/Laws/PerInstr.lean ====
section
/-! SUPPORT. Statements made per instruction: the decoder reads back what the encoder writes (R127), and the
assembler selects the row whose mnemonic and operand kinds an instruction has (R146). -/

namespace Sys2Proof.Laws

/-- Decoding an instruction's words gives it back (R127). -/
def RoundTrip.Statement (i : Instr) : Prop := decode (encode i) = .ok i

/-- An instruction's mnemonic and operands select its own row (R118, R146). -/
def Selection.Statement (i : Instr) : Prop :=
  Machine.selectInstr (Machine.mnemonicOf i) (Machine.operandsOf i) = .ok i

theorem RoundTrip.nop : RoundTrip.Statement .nop :=
  decode_of_row (encodeWord0 .none 0x00) 0 0 ⟨0x00, .none, fun _ _ => .nop⟩ rfl
theorem RoundTrip.hlt : RoundTrip.Statement .hlt :=
  decode_of_row (encodeWord0 .none 0x01) 0 0 ⟨0x01, .none, fun _ _ => .hlt⟩ rfl
theorem RoundTrip.addRR (rd : RegIndex) (rs : RegIndex) : RoundTrip.Statement (.addRR rd rs) :=
  decode_of_row (encodeWord0 .reg 0x02) rd rs ⟨0x02, .reg, fun a v => .addRR a v⟩ rfl
theorem RoundTrip.addMM (dst : Address) (src : Address) : RoundTrip.Statement (.addMM dst src) :=
  decode_of_row (encodeWord0 .addr 0x03) dst src ⟨0x03, .addr, fun a v => .addMM a v⟩ rfl
theorem RoundTrip.subRR (rd : RegIndex) (rs : RegIndex) : RoundTrip.Statement (.subRR rd rs) :=
  decode_of_row (encodeWord0 .reg 0x04) rd rs ⟨0x04, .reg, fun a v => .subRR a v⟩ rfl
theorem RoundTrip.subMM (dst : Address) (src : Address) : RoundTrip.Statement (.subMM dst src) :=
  decode_of_row (encodeWord0 .addr 0x05) dst src ⟨0x05, .addr, fun a v => .subMM a v⟩ rfl
theorem RoundTrip.mulRR (rd : RegIndex) (rs : RegIndex) : RoundTrip.Statement (.mulRR rd rs) :=
  decode_of_row (encodeWord0 .reg 0x06) rd rs ⟨0x06, .reg, fun a v => .mulRR a v⟩ rfl
theorem RoundTrip.mulMM (dst : Address) (src : Address) : RoundTrip.Statement (.mulMM dst src) :=
  decode_of_row (encodeWord0 .addr 0x07) dst src ⟨0x07, .addr, fun a v => .mulMM a v⟩ rfl
theorem RoundTrip.divRR (rd : RegIndex) (rs : RegIndex) : RoundTrip.Statement (.divRR rd rs) :=
  decode_of_row (encodeWord0 .reg 0x08) rd rs ⟨0x08, .reg, fun a v => .divRR a v⟩ rfl
theorem RoundTrip.divMM (dst : Address) (src : Address) : RoundTrip.Statement (.divMM dst src) :=
  decode_of_row (encodeWord0 .addr 0x09) dst src ⟨0x09, .addr, fun a v => .divMM a v⟩ rfl
theorem RoundTrip.andRR (rd : RegIndex) (rs : RegIndex) : RoundTrip.Statement (.andRR rd rs) :=
  decode_of_row (encodeWord0 .reg 0x0A) rd rs ⟨0x0A, .reg, fun a v => .andRR a v⟩ rfl
theorem RoundTrip.andMM (dst : Address) (src : Address) : RoundTrip.Statement (.andMM dst src) :=
  decode_of_row (encodeWord0 .addr 0x0B) dst src ⟨0x0B, .addr, fun a v => .andMM a v⟩ rfl
theorem RoundTrip.orRR (rd : RegIndex) (rs : RegIndex) : RoundTrip.Statement (.orRR rd rs) :=
  decode_of_row (encodeWord0 .reg 0x0C) rd rs ⟨0x0C, .reg, fun a v => .orRR a v⟩ rfl
theorem RoundTrip.orMM (dst : Address) (src : Address) : RoundTrip.Statement (.orMM dst src) :=
  decode_of_row (encodeWord0 .addr 0x0D) dst src ⟨0x0D, .addr, fun a v => .orMM a v⟩ rfl
theorem RoundTrip.xorRR (rd : RegIndex) (rs : RegIndex) : RoundTrip.Statement (.xorRR rd rs) :=
  decode_of_row (encodeWord0 .reg 0x0E) rd rs ⟨0x0E, .reg, fun a v => .xorRR a v⟩ rfl
theorem RoundTrip.xorMM (dst : Address) (src : Address) : RoundTrip.Statement (.xorMM dst src) :=
  decode_of_row (encodeWord0 .addr 0x0F) dst src ⟨0x0F, .addr, fun a v => .xorMM a v⟩ rfl
theorem RoundTrip.norRR (rd : RegIndex) (rs : RegIndex) : RoundTrip.Statement (.norRR rd rs) :=
  decode_of_row (encodeWord0 .reg 0x10) rd rs ⟨0x10, .reg, fun a v => .norRR a v⟩ rfl
theorem RoundTrip.norMM (dst : Address) (src : Address) : RoundTrip.Statement (.norMM dst src) :=
  decode_of_row (encodeWord0 .addr 0x11) dst src ⟨0x11, .addr, fun a v => .norMM a v⟩ rfl
theorem RoundTrip.nandRR (rd : RegIndex) (rs : RegIndex) : RoundTrip.Statement (.nandRR rd rs) :=
  decode_of_row (encodeWord0 .reg 0x12) rd rs ⟨0x12, .reg, fun a v => .nandRR a v⟩ rfl
theorem RoundTrip.nandMM (dst : Address) (src : Address) : RoundTrip.Statement (.nandMM dst src) :=
  decode_of_row (encodeWord0 .addr 0x13) dst src ⟨0x13, .addr, fun a v => .nandMM a v⟩ rfl
theorem RoundTrip.lshiftRR (rd : RegIndex) (rs : RegIndex) : RoundTrip.Statement (.lshiftRR rd rs) :=
  decode_of_row (encodeWord0 .reg 0x14) rd rs ⟨0x14, .reg, fun a v => .lshiftRR a v⟩ rfl
theorem RoundTrip.lshiftMM (dst : Address) (src : Address) : RoundTrip.Statement (.lshiftMM dst src) :=
  decode_of_row (encodeWord0 .addr 0x15) dst src ⟨0x15, .addr, fun a v => .lshiftMM a v⟩ rfl
theorem RoundTrip.rshiftRR (rd : RegIndex) (rs : RegIndex) : RoundTrip.Statement (.rshiftRR rd rs) :=
  decode_of_row (encodeWord0 .reg 0x16) rd rs ⟨0x16, .reg, fun a v => .rshiftRR a v⟩ rfl
theorem RoundTrip.rshiftMM (dst : Address) (src : Address) : RoundTrip.Statement (.rshiftMM dst src) :=
  decode_of_row (encodeWord0 .addr 0x17) dst src ⟨0x17, .addr, fun a v => .rshiftMM a v⟩ rfl
theorem RoundTrip.cmpRR (rd : RegIndex) (rs : RegIndex) : RoundTrip.Statement (.cmpRR rd rs) :=
  decode_of_row (encodeWord0 .reg 0x18) rd rs ⟨0x18, .reg, fun a v => .cmpRR a v⟩ rfl
theorem RoundTrip.cmpMM (dst : Address) (src : Address) : RoundTrip.Statement (.cmpMM dst src) :=
  decode_of_row (encodeWord0 .addr 0x19) dst src ⟨0x19, .addr, fun a v => .cmpMM a v⟩ rfl
theorem RoundTrip.jitR (r : RegIndex) : RoundTrip.Statement (.jitR r) :=
  decode_of_row (encodeWord0 .reg 0x1A) r 0 ⟨0x1A, .reg, fun a _ => .jitR a⟩ rfl
theorem RoundTrip.jitM (a : Address) : RoundTrip.Statement (.jitM a) :=
  decode_of_row (encodeWord0 .addr 0x1B) a 0 ⟨0x1B, .addr, fun a _ => .jitM a⟩ rfl
theorem RoundTrip.jitI (imm : Imm) : RoundTrip.Statement (.jitI imm) :=
  decode_of_row (encodeWord0 .raw 0x1C) imm 0 ⟨0x1C, .raw, fun a _ => .jitI a⟩ rfl
theorem RoundTrip.jmpR (r : RegIndex) : RoundTrip.Statement (.jmpR r) :=
  decode_of_row (encodeWord0 .reg 0x1D) r 0 ⟨0x1D, .reg, fun a _ => .jmpR a⟩ rfl
theorem RoundTrip.jmpM (a : Address) : RoundTrip.Statement (.jmpM a) :=
  decode_of_row (encodeWord0 .addr 0x1E) a 0 ⟨0x1E, .addr, fun a _ => .jmpM a⟩ rfl
theorem RoundTrip.jmpI (imm : Imm) : RoundTrip.Statement (.jmpI imm) :=
  decode_of_row (encodeWord0 .raw 0x1F) imm 0 ⟨0x1F, .raw, fun a _ => .jmpI a⟩ rfl
theorem RoundTrip.callR (r : RegIndex) : RoundTrip.Statement (.callR r) :=
  decode_of_row (encodeWord0 .reg 0x20) r 0 ⟨0x20, .reg, fun a _ => .callR a⟩ rfl
theorem RoundTrip.callM (a : Address) : RoundTrip.Statement (.callM a) :=
  decode_of_row (encodeWord0 .addr 0x21) a 0 ⟨0x21, .addr, fun a _ => .callM a⟩ rfl
theorem RoundTrip.callI (imm : Imm) : RoundTrip.Statement (.callI imm) :=
  decode_of_row (encodeWord0 .raw 0x22) imm 0 ⟨0x22, .raw, fun a _ => .callI a⟩ rfl
theorem RoundTrip.ret : RoundTrip.Statement .ret :=
  decode_of_row (encodeWord0 .none 0x23) 0 0 ⟨0x23, .none, fun _ _ => .ret⟩ rfl
theorem RoundTrip.pushR (r : RegIndex) : RoundTrip.Statement (.pushR r) :=
  decode_of_row (encodeWord0 .reg 0x24) r 0 ⟨0x24, .reg, fun a _ => .pushR a⟩ rfl
theorem RoundTrip.pushM (a : Address) : RoundTrip.Statement (.pushM a) :=
  decode_of_row (encodeWord0 .addr 0x25) a 0 ⟨0x25, .addr, fun a _ => .pushM a⟩ rfl
theorem RoundTrip.pushI (imm : Imm) : RoundTrip.Statement (.pushI imm) :=
  decode_of_row (encodeWord0 .raw 0x26) imm 0 ⟨0x26, .raw, fun a _ => .pushI a⟩ rfl
theorem RoundTrip.popR (r : RegIndex) : RoundTrip.Statement (.popR r) :=
  decode_of_row (encodeWord0 .reg 0x27) r 0 ⟨0x27, .reg, fun a _ => .popR a⟩ rfl
theorem RoundTrip.popM (a : Address) : RoundTrip.Statement (.popM a) :=
  decode_of_row (encodeWord0 .addr 0x28) a 0 ⟨0x28, .addr, fun a _ => .popM a⟩ rfl
theorem RoundTrip.movRR (rd : RegIndex) (rs : RegIndex) : RoundTrip.Statement (.movRR rd rs) :=
  decode_of_row (encodeWord0 .reg 0x29) rd rs ⟨0x29, .reg, fun a v => .movRR a v⟩ rfl
theorem RoundTrip.movRM (rd : RegIndex) (src : Address) : RoundTrip.Statement (.movRM rd src) :=
  decode_of_row (encodeWord0 .reg 0x2A) rd src ⟨0x2A, .reg, fun a v => .movRM a v⟩ rfl
theorem RoundTrip.movRI (rd : RegIndex) (imm : Imm) : RoundTrip.Statement (.movRI rd imm) :=
  decode_of_row (encodeWord0 .reg 0x2B) rd imm ⟨0x2B, .reg, fun a v => .movRI a v⟩ rfl
theorem RoundTrip.movMR (dst : Address) (rs : RegIndex) : RoundTrip.Statement (.movMR dst rs) :=
  decode_of_row (encodeWord0 .addr 0x2C) dst rs ⟨0x2C, .addr, fun a v => .movMR a v⟩ rfl
theorem RoundTrip.movMM (dst : Address) (src : Address) : RoundTrip.Statement (.movMM dst src) :=
  decode_of_row (encodeWord0 .addr 0x2D) dst src ⟨0x2D, .addr, fun a v => .movMM a v⟩ rfl
theorem RoundTrip.storMI (dst : Address) (imm : Imm) : RoundTrip.Statement (.storMI dst imm) :=
  decode_of_row (encodeWord0 .addr 0x2E) dst imm ⟨0x2E, .addr, fun a v => .storMI a v⟩ rfl
theorem RoundTrip.intR (r : RegIndex) : RoundTrip.Statement (.intR r) :=
  decode_of_row (encodeWord0 .reg 0x2F) r 0 ⟨0x2F, .reg, fun a _ => .intR a⟩ rfl
theorem RoundTrip.intM (a : Address) : RoundTrip.Statement (.intM a) :=
  decode_of_row (encodeWord0 .addr 0x30) a 0 ⟨0x30, .addr, fun a _ => .intM a⟩ rfl
theorem RoundTrip.intI (imm : Imm) : RoundTrip.Statement (.intI imm) :=
  decode_of_row (encodeWord0 .raw 0x31) imm 0 ⟨0x31, .raw, fun a _ => .intI a⟩ rfl
theorem RoundTrip.iret : RoundTrip.Statement .iret :=
  decode_of_row (encodeWord0 .none 0x32) 0 0 ⟨0x32, .none, fun _ _ => .iret⟩ rfl
theorem RoundTrip.lditblR (r : RegIndex) : RoundTrip.Statement (.lditblR r) :=
  decode_of_row (encodeWord0 .reg 0x33) r 0 ⟨0x33, .reg, fun a _ => .lditblR a⟩ rfl
theorem RoundTrip.lditblM (a : Address) : RoundTrip.Statement (.lditblM a) :=
  decode_of_row (encodeWord0 .addr 0x34) a 0 ⟨0x34, .addr, fun a _ => .lditblM a⟩ rfl
theorem RoundTrip.lditblI (imm : Imm) : RoundTrip.Statement (.lditblI imm) :=
  decode_of_row (encodeWord0 .raw 0x35) imm 0 ⟨0x35, .raw, fun a _ => .lditblI a⟩ rfl

theorem Selection.nop : Selection.Statement .nop := rfl
theorem Selection.hlt : Selection.Statement .hlt := rfl
theorem Selection.addRR (rd : RegIndex) (rs : RegIndex) : Selection.Statement (.addRR rd rs) := rfl
theorem Selection.addMM (dst : Address) (src : Address) : Selection.Statement (.addMM dst src) := rfl
theorem Selection.subRR (rd : RegIndex) (rs : RegIndex) : Selection.Statement (.subRR rd rs) := rfl
theorem Selection.subMM (dst : Address) (src : Address) : Selection.Statement (.subMM dst src) := rfl
theorem Selection.mulRR (rd : RegIndex) (rs : RegIndex) : Selection.Statement (.mulRR rd rs) := rfl
theorem Selection.mulMM (dst : Address) (src : Address) : Selection.Statement (.mulMM dst src) := rfl
theorem Selection.divRR (rd : RegIndex) (rs : RegIndex) : Selection.Statement (.divRR rd rs) := rfl
theorem Selection.divMM (dst : Address) (src : Address) : Selection.Statement (.divMM dst src) := rfl
theorem Selection.andRR (rd : RegIndex) (rs : RegIndex) : Selection.Statement (.andRR rd rs) := rfl
theorem Selection.andMM (dst : Address) (src : Address) : Selection.Statement (.andMM dst src) := rfl
theorem Selection.orRR (rd : RegIndex) (rs : RegIndex) : Selection.Statement (.orRR rd rs) := rfl
theorem Selection.orMM (dst : Address) (src : Address) : Selection.Statement (.orMM dst src) := rfl
theorem Selection.xorRR (rd : RegIndex) (rs : RegIndex) : Selection.Statement (.xorRR rd rs) := rfl
theorem Selection.xorMM (dst : Address) (src : Address) : Selection.Statement (.xorMM dst src) := rfl
theorem Selection.norRR (rd : RegIndex) (rs : RegIndex) : Selection.Statement (.norRR rd rs) := rfl
theorem Selection.norMM (dst : Address) (src : Address) : Selection.Statement (.norMM dst src) := rfl
theorem Selection.nandRR (rd : RegIndex) (rs : RegIndex) : Selection.Statement (.nandRR rd rs) := rfl
theorem Selection.nandMM (dst : Address) (src : Address) : Selection.Statement (.nandMM dst src) := rfl
theorem Selection.lshiftRR (rd : RegIndex) (rs : RegIndex) : Selection.Statement (.lshiftRR rd rs) := rfl
theorem Selection.lshiftMM (dst : Address) (src : Address) : Selection.Statement (.lshiftMM dst src) := rfl
theorem Selection.rshiftRR (rd : RegIndex) (rs : RegIndex) : Selection.Statement (.rshiftRR rd rs) := rfl
theorem Selection.rshiftMM (dst : Address) (src : Address) : Selection.Statement (.rshiftMM dst src) := rfl
theorem Selection.cmpRR (rd : RegIndex) (rs : RegIndex) : Selection.Statement (.cmpRR rd rs) := rfl
theorem Selection.cmpMM (dst : Address) (src : Address) : Selection.Statement (.cmpMM dst src) := rfl
theorem Selection.jitR (r : RegIndex) : Selection.Statement (.jitR r) := rfl
theorem Selection.jitM (a : Address) : Selection.Statement (.jitM a) := rfl
theorem Selection.jitI (imm : Imm) : Selection.Statement (.jitI imm) := rfl
theorem Selection.jmpR (r : RegIndex) : Selection.Statement (.jmpR r) := rfl
theorem Selection.jmpM (a : Address) : Selection.Statement (.jmpM a) := rfl
theorem Selection.jmpI (imm : Imm) : Selection.Statement (.jmpI imm) := rfl
theorem Selection.callR (r : RegIndex) : Selection.Statement (.callR r) := rfl
theorem Selection.callM (a : Address) : Selection.Statement (.callM a) := rfl
theorem Selection.callI (imm : Imm) : Selection.Statement (.callI imm) := rfl
theorem Selection.ret : Selection.Statement .ret := rfl
theorem Selection.pushR (r : RegIndex) : Selection.Statement (.pushR r) := rfl
theorem Selection.pushM (a : Address) : Selection.Statement (.pushM a) := rfl
theorem Selection.pushI (imm : Imm) : Selection.Statement (.pushI imm) := rfl
theorem Selection.popR (r : RegIndex) : Selection.Statement (.popR r) := rfl
theorem Selection.popM (a : Address) : Selection.Statement (.popM a) := rfl
theorem Selection.movRR (rd : RegIndex) (rs : RegIndex) : Selection.Statement (.movRR rd rs) := rfl
theorem Selection.movRM (rd : RegIndex) (src : Address) : Selection.Statement (.movRM rd src) := rfl
theorem Selection.movRI (rd : RegIndex) (imm : Imm) : Selection.Statement (.movRI rd imm) := rfl
theorem Selection.movMR (dst : Address) (rs : RegIndex) : Selection.Statement (.movMR dst rs) := rfl
theorem Selection.movMM (dst : Address) (src : Address) : Selection.Statement (.movMM dst src) := rfl
theorem Selection.storMI (dst : Address) (imm : Imm) : Selection.Statement (.storMI dst imm) := rfl
theorem Selection.intR (r : RegIndex) : Selection.Statement (.intR r) := rfl
theorem Selection.intM (a : Address) : Selection.Statement (.intM a) := rfl
theorem Selection.intI (imm : Imm) : Selection.Statement (.intI imm) := rfl
theorem Selection.iret : Selection.Statement .iret := rfl
theorem Selection.lditblR (r : RegIndex) : Selection.Statement (.lditblR r) := rfl
theorem Selection.lditblM (a : Address) : Selection.Statement (.lditblM a) := rfl
theorem Selection.lditblI (imm : Imm) : Selection.Statement (.lditblI imm) := rfl

end Sys2Proof.Laws
end

