-- ==== Sys2Proof/Tests/Slice0.lean ====
section
/-! SUPPORT. The model's own tests. The expected results are those of the spec: the worked vectors of
95_test_vectors.md (test_vector_<id> is the vector of that id), the encodings of R116, and the register table of R32. -/

namespace Sys2Proof.Tests

open Sys2Proof.Machine

/-- `ivt=IV` of the vectors' conventions. -/
def vectorTable : Vector Word Config.ivtSize :=
  #v[0xA0000400, 0xA0000410, 0xA0000420, 0xA0000430, 0xA0000440, 0xA0000450]

/-- A vector's start: reset with `pc = 0xA0000000`, the table `IV` or zeros, registers, memory words, stack entries,
and the triplet at its address. -/
def vectorStart (iv : Bool) (regs : List (Reg × Word)) (words : List (Word × Word)) (stack : List (Nat × Word))
    (code : Option (Word × Triplet)) : State :=
  let s := State.reset.jumpTo 0xA0000000
  let s := if iv then { s with ivt := vectorTable } else s
  let s := regs.foldl (fun t p => t.setReg p.1 p.2) s
  let s := { s with stack := stack.foldl (fun (st : List Word) (p : Nat × Word) => setEntry 0 st p.1 p.2) s.stack }
  let m := match code with
    | some (p, t) => s.mem.writeTriplet p t
    | none => s.mem
  { s with mem := words.foldl (fun (m : Memory) (p : Word × Word) => m.writeWord p.1 p.2) m }

/-- The register of an index with the default slots (R32). -/
abbrev regAt (i : Word) : Option Reg := regOfIndex Config.defaults i

/-- RegCheck with the default slots (R33). -/
abbrev validIndex (i : Word) : Bool := regCheck Config.defaults i

/-- One step from `s` answers a next state that passes the check. -/
def ran (s : State) (check : State → Bool) : Bool :=
  match step s with
  | .next t => check t
  | .fault _ => false
  | .refused _ => false

/-- The handler of a kind is entered at an address, and the saved `pc` is another. -/
def took (k : Kind) (handler saved : Word) (t : State) : Bool :=
  t.handling && t.lastint == some k && t.reg .pc == handler && t.saved.pc == saved

/-! ## Encodings (R116), operand words 6 and 7 -/

/-- The words of R116 for the alu rows decode to their instructions. -/
def aluWords : List (Word × Instr) :=
  [(0x0102000000000000, .addRR 6 7),
   (0x0203000000000000, .addMM 6 7),
   (0x0104000000000000, .subRR 6 7),
   (0x0205000000000000, .subMM 6 7),
   (0x0106000000000000, .mulRR 6 7),
   (0x0207000000000000, .mulMM 6 7),
   (0x0108000000000000, .divRR 6 7),
   (0x0209000000000000, .divMM 6 7),
   (0x010A000000000000, .andRR 6 7),
   (0x020B000000000000, .andMM 6 7),
   (0x010C000000000000, .orRR 6 7),
   (0x020D000000000000, .orMM 6 7),
   (0x010E000000000000, .xorRR 6 7),
   (0x020F000000000000, .xorMM 6 7),
   (0x0110000000000000, .norRR 6 7),
   (0x0211000000000000, .norMM 6 7),
   (0x0112000000000000, .nandRR 6 7),
   (0x0213000000000000, .nandMM 6 7),
   (0x0114000000000000, .lshiftRR 6 7),
   (0x0215000000000000, .lshiftMM 6 7),
   (0x0116000000000000, .rshiftRR 6 7),
   (0x0217000000000000, .rshiftMM 6 7),
   (0x0118000000000000, .cmpRR 6 7),
   (0x0219000000000000, .cmpMM 6 7)]

theorem test_decode_alu : aluWords.all (fun p => (decode ⟨p.1, 6, 7⟩).toOption == some p.2) = true := by decide

theorem test_encode_alu : aluWords.all (fun p => (encode p.2).w0 == p.1) = true := by decide

/-- The words of R116 for the control rows decode to their instructions. -/
def controlWords : List (Word × Instr) :=
  [(0x011A000000000000, .jitR 6),
   (0x021B000000000000, .jitM 6),
   (0x031C000000000000, .jitI 6),
   (0x011D000000000000, .jmpR 6),
   (0x021E000000000000, .jmpM 6),
   (0x031F000000000000, .jmpI 6),
   (0x0120000000000000, .callR 6),
   (0x0221000000000000, .callM 6),
   (0x0322000000000000, .callI 6),
   (0x0023000000000000, .ret)]

theorem test_decode_control :
    controlWords.all (fun p => (decode ⟨p.1, 6, 7⟩).toOption == some p.2) = true := by decide

theorem test_encode_control : controlWords.all (fun p => (encode p.2).w0 == p.1) = true := by decide

/-- The words of R116 for the stack rows decode to their instructions. -/
def stackWords : List (Word × Instr) :=
  [(0x0124000000000000, .pushR 6),
   (0x0225000000000000, .pushM 6),
   (0x0326000000000000, .pushI 6),
   (0x0127000000000000, .popR 6),
   (0x0228000000000000, .popM 6)]

theorem test_decode_stack : stackWords.all (fun p => (decode ⟨p.1, 6, 7⟩).toOption == some p.2) = true := by decide

theorem test_encode_stack : stackWords.all (fun p => (encode p.2).w0 == p.1) = true := by decide

/-- The words of R116 for the move rows decode to their instructions. -/
def moveWords : List (Word × Instr) :=
  [(0x0129000000000000, .movRR 6 7),
   (0x012A000000000000, .movRM 6 7),
   (0x012B000000000000, .movRI 6 7),
   (0x022C000000000000, .movMR 6 7),
   (0x022D000000000000, .movMM 6 7),
   (0x022E000000000000, .storMI 6 7)]

theorem test_decode_move : moveWords.all (fun p => (decode ⟨p.1, 6, 7⟩).toOption == some p.2) = true := by decide

theorem test_encode_move : moveWords.all (fun p => (encode p.2).w0 == p.1) = true := by decide

/-- The words of R116 for the system rows decode to their instructions. -/
def systemWords : List (Word × Instr) :=
  [(0x012F000000000000, .intR 6),
   (0x0230000000000000, .intM 6),
   (0x0331000000000000, .intI 6),
   (0x0032000000000000, .iret),
   (0x0133000000000000, .lditblR 6),
   (0x0234000000000000, .lditblM 6),
   (0x0335000000000000, .lditblI 6)]

theorem test_decode_system :
    systemWords.all (fun p => (decode ⟨p.1, 6, 7⟩).toOption == some p.2) = true := by decide

theorem test_encode_system : systemWords.all (fun p => (encode p.2).w0 == p.1) = true := by decide

/-- The words of R116 for the halt rows decode to their instructions. -/
def haltWords : List (Word × Instr) :=
  [(0x0000000000000000, .nop),
   (0x0001000000000000, .hlt)]

theorem test_decode_halt : haltWords.all (fun p => (decode ⟨p.1, 6, 7⟩).toOption == some p.2) = true := by decide

theorem test_encode_halt : haltWords.all (fun p => (encode p.2).w0 == p.1) = true := by decide

/-- Vectors D1 to D8 and M15: none of these words decodes. -/
theorem test_decode_illegal :
    [0x0102000000000001, 0x0036000000000000, 0x0202000000000000, 0x0400000000000000, 0x0100000000000000,
      0xFFFFFFFFFFFFFFFF, 0x0003000000000000, 0x00FF000000000000, 0x032B000000000000].all
      (fun w => (decode ⟨w, 6, 7⟩).toOption == none) = true := by decide

/-- The image of `mov %data0, 5` in section 2.1, decoded from its 24 bytes. -/
theorem test_decode_record :
    (decodeRecord [0x01, 0x2B, 0, 0, 0, 0, 0, 0, 0, 0, 0, 0, 0, 0, 0, 6, 0, 0, 0, 0, 0, 0, 0, 5]).toOption =
      some (.movRI 6 5, []) := by decide

theorem test_encode_record :
    encodeBytes (.movRI 6 5) = [0x01, 0x2B, 0, 0, 0, 0, 0, 0, 0, 0, 0, 0, 0, 0, 0, 6, 0, 0, 0, 0, 0, 0, 0, 5] := by
  decide

theorem test_decode_truncated : (decodeRecord [0x01, 0x2B]).toOption = none := by decide

theorem test_table_word : decodeTableWord 64 0x0331000000000000 = some (.intI 0) := by decide

/-! ## Registers (R32, R33; section 2.6) -/

theorem test_register_indices :
    [(0, Reg.flags), (1, .tmp), (2, .sp), (3, .ip), (4, .pc), (5, .cycle), (6, .data 0), (15, .data 9), (17, .index 0),
      (26, .index 9), (28, .addr 0), (37, .addr 9), (39, .ptr 0), (44, .ptr 5), (48, .ptr 9)].all
      (fun p => regAt p.1 == some p.2 && regIndex Config.defaults p.2 == p.1) = true := by decide

theorem test_register_padding :
    [16, 27, 38, 49, 50, 0xFFFFFFFFFFFFFFFF].all (fun i => validIndex i == false) = true := by decide

/-! ## Well-formedness: an index no register has is refused (log entry 6) -/

theorem test_wellFormed_accepts : wellFormed Config.defaults (.addRR 6 48) = true := by decide
theorem test_wellFormed_refuses_first : wellFormed Config.defaults (.addRR 16 6) = false := by decide
theorem test_wellFormed_refuses_second : wellFormed Config.defaults (.movMR 0xA0000000 49) = false := by decide

/-! ## One step: the vectors of section 3 -/

theorem test_vector_A1_addRR :
    ran (vectorStart false [((.data 0), 0xffffffffffffffff), ((.data 1), 1)] [] []
      (some (0xA0000000, ⟨0x0102000000000000, 6, 7⟩)))
      (fun t => t.reg .pc == 0xa0000003 && t.reg (.data 0) == 0) = true := by decide

theorem test_vector_A3_addRR :
    ran (vectorStart false [((.data 1), 9)] [] []
      (some (0xA0000000, ⟨0x0102000000000000, 4, 7⟩)))
      (fun t => t.reg .pc == 0xa000000c) = true := by decide

theorem test_vector_A4_addMM :
    ran (vectorStart false [] [(0xa0000100, 7), (0xa0000101, 8)] []
      (some (0xA0000000, ⟨0x0203000000000000, 0xa0000100, 0xa0000101⟩)))
      (fun t => t.reg .pc == 0xa0000003 && t.word 0xA0000100 == 0xF) = true := by decide

theorem test_vector_A5_addMM :
    ran (vectorStart true [] [] []
      (some (0xA0000000, ⟨0x0203000000000000, 0x10, 0xa0000101⟩)))
      (fun t => took .badAddr 0xa0000420 0xa0000003 t) = true := by decide

theorem test_vector_A6_subRR :
    ran (vectorStart false [((.data 0), 0), ((.data 1), 1)] [] []
      (some (0xA0000000, ⟨0x0104000000000000, 6, 7⟩)))
      (fun t => t.reg .pc == 0xa0000003 && t.reg (.data 0) == 0xffffffffffffffff) = true := by decide

theorem test_vector_A7_subRR :
    ran (vectorStart false [((.data 0), 3), ((.data 1), 5)] [] []
      (some (0xA0000000, ⟨0x0104000000000000, 6, 7⟩)))
      (fun t => t.reg .pc == 0xa0000003 && t.reg (.data 0) == 0xfffffffffffffffe) = true := by decide

theorem test_vector_A8_subMM :
    ran (vectorStart false [] [(0xa0000100, 0xa), (0xa0000101, 4)] []
      (some (0xA0000000, ⟨0x0205000000000000, 0xa0000100, 0xa0000101⟩)))
      (fun t => t.reg .pc == 0xa0000003 && t.word 0xA0000100 == 0x6) = true := by decide

theorem test_vector_A9_mulRR :
    ran (vectorStart false [((.data 0), 0x100000000), ((.data 1), 0x100000000)] [] []
      (some (0xA0000000, ⟨0x0106000000000000, 6, 7⟩)))
      (fun t => t.reg .pc == 0xa0000003 && t.reg (.data 0) == 0) = true := by decide

theorem test_vector_A10_mulRR :
    ran (vectorStart false [((.data 0), 0xffffffffffffffff), ((.data 1), 0xffffffffffffffff)] [] []
      (some (0xA0000000, ⟨0x0106000000000000, 6, 7⟩)))
      (fun t => t.reg .pc == 0xa0000003 && t.reg (.data 0) == 1) = true := by decide

theorem test_vector_A11_mulMM :
    ran (vectorStart false [] [(0xa0000100, 3), (0xa0000101, 5)] []
      (some (0xA0000000, ⟨0x0207000000000000, 0xa0000100, 0xa0000101⟩)))
      (fun t => t.reg .pc == 0xa0000003 && t.word 0xA0000100 == 0xF) = true := by decide

theorem test_vector_A13_divRR :
    ran (vectorStart false [((.data 0), 0xfffffffffffffffe), ((.data 1), 0xffffffffffffffff)] [] []
      (some (0xA0000000, ⟨0x0108000000000000, 6, 7⟩)))
      (fun t => t.reg .pc == 0xa0000003 && t.reg (.data 0) == 0) = true := by decide

theorem test_vector_A14_divRR :
    ran (vectorStart true [((.data 0), 9), ((.data 1), 0)] [] []
      (some (0xA0000000, ⟨0x0108000000000000, 6, 7⟩)))
      (fun t => took .divByZero 0xa0000430 0xa0000003 t &&
        t.reg (.data 0) == 9) = true := by decide

theorem test_vector_A16_divMM :
    ran (vectorStart true [] [(0xa0000100, 9), (0xa0000101, 0)] []
      (some (0xA0000000, ⟨0x0209000000000000, 0xa0000100, 0xa0000101⟩)))
      (fun t => took .divByZero 0xa0000430 0xa0000003 t &&
        t.word 0xA0000100 == 9) = true := by decide

theorem test_vector_A18_andRR :
    ran (vectorStart false [((.data 0), 0xc), ((.data 1), 0xa)] [] []
      (some (0xA0000000, ⟨0x010A000000000000, 6, 7⟩)))
      (fun t => t.reg .pc == 0xa0000003 && t.reg (.data 0) == 8) = true := by decide

theorem test_vector_A19_andMM :
    ran (vectorStart false [] [(0xa0000100, 0xff00), (0xa0000101, 0xff0)] []
      (some (0xA0000000, ⟨0x020B000000000000, 0xa0000100, 0xa0000101⟩)))
      (fun t => t.reg .pc == 0xa0000003 && t.word 0xA0000100 == 0xF00) = true := by decide

theorem test_vector_A20_orRR :
    ran (vectorStart false [((.data 0), 0xc), ((.data 1), 0xa)] [] []
      (some (0xA0000000, ⟨0x010C000000000000, 6, 7⟩)))
      (fun t => t.reg .pc == 0xa0000003 && t.reg (.data 0) == 0xe) = true := by decide

theorem test_vector_A21_orMM :
    ran (vectorStart false [] [(0xa0000100, 0xf000), (0xa0000101, 0xf)] []
      (some (0xA0000000, ⟨0x020D000000000000, 0xa0000100, 0xa0000101⟩)))
      (fun t => t.reg .pc == 0xa0000003 && t.word 0xA0000100 == 0xF00F) = true := by decide

theorem test_vector_A22_xorRR :
    ran (vectorStart false [((.data 0), 0x1234)] [] []
      (some (0xA0000000, ⟨0x010E000000000000, 6, 6⟩)))
      (fun t => t.reg .pc == 0xa0000003 && t.reg (.data 0) == 0) = true := by decide

theorem test_vector_A23_xorMM :
    ran (vectorStart false [] [(0xa0000100, 0xff)] []
      (some (0xA0000000, ⟨0x020F000000000000, 0xa0000100, 0xa0000100⟩)))
      (fun t => t.reg .pc == 0xa0000003 && t.word 0xA0000100 == 0x0) = true := by decide

theorem test_vector_A24_norRR :
    ran (vectorStart false [((.data 0), 0xc), ((.data 1), 0xa)] [] []
      (some (0xA0000000, ⟨0x0110000000000000, 6, 7⟩)))
      (fun t => t.reg .pc == 0xa0000003 && t.reg (.data 0) == 0xfffffffffffffff1) = true := by decide

theorem test_vector_A25_norMM :
    ran (vectorStart false [] [(0xa0000100, 0), (0xa0000101, 0)] []
      (some (0xA0000000, ⟨0x0211000000000000, 0xa0000100, 0xa0000101⟩)))
      (fun t => t.reg .pc == 0xa0000003 && t.word 0xA0000100 == 0xFFFFFFFFFFFFFFFF) = true := by decide

theorem test_vector_A26_nandRR :
    ran (vectorStart false [((.data 0), 0xc), ((.data 1), 0xa)] [] []
      (some (0xA0000000, ⟨0x0112000000000000, 6, 7⟩)))
      (fun t => t.reg .pc == 0xa0000003 && t.reg (.data 0) == 0xfffffffffffffff7) = true := by decide

theorem test_vector_A27_nandMM :
    ran (vectorStart false [] [(0xa0000100, 0xffffffffffffffff), (0xa0000101, 0xffffffffffffffff)] []
      (some (0xA0000000, ⟨0x0213000000000000, 0xa0000100, 0xa0000101⟩)))
      (fun t => t.reg .pc == 0xa0000003 && t.word 0xA0000100 == 0x0) = true := by decide

theorem test_vector_A28_lshiftRR :
    ran (vectorStart false [((.data 0), 1), ((.data 1), 0x3f)] [] []
      (some (0xA0000000, ⟨0x0114000000000000, 6, 7⟩)))
      (fun t => t.reg .pc == 0xa0000003 && t.reg (.data 0) == 0x8000000000000000) = true := by decide

theorem test_vector_A30_lshiftRR :
    ran (vectorStart false [((.data 0), 3), ((.data 1), 0xffffffffffffffff)] [] []
      (some (0xA0000000, ⟨0x0114000000000000, 6, 7⟩)))
      (fun t => t.reg .pc == 0xa0000003 && t.reg (.data 0) == 0) = true := by decide

theorem test_vector_A31_lshiftMM :
    ran (vectorStart false [] [(0xa0000100, 1), (0xa0000101, 0xa)] []
      (some (0xA0000000, ⟨0x0215000000000000, 0xa0000100, 0xa0000101⟩)))
      (fun t => t.reg .pc == 0xa0000003 && t.word 0xA0000100 == 0x400) = true := by decide

theorem test_vector_A32_rshiftRR :
    ran (vectorStart false [((.data 0), 0x8000000000000000), ((.data 1), 0x3f)] [] []
      (some (0xA0000000, ⟨0x0116000000000000, 6, 7⟩)))
      (fun t => t.reg .pc == 0xa0000003 && t.reg (.data 0) == 1) = true := by decide

theorem test_vector_A33_rshiftRR :
    ran (vectorStart false [((.data 0), 0xffffffffffffffff), ((.data 1), 0x40)] [] []
      (some (0xA0000000, ⟨0x0116000000000000, 6, 7⟩)))
      (fun t => t.reg .pc == 0xa0000003 && t.reg (.data 0) == 0) = true := by decide

theorem test_vector_A34_rshiftMM :
    ran (vectorStart false [] [(0xa0000100, 0xf0), (0xa0000101, 4)] []
      (some (0xA0000000, ⟨0x0217000000000000, 0xa0000100, 0xa0000101⟩)))
      (fun t => t.reg .pc == 0xa0000003 && t.word 0xA0000100 == 0xF) = true := by decide

theorem test_vector_A36_cmpRR :
    ran (vectorStart false [(.tmp, 1), ((.data 0), 5), ((.data 1), 6)] [] []
      (some (0xA0000000, ⟨0x0118000000000000, 6, 7⟩)))
      (fun t => t.reg .tmp == 0 && t.reg .pc == 0xa0000003) = true := by decide

theorem test_vector_A37_cmpRR :
    ran (vectorStart false [(.tmp, 7), ((.data 0), 7)] [] []
      (some (0xA0000000, ⟨0x0118000000000000, 1, 6⟩)))
      (fun t => t.reg .tmp == 1 && t.reg .pc == 0xa0000003) = true := by decide

theorem test_vector_A38_cmpMM :
    ran (vectorStart false [(.tmp, 1)] [(0xa0000100, 5), (0xa0000101, 6)] []
      (some (0xA0000000, ⟨0x0219000000000000, 0xa0000100, 0xa0000101⟩)))
      (fun t => t.reg .tmp == 0 && t.reg .pc == 0xa0000003) = true := by decide

theorem test_vector_A39_cmpMM :
    ran (vectorStart true [(.tmp, 1)] [] []
      (some (0xA0000000, ⟨0x0219000000000000, 0xa0000100, 0xe0000000⟩)))
      (fun t => took .badAddr 0xa0000420 0xa0000003 t &&
        t.reg .tmp == 1) = true := by decide

theorem test_vector_B1_jitR :
    ran (vectorStart false [(.tmp, 1), ((.data 3), 0xa0000030)] [] []
      (some (0xA0000000, ⟨0x011A000000000000, 9, 0⟩)))
      (fun t => t.reg .pc == 0xa0000030) = true := by decide

theorem test_vector_B3_jitR :
    ran (vectorStart true [(.tmp, 0)] [] []
      (some (0xA0000000, ⟨0x011A000000000000, 0x10, 0⟩)))
      (fun t => took .badAddr 0xa0000420 0xa0000003 t) = true := by decide

theorem test_vector_B4_jitM :
    ran (vectorStart false [(.tmp, 0)] [] []
      (some (0xA0000000, ⟨0x021B000000000000, 0xa0000030, 0⟩)))
      (fun t => t.reg .pc == 0xa0000003) = true := by decide

theorem test_vector_B5_jitM :
    ran (vectorStart false [(.tmp, 2)] [] []
      (some (0xA0000000, ⟨0x021B000000000000, 0xa0000030, 0⟩)))
      (fun t => t.reg .pc == 0xa0000030) = true := by decide

theorem test_vector_B6_jitI :
    ran (vectorStart false [(.tmp, 5)] [] []
      (some (0xA0000000, ⟨0x031C000000000000, 0xa0000000, 0⟩)))
      (fun t => t.reg .pc == 0xa0000000) = true := by decide

theorem test_vector_B7_jmpR :
    ran (vectorStart false [((.data 0), 0xa0000009)] [] []
      (some (0xA0000000, ⟨0x011D000000000000, 6, 0⟩)))
      (fun t => t.reg .pc == 0xa0000009) = true := by decide

theorem test_vector_B8_jmpR :
    ran (vectorStart false [] [] []
      (some (0xA0000000, ⟨0x011D000000000000, 4, 0⟩)))
      (fun t => t.reg .pc == 0xa0000003) = true := by decide

theorem test_vector_B9_jmpM :
    ran (vectorStart false [] [] []
      (some (0xA0000000, ⟨0x021E000000000000, 0xa0000009, 0⟩)))
      (fun t => t.reg .pc == 0xa0000009) = true := by decide

theorem test_vector_B10_jmpI :
    ran (vectorStart false [] [] []
      (some (0xA0000000, ⟨0x031F000000000000, 0, 0⟩)))
      (fun t => t.reg .pc == 0) = true := by decide

theorem test_vector_B11_jmpI :
    ran (vectorStart false [] [] []
      (some (0xA0000000, ⟨0x031F000000000000, 0x10, 0⟩)))
      (fun t => t.reg .pc == 0x10) = true := by decide

theorem test_vector_B12_callR :
    ran (vectorStart false [((.data 0), 0xa0000015), (.sp, 0x13), (.pc, 0xa0000009)] [] []
      (some (0xA0000009, ⟨0x0120000000000000, 6, 0⟩)))
      (fun t => t.reg .sp == 0x12 && t.reg .pc == 0xa0000015 && t.stackAt 18 == 0xA000000C) = true := by decide

theorem test_vector_B13_callR :
    ran (vectorStart false [] [] []
      (some (0xA0000000, ⟨0x0120000000000000, 2, 0⟩)))
      (fun t => t.reg .sp == 0x13 && t.reg .pc == 0x14 && t.stackAt 19 == 0xA0000003) = true := by decide

theorem test_vector_B14_callM :
    ran (vectorStart true [(.sp, 0)] [] []
      (some (0xA0000000, ⟨0x0221000000000000, 0xa0000015, 0⟩)))
      (fun t => took .stackOverflow 0xa0000400 0xa0000003 t) = true := by decide

theorem test_vector_B15_callI :
    ran (vectorStart false [] [] []
      (some (0xA0000000, ⟨0x0322000000000000, 0xa0000015, 0⟩)))
      (fun t => t.reg .sp == 0x13 && t.reg .pc == 0xa0000015 && t.stackAt 19 == 0xA0000003) = true := by decide

theorem test_vector_B16_ret :
    ran (vectorStart false [(.sp, 0x12)] [] [(18, 0xa000000c)] (some (0xA0000000, ⟨0x0023000000000000, 0, 0⟩)))
      (fun t => t.reg .sp == 0x13 && t.reg .pc == 0xa000000c) = true := by decide

theorem test_vector_B17_ret :
    ran (vectorStart true [] [] []
      (some (0xA0000000, ⟨0x0023000000000000, 0, 0⟩)))
      (fun t => took .stackOverflow 0xa0000400 0xa0000003 t &&
        t.reg .sp == 20) = true := by decide

theorem test_vector_S2_pushR :
    ran (vectorStart false [] [] []
      (some (0xA0000000, ⟨0x0124000000000000, 2, 0⟩)))
      (fun t => t.reg .sp == 0x13 && t.reg .pc == 0xa0000003 && t.stackAt 19 == 0x14) = true := by decide

theorem test_vector_S3_pushM :
    ran (vectorStart false [] [(0xa0000100, 7)] []
      (some (0xA0000000, ⟨0x0225000000000000, 0xa0000100, 0⟩)))
      (fun t => t.reg .sp == 0x13 && t.reg .pc == 0xa0000003 && t.stackAt 19 == 0x7) = true := by decide

theorem test_vector_S4_pushM :
    ran (vectorStart true [] [] []
      (some (0xA0000000, ⟨0x0225000000000000, 0x10, 0⟩)))
      (fun t => took .badAddr 0xa0000420 0xa0000003 t) = true := by decide

theorem test_vector_S5_pushI :
    ran (vectorStart false [(.sp, 1)] [] []
      (some (0xA0000000, ⟨0x0326000000000000, 0x2a, 0⟩)))
      (fun t => t.reg .sp == 0 && t.reg .pc == 0xa0000003 && t.stackAt 0 == 0x2A) = true := by decide

theorem test_vector_S7_pushI :
    ran (vectorStart true [(.sp, 0x19)] [] []
      (some (0xA0000000, ⟨0x0326000000000000, 0x2a, 0⟩)))
      (fun t => took .stackOverflow 0xa0000400 0xa0000003 t) = true := by decide

theorem test_vector_S8_popR :
    ran (vectorStart false [(.sp, 0x13)] [] [(19, 7)] (some (0xA0000000, ⟨0x0127000000000000, 7, 0⟩)))
      (fun t => t.reg .sp == 0x14 && t.reg .pc == 0xa0000003 && t.reg (.data 1) == 7) = true := by decide

theorem test_vector_S10_popR :
    ran (vectorStart false [(.sp, 0x13)] [] [(19, 5)] (some (0xA0000000, ⟨0x0127000000000000, 2, 0⟩)))
      (fun t => t.reg .sp == 5 && t.reg .pc == 0xa0000003) = true := by decide

theorem test_vector_S11_popM :
    ran (vectorStart false [(.sp, 0x13)] [] [(19, 7)] (some (0xA0000000, ⟨0x0228000000000000, 0xa0000100, 0⟩)))
      (fun t => t.reg .sp == 0x14 && t.reg .pc == 0xa0000003 && t.word 0xA0000100 == 0x7) = true := by decide

theorem test_vector_S12_popM :
    ran (vectorStart true [(.sp, 0x13)] [] [(19, 7)] (some (0xA0000000, ⟨0x0228000000000000, 0x10, 0⟩)))
      (fun t => took .badAddr 0xa0000420 0xa0000003 t &&
        t.reg .sp == 19) = true := by decide

theorem test_vector_S13_pushR :
    ran (vectorStart true [] [] []
      (some (0xA0000000, ⟨0x0124000000000000, 0x1b, 0⟩)))
      (fun t => took .badAddr 0xa0000420 0xa0000003 t) = true := by decide

theorem test_vector_M2_movRR :
    ran (vectorStart false [] [] []
      (some (0xA0000000, ⟨0x0129000000000000, 6, 3⟩)))
      (fun t => t.reg .pc == 0xa0000003 && t.reg (.data 0) == 0x129000000000000) = true := by decide

theorem test_vector_M4_movRM :
    ran (vectorStart false [] [(0xa0000100, 7)] []
      (some (0xA0000000, ⟨0x012A000000000000, 6, 0xa0000100⟩)))
      (fun t => t.reg .pc == 0xa0000003 && t.reg (.data 0) == 7) = true := by decide

theorem test_vector_M5_movRM :
    ran (vectorStart true [((.data 0), 3)] [] []
      (some (0xA0000000, ⟨0x012A000000000000, 6, 0x10⟩)))
      (fun t => took .badAddr 0xa0000420 0xa0000003 t &&
        t.reg (.data 0) == 3) = true := by decide

theorem test_vector_M9_movRI :
    ran (vectorStart false [] [] []
      (some (0xA0000000, ⟨0x012B000000000000, 0, 1⟩)))
      (fun t => t.reg .flags == 1 && t.reg .pc == 0xa0000003) = true := by decide

theorem test_vector_M10_movMR :
    ran (vectorStart false [((.data 0), 0xe)] [] []
      (some (0xA0000000, ⟨0x022C000000000000, 0xa0000101, 6⟩)))
      (fun t => t.reg .pc == 0xa0000003 && t.word 0xA0000101 == 0xE) = true := by decide

theorem test_vector_M11_movMM :
    ran (vectorStart false [] [(0xa0000100, 7)] []
      (some (0xA0000000, ⟨0x022D000000000000, 0xa0000102, 0xa0000100⟩)))
      (fun t => t.reg .pc == 0xa0000003 && t.word 0xA0000102 == 0x7) = true := by decide

theorem test_vector_M12_movMM :
    ran (vectorStart true [] [] []
      (some (0xA0000000, ⟨0x022D000000000000, 0xa0000102, 0x10⟩)))
      (fun t => took .badAddr 0xa0000420 0xa0000003 t) = true := by decide

theorem test_vector_M13_storMI :
    ran (vectorStart false [] [] []
      (some (0xA0000000, ⟨0x022E000000000000, 0xa0000100, 7⟩)))
      (fun t => t.reg .pc == 0xa0000003 && t.word 0xA0000100 == 0x7) = true := by decide

theorem test_vector_M14_storMI :
    ran (vectorStart true [] [] []
      (some (0xA0000000, ⟨0x022E000000000000, 0xe0000000, 7⟩)))
      (fun t => took .badAddr 0xa0000420 0xa0000003 t) = true := by decide

theorem test_vector_M16_movRR :
    ran (vectorStart true [((.data 0), 3)] [] []
      (some (0xA0000000, ⟨0x0129000000000000, 6, 0x31⟩)))
      (fun t => took .badAddr 0xa0000420 0xa0000003 t) = true := by decide

theorem test_vector_M17_movRI :
    ran (vectorStart false [(.cycle, 7)] [] []
      (some (0xA0000000, ⟨0x012B000000000000, 5, 0⟩)))
      (fun t => t.reg .pc == 0xa0000003 && t.reg .cycle == 1) = true := by decide

theorem test_vector_Y2_intR :
    ran (vectorStart true [((.data 0), 5)] [] []
      (some (0xA0000000, ⟨0x012F000000000000, 6, 0⟩)))
      (fun t => took .timer 0xa0000450 0xa0000003 t) = true := by decide

theorem test_vector_Y3_intM :
    ran (vectorStart true [] [(0xa0000100, 2)] []
      (some (0xA0000000, ⟨0x0230000000000000, 0xa0000100, 0⟩)))
      (fun t => took .badAddr 0xa0000420 0xa0000003 t) = true := by decide

theorem test_vector_Y4_intI :
    ran (vectorStart true [] [] []
      (some (0xA0000000, ⟨0x0331000000000000, 6, 0⟩)))
      (fun t => t.reg .pc == 0xa0000003 && t.fatal == some .badKind && t.regs.cycle == 0) = true := by decide

theorem test_vector_Y5_intI :
    ran (vectorStart true [(.flags, 1)] [] []
      (some (0xA0000000, ⟨0x0331000000000000, 6, 0⟩)))
      (fun t => t.reg .pc == 0xa0000410 && t.lastint == some .fault) = true := by decide

theorem test_vector_Y8_iret :
    ran (vectorStart true [] [] []
      (some (0xA0000000, ⟨0x0032000000000000, 0, 0⟩)))
      (fun t => took .fault 0xa0000410 0xa0000003 t) = true := by decide

theorem test_vector_Y10_lditblM :
    ran (vectorStart false [] [(0xa0000200, 0xa000000f), (0xa0000201, 0xa000000f), (0xa0000202, 0xa000000f),
      (0xa0000203, 0xa000000f), (0xa0000204, 0xa000000f), (0xa0000205, 0xa000000f)] []
      (some (0xA0000000, ⟨0x0234000000000000, 0xa0000200, 0⟩)))
      (fun t => t.reg .pc == 0xa0000003 && t.ivt[0] == 0xA000000F && t.ivt[1] == 0xA000000F && t.ivt[2] == 0xA000000F &&
        t.ivt[3] == 0xA000000F && t.ivt[4] == 0xA000000F && t.ivt[5] == 0xA000000F) = true := by decide

theorem test_vector_Y11_lditblR :
    ran (vectorStart false [((.data 0), 0xa0000200)] [(0xa0000200, 0xa0000100), (0xa0000201, 0xa0000101),
      (0xa0000202, 0xa0000102), (0xa0000203, 0xa0000103), (0xa0000204, 0xa0000104), (0xa0000205, 0xa0000105)] []
      (some (0xA0000000, ⟨0x0133000000000000, 6, 0⟩)))
      (fun t => t.reg .pc == 0xa0000003 && t.ivt[0] == 0xA0000100 && t.ivt[1] == 0xA0000101 && t.ivt[2] == 0xA0000102 &&
        t.ivt[3] == 0xA0000103 && t.ivt[4] == 0xA0000104 && t.ivt[5] == 0xA0000105) = true := by decide

theorem test_vector_Y12_lditblI :
    ran (vectorStart false [] [(0xa0000200, 0xa0000100), (0xa0000201, 0xa0000101), (0xa0000202, 0xa0000102),
      (0xa0000203, 0xa0000103), (0xa0000204, 0xa0000104), (0xa0000205, 0xa0000105)] []
      (some (0xA0000000, ⟨0x0335000000000000, 0xa0000200, 0⟩)))
      (fun t => t.reg .pc == 0xa0000003 && t.ivt[0] == 0xA0000100 && t.ivt[1] == 0xA0000101 && t.ivt[2] == 0xA0000102 &&
        t.ivt[3] == 0xA0000103 && t.ivt[4] == 0xA0000104 && t.ivt[5] == 0xA0000105) = true := by decide

theorem test_vector_Y13_lditblM :
    ran (vectorStart true [] [] []
      (some (0xA0000000, ⟨0x0234000000000000, 0xdffffffc, 0⟩)))
      (fun t => took .badAddr 0xa0000420 0xa0000003 t) = true := by decide

theorem test_vector_Y14_lditblR :
    ran (vectorStart true [] [] []
      (some (0xA0000000, ⟨0x0133000000000000, 0x26, 0⟩)))
      (fun t => took .badAddr 0xa0000420 0xa0000003 t) = true := by decide

theorem test_vector_Y15_nop :
    ran (vectorStart false [] [] []
      (some (0xA0000000, ⟨0x0000000000000000, 0, 0⟩)))
      (fun t => t.reg .pc == 0xa0000003 && t.running == false) = true := by decide

theorem test_vector_Y16_hlt :
    ran (vectorStart false [(.flags, 1)] [] []
      (some (0xA0000000, ⟨0x0001000000000000, 0, 0⟩)))
      (fun t => t.reg .pc == 0xa0000003 && t.running == false) = true := by decide

theorem test_vector_D1_Illegal :
    ran (vectorStart true [] [] []
      (some (0xA0000000, ⟨0x0102000000000001, 6, 7⟩)))
      (fun t => took .badInstr 0xa0000440 0xa0000003 t) = true := by decide

theorem test_vector_D3_Illegal :
    ran (vectorStart true [] [] []
      (some (0xA0000000, ⟨0x0202000000000000, 6, 7⟩)))
      (fun t => took .badInstr 0xa0000440 0xa0000003 t) = true := by decide

theorem test_vector_F1_Fetch :
    ran (vectorStart true [(.pc, 0x9ffffffd)] [] [] none)
      (fun t => took .badAddr 0xa0000420 0x9ffffffd t) = true := by decide

theorem test_vector_F4_Fetch :
    ran (vectorStart false [(.pc, 0), (.cycle, 5)] [] []
      (some (0xA000000F, ⟨0x012B000000000000, 6, 5⟩)))
      (fun t => t.reg .pc == 0xa0000012 && t.reg (.data 0) == 5) = true := by decide

theorem test_vector_M15_Illegal :
    ran (vectorStart true [] [] []
      (some (0xA0000000, ⟨0x032B000000000000, 5, 6⟩)))
      (fun t => took .badInstr 0xa0000440 0xa0000003 t) = true := by decide

theorem test_vector_D8_Illegal :
    ran (vectorStart true [] [] []
      (some (0xA0000000, ⟨0x00FF000000000000, 6, 7⟩)))
      (fun t => took .badInstr 0xa0000440 0xa0000003 t) = true := by decide

theorem test_vector_F2_Fetch :
    ran (vectorStart true [(.pc, 0xdffffffe)] [] []
      (some (0xDFFFFFFE, ⟨0x0001000000000000, 0, 0⟩)))
      (fun t => took .badAddr 0xa0000420 0xdffffffe t) = true := by decide

theorem test_vector_F3_Fetch :
    ran (vectorStart true [(.flags, 1), (.pc, 0x10)] [] [] none)
      (fun t => t.reg .pc == 0xa0000410 && t.lastint == some .fault) = true := by decide

/-! ## The statements' hypotheses are met (Obligations.lean), each clause at the ends of its range -/

/-- The reset state with one register changed. -/
def withRegister (r : Reg) (v : Word) : State := State.reset.setReg r v

/-- A state that has written one word of RAM. -/
def oneWordWritten : State := { State.reset with mem := State.reset.mem.writeWord 0xA0000000 5 }

/-- A state at 0xA0000000 whose RAM holds one triplet there. -/
def holding (t : Triplet) : State := vectorStart true [] [] [] (some (0xA0000000, t))

/-- A device with eight words, in front of the RAM window. -/
def deviceMap : List Region := { start := 0x100, stop := 0x108, backing := .device 3 } :: Config.platformMap

/-- Reset with two slots in a bank, room for one word on the stack, and I/O apart from RAM. -/
def small : State := State.init { bankSlots := 2, stackCapacity := 1, ioBase := 0x100 } deviceMap [3] []

/-- Executing `i` at `s` answers the next state `t`. -/
def executed (i : Instr) (s t : State) : Bool :=
  match exec i s with
  | .next u => u == t
  | .fault _ => false
  | .refused _ => false

/-- The ends of the register ranges, valid and invalid (R33). -/
theorem witness_registerIndices :
    regAt 0 = some .flags ∧ regAt 15 = some (.data 9) ∧ regAt 17 = some (.index 0) ∧
    regAt 48 = some (.ptr 9) ∧ validIndex 0 = true ∧ validIndex 48 = true ∧ validIndex 16 = false ∧
    validIndex 49 = false ∧ validIndex 0xFFFFFFFFFFFFFFFF = false := by decide

/-- The ends of RAM on the default platform, and the unmapped addresses beside it. -/
theorem witness_addresses :
    isRam State.reset 0xA0000000 = true ∧ isRam State.reset 0xDFFFFFFF = true ∧
    isUnmapped State.reset 0x9FFFFFFF = true ∧ isUnmapped State.reset 0xE0000000 = true ∧
    isUnmapped State.reset 0 = true ∧ isUnmapped State.reset 0xFFFFFFFFFFFFFFFF = true := by decide

theorem witness_ArithmeticRegisterForms : regAt 0 = some .flags ∧ regAt 48 = some (.ptr 9) ∧
    validIndex 16 = false := by decide
theorem witness_BitwiseRegisterForms : regAt 6 = some (.data 0) ∧ regAt 4 = some .pc ∧
    validIndex 27 = false := by decide
theorem witness_ShiftRegisterForms : regAt 6 = some (.data 0) ∧ regAt 6 = some (.data 0) ∧
    validIndex 38 = false := by decide
theorem witness_DivideRegisterForm : regAt 6 = some (.data 0) ∧ regAt 2 = some .sp ∧
    State.reset.reg .sp ≠ 0 ∧ regAt 1 = some .tmp ∧ State.reset.reg .tmp = 0 ∧ validIndex 49 = false := by decide
theorem witness_ArithmeticMemoryForms : isRam State.reset 0xA0000000 = true ∧ isRam State.reset 0xDFFFFFFF = true ∧
    isUnmapped State.reset 0xE0000000 = true := by decide
theorem witness_BitwiseMemoryForms : isRam State.reset 0xDFFFFFFF = true ∧ isRam State.reset 0xA0000000 = true ∧
    isUnmapped State.reset 0x9FFFFFFF = true := by decide
theorem witness_ShiftMemoryForms : isRam State.reset 0xA0000000 = true ∧ isRam State.reset 0xA0000000 = true ∧
    isUnmapped State.reset 0xE0000000 = true := by decide
theorem witness_DivideMemoryForm : isRam oneWordWritten 0xDFFFFFFF = true ∧ isRam oneWordWritten 0xA0000000 = true ∧
    oneWordWritten.word 0xA0000000 ≠ 0 ∧ isUnmapped oneWordWritten 0xE0000000 = true := by decide
theorem witness_DivideMemoryForm_zero :
    isRam (vectorStart false [] [(0xA0000000, 0)] [] none) 0xA0000000 = true ∧
    (vectorStart false [] [(0xA0000000, 0)] [] none).word 0xA0000000 = 0 := by decide
theorem witness_CompareRegisterForm : regAt 5 = some .cycle ∧ regAt 17 = some (.index 0) ∧
    validIndex 0xFFFFFFFFFFFFFFFF = false := by decide
theorem witness_CompareMemoryForm : isRam State.reset 0xA0000000 = true ∧ isRam State.reset 0xA0000001 = true ∧
    isUnmapped State.reset 0 = true := by decide
theorem witness_JumpIfTrueForms : (withRegister .tmp 1).reg .tmp ≠ 0 ∧ State.reset.reg .tmp = 0 ∧
    regAt 39 = some (.ptr 0) ∧ validIndex 39 = true ∧ validIndex 38 = false := by decide
theorem witness_JumpForms : regAt 26 = some (.index 9) ∧ validIndex 27 = false := by decide

/-- The stack checks at both ends: room for a push at `sp` 1 to 20, an entry for a pop at 0 to 19. -/
theorem witness_CallForms : hasRoom (withRegister .sp 1) ∧ hasRoom (withRegister .sp 20) ∧
    ¬ hasRoom (withRegister .sp 0) ∧ ¬ hasRoom (withRegister .sp 21) ∧ regAt 2 = some .sp ∧
    validIndex 2 = true ∧ validIndex 16 = false := by decide
theorem witness_ReturnForm : hasEntry (withRegister .sp 0) ∧ hasEntry (withRegister .sp 19) ∧
    ¬ hasEntry (withRegister .sp 20) ∧ ¬ hasEntry (withRegister .sp 21) := by decide
theorem witness_PushForms : hasRoom (withRegister .sp 1) ∧ isRam (withRegister .sp 1) 0xDFFFFFFF = true ∧
    ¬ hasRoom (withRegister .sp 21) ∧ isUnmapped (withRegister .sp 21) 0xE0000000 = true ∧
    regAt 48 = some (.ptr 9) ∧ validIndex 49 = false := by decide
theorem witness_PopRegisterForm : hasEntry (withRegister .sp 19) ∧ regAt 2 = some .sp ∧
    regAt 6 = some (.data 0) ∧ ¬ hasEntry (withRegister .sp 20) ∧ validIndex 16 = false := by decide
theorem witness_PopMemoryForm : hasEntry (withRegister .sp 0) ∧ isRam (withRegister .sp 0) 0xA0000000 = true ∧
    isUnmapped (withRegister .sp 0) 0xE0000000 = true ∧ ¬ hasEntry (withRegister .sp 20) := by decide
theorem witness_StackHoldsExactlyItsCapacity :
    State.reset.params.stackCapacity.toNat = 20 ∧ State.reset.regs.sp.toNat = 20 ∧
    (List.replicate 20 (7 : Word)).length ≤ 20 ∧ small.params.stackCapacity.toNat = 1 ∧ small.regs.sp.toNat = 1 ∧
    ([7] : List Word).length ≤ 1 ∧ validIndex 48 = true := by decide
theorem witness_MoveToRegisterForms : regAt 0 = some .flags ∧ regAt 3 = some .ip ∧
    validIndex 49 = false := by decide
theorem witness_LoadForm : regAt 4 = some .pc ∧ isRam State.reset 0xDFFFFFFF = true ∧
    isUnmapped State.reset 0xE0000000 = true ∧ validIndex 16 = false := by decide
theorem witness_StoreForms : regAt 48 = some (.ptr 9) ∧ isRam State.reset 0xA0000000 = true ∧
    isUnmapped State.reset 0x9FFFFFFF = true ∧ validIndex 49 = false := by decide
theorem witness_MemoryToMemoryMove : isRam State.reset 0xA0000000 = true ∧ isRam State.reset 0xDFFFFFFF = true ∧
    isUnmapped State.reset 0xE0000000 = true := by decide
theorem witness_InterruptForms :
    (withRegister .flags 1).handling = true ∧ State.reset.handling = false ∧
    (5 : Word).toNat < 6 ∧ 6 ≤ (6 : Word).toNat ∧ 6 ≤ (0xFFFFFFFFFFFFFFFF : Word).toNat ∧
    regAt 6 = some (.data 0) ∧ validIndex 16 = false ∧ isRam State.reset 0xA0000000 = true ∧
    isUnmapped State.reset 0xE0000000 = true := by decide
theorem witness_InterruptEntry : kindOrder[0]? = some .stackOverflow ∧ kindOrder[5]? = some .timer ∧
    State.reset.handling = false ∧ (withRegister .flags 0xFFFFFFFFFFFFFFFF).handling = true := by decide
theorem witness_InterruptReturn : (withRegister .flags 1).handling = true ∧ State.reset.handling = false := by decide
theorem witness_ReturnRestoresExactly :
    State.reset.handling = false ∧ (raise .timer State.reset).saved = (raise .timer State.reset).saved ∧
    (raise .timer State.reset).handling = true := by decide

/-- `lditbl` at the last base whose six words RAM answers, and at the first and the last that fail later on. -/
theorem witness_LoadTableForms :
    (∀ k < 6, isRam State.reset (0xDFFFFFFA + BitVec.ofNat 64 k) = true) ∧
    (isUnmapped State.reset (0xE0000000 + BitVec.ofNat 64 0) = true) ∧
    ((∀ k < 5, isRam State.reset (0xDFFFFFFB + BitVec.ofNat 64 k) = true) ∧
      isUnmapped State.reset (0xDFFFFFFB + BitVec.ofNat 64 5) = true) ∧
    regAt 6 = some (.data 0) ∧ validIndex 16 = false := by decide
theorem witness_HaltForms :
    (holding ⟨0x0000000000000000, 1, 2⟩).enabled = true ∧
    fetchesRam (holding ⟨0x0000000000000000, 1, 2⟩) ⟨0x0000000000000000, 1, 2⟩ ∧
    fetchesRam (holding ⟨0x0001000000000000, 1, 2⟩) ⟨0x0001000000000000, 1, 2⟩ ∧
    (holding ⟨0x0001000000000000, 1, 2⟩).peripherals = [] := by decide

/-- Each kind is taken in IDLE by some instruction, so that each cause of the statement is met. -/
theorem witness_InterruptCauses :
    [(Instr.popR 6, Kind.stackOverflow), (.ret, .stackOverflow), (.iret, .fault), (.movRM 6 0, .badAddr),
      (.addRR 16 6, .badAddr), (.divRR 6 7, .divByZero), (.intI 4, .badInstr), (.intI 5, .timer)].all
      (fun p => match exec p.1 State.reset with
        | .next t => t.lastint == some p.2 && t.lastint != State.reset.lastint
        | .fault _ => false
        | .refused _ => false) = true := by decide
theorem witness_InterruptCauses_push :
    executed (.pushI 7) (withRegister .sp 0) (raise .stackOverflow (withRegister .sp 0)) = true ∧
    executed (.callI 7) (withRegister .sp 21) (raise .stackOverflow (withRegister .sp 21)) = true := by decide
/-- The conditions of the causes are met, and a jump's target is no data access. -/
theorem witness_InterruptCauses_conditions :
    interruptValue (.intR 6) (withRegister (.data 0) 2) = some 2 ∧ interruptValue (.intI 1) State.reset = some 1 ∧
    interruptValue (.popR 6) State.reset = none ∧ divisor (.divRR 6 7) State.reset = some 0 ∧
    divisor (.divMM 0xA0000000 0xA0000001) (vectorStart false [] [(0xA0000001, 0)] [] none) = some 0 ∧
    dataAddresses (.lditblI 0xFFFFFFFFFFFFFFFE) State.reset =
      [0xFFFFFFFFFFFFFFFE, 0xFFFFFFFFFFFFFFFF, 0, 1, 2, 3] ∧
    dataAddresses (.jmpM 0x10) State.reset = [] ∧ dataAddresses (.movMM 5 6) State.reset = [5, 6] := by decide

/-- An INT of the least and of the greatest value that names no kind stops the block, and a mov takes no interrupt. -/
theorem witness_InterruptCauses_other :
    executed (.intI 6) State.reset (stopFatal .badKind State.reset) = true ∧
    executed (.intI 0xFFFFFFFFFFFFFFFF) State.reset (stopFatal .badKind State.reset) = true ∧
    interruptValue (.intI 6) State.reset = some 6 ∧ State.reset.handling = false ∧
    executed (.movRI 6 5) State.reset (State.reset.setReg (.data 0) 5) = true ∧
    writtenRegs Config.defaults (.movRI 6 5) = [.data 0] := by decide

/-- Each form has an operand, at the ends of its range. -/
theorem witness_SoftwareWritesInterruptBit :
    regAt 0 = some .flags ∧ regAt 48 = some (.ptr 9) ∧ isRam State.reset 0xDFFFFFFF = true ∧
    hasEntry (withRegister .sp 0) ∧ hasEntry (withRegister .sp 19) ∧
    regAt 2 = some .sp ∧ State.reset.reg .sp ≠ 0 := by decide
theorem witness_InterruptsArePrecise :
    executed (.divRR 6 7) State.reset (raise .divByZero State.reset) = true ∧
    executed (.intI 6) State.reset (stopFatal .badKind State.reset) = true ∧
    executed (.movRI 6 5) State.reset (State.reset.setReg (.data 0) 5) = true := by decide
theorem witness_InvalidRegisterIndexRaises :
    wellFormed Config.defaults (.addRR 6 16) = false ∧ wellFormed Config.defaults (.popR 49) = false ∧
    validIndex 16 = false ∧ validIndex 49 = false := by decide
theorem witness_RegisterNumbering : [Reg.flags, .tmp, .sp, .ip, .pc, .cycle][5]? = some .cycle ∧
    regAt 48 = some (.ptr 9) ∧ 49 ≤ (49 : Word).toNat := by decide

/-- With two slots in a bank: the last index of each bank, the padding after it, and the end. -/
theorem witness_RegisterNumbering_small :
    [7, 8, 9, 10, 11, 12, 16, 17].map (regOfIndex small.params) =
      [some (.data 1), none, some (.index 0), some (.index 1), none, some (.addr 0), some (.ptr 1), none] := by decide
theorem witness_FirstReadFailureRaisesOrStops :
    wellFormed Config.defaults (.movRM 48 0xE0000000) = true ∧
    firstRead (.movRM 48 0xE0000000) State.reset = some 0xE0000000 ∧
    isUnmapped State.reset 0xE0000000 = true ∧
    firstRead (.lditblR 6) State.reset = some 0 ∧ isUnmapped State.reset 0 = true := by decide
theorem witness_StateHasItsWriters :
    executed (.pushI 7) State.reset
      { State.reset.setReg .sp 19 with stack := setEntry 0 State.reset.stack 19 7 } = true ∧
    hasRoom State.reset ∧ executed .hlt State.reset { State.reset with running := false } = true := by decide
theorem witness_StepNeverSetsWhatOnlyTheHostSets :
    ran (holding (encode (.intI 5))) (fun t => t.saved != (holding (encode (.intI 5))).saved && t.running) = true ∧
    ran { State.reset with fatal := some .device } (fun t => t == stopFatal .device State.reset) = true := by decide
theorem witness_StepRunsTheDecodedInstruction :
    (holding (encode (.movRI 6 5))).enabled = true ∧
    (match fetch (boot (holding (encode (.movRI 6 5)))) with
      | .words w _ => (decode w).toOption == some (.movRI 6 5)
      | .raised _ => false
      | .stopped _ => false) = true := by decide
theorem witness_StepRunsTheEncodedInstruction :
    (holding (encode (.addRR 6 7))).enabled = true ∧
    fetchesRam (holding (encode (.addRR 6 7))) (encode (.addRR 6 7)) ∧
    fetchesRam (vectorStart false [(.pc, 0)] [] [] (some (0xA0000000, encode (.popR 16)))) (encode (.popR 16)) := by
  decide
theorem witness_StepRunsTheEncodedInstruction_last :
    fetchesRam (vectorStart false [(.pc, 0xDFFFFFFD)] [] [] (some (0xDFFFFFFD, encode .ret))) (encode .ret) := by decide
theorem witness_DisabledStepChangesNothing : (driverHalt State.reset).running = false ∧
    (stopFatal .badKind State.reset).fatal ≠ none := by decide
theorem witness_BootRule : State.reset.regs.pc = 0 ∧ State.reset.enabled = true ∧
    (withRegister .pc 1).regs.pc ≠ 0 := by decide

/-- The fetch reaches the end of RAM at its first, second and third word (vector F2 for the third). -/
theorem witness_FetchFaults : State.reset.enabled = true ∧
    isUnmapped (withRegister .pc 0xE0000000) (fetchAddress (withRegister .pc 0xE0000000) + 0) = true ∧
    isRam (withRegister .pc 0xDFFFFFFE) (fetchAddress (withRegister .pc 0xDFFFFFFE)) = true ∧
    isRam (withRegister .pc 0xDFFFFFFE) (fetchAddress (withRegister .pc 0xDFFFFFFE) + 1) = true ∧
    isUnmapped (withRegister .pc 0xDFFFFFFE) (fetchAddress (withRegister .pc 0xDFFFFFFE) + 2) = true := by decide
theorem witness_IllegalWordRaisesBadInstr :
    (holding ⟨0x0036000000000000, 6, 7⟩).enabled = true ∧ (holding ⟨0x0036000000000000, 6, 7⟩).handling = false ∧
    (holding ⟨0x0036000000000000, 6, 7⟩).peripherals = [] ∧
    fetchesRam (holding ⟨0x0036000000000000, 6, 7⟩) ⟨0x0036000000000000, 6, 7⟩ ∧
    (decode ⟨0x0036000000000000, 6, 7⟩).toOption = none := by decide
theorem witness_TickPhaseAndCycle : State.reset.fatal = none ∧ (withRegister .flags 1).handling = true ∧
    State.reset.handling = false := by decide
theorem witness_FatalStopEndsTheStep :
    (holding (encode (.intI 6))).enabled = true ∧ (holding (encode (.intI 6))).handling = false ∧
    fetchesRam (holding (encode (.intI 6))) (encode (.intI 6)) ∧
    ran (holding (encode (.intI 6))) (fun t => t.fatal == some .badKind) = true := by decide

/-- A handler that is at an unmapped FAULT vector (R315). -/
def livelocked : State :=
  { withRegister .flags 1 with
    regs := { (withRegister .flags 1).regs with pc := 0x10 }
    ivt := #v[0, 0x10, 0, 0, 0, 0]
    lastint := some .fault }

theorem witness_UnmappedFaultVectorLivelocks :
    livelocked.enabled = true ∧ livelocked.handling = true ∧ livelocked.peripherals = [] ∧
    livelocked.regs.pc = livelocked.vector .fault ∧ livelocked.regs.pc ≠ 0 ∧
    isUnmapped livelocked livelocked.regs.pc = true ∧ livelocked.lastint = some .fault := by decide
theorem witness_DecodesExactlyTheTable :
    (decode ⟨0x0335000000000000, 6, 7⟩) = .ok (.lditblI 6) ∧ (decode ⟨0x0036000000000000, 6, 7⟩).toOption = none := by
  decide
theorem witness_UnusedWordsAreIgnored :
    decode ⟨0x0023000000000000, 6, 7⟩ = .ok .ret ∧ decode ⟨0x0133000000000000, 6, 7⟩ = .ok (.lditblR 6) := by decide
theorem witness_DecodeInvertsEncode : encode (.movRI 6 5) = encode (.movRI 6 5) := by decide
theorem witness_AssemblerSelectsTheRow :
    selectInstr .stor [(.mem, 0xA0000100), (.imm, 7)] = .ok (.storMI 0xA0000100 7) ∧
    selectInstr .mov [(.mem, 0xA0000100), (.imm, 7)] = .ok (.storMI 0xA0000100 7) ∧
    selectInstr .mov [(.imm, 5), (.reg, 6)] = .error .noValidDestination := by decide

/-- A program of two units whose second refers to itself and to the first. -/
def twoUnits : List Line :=
  [.label "start", .instruction "mov" [.operand (.register "data0"), .comma, .operand (.integer "5")],
   .instruction "call" [.operand (.identifier "next")],
   .label "next", .instruction "nop" [], .instruction "jmp" [.operand (.identifier "start")]]

theorem witness_LabelsNameTheirWords : collectUnits 0 [] twoUnits = .ok [("start", 0), ("next", 2)] := by decide
theorem test_assemble_labels : assemble Config.defaults twoUnits =
    .ok [.movRI 6 5, .callM 0xA0000006, .nop, .jmpM 0xA0000000] := by decide
theorem witness_FirstMatchingRegionAnswers :
    decodeAddress Config.platformMap 0xDFFFFFFF =
      some ({ start := 0xA0000000, stop := 0xE0000000, backing := .ram }, 0x3FFFFFFF) ∧
    decodeAddress Config.platformMap 0xE0000000 = none ∧ State.reset.regions = Config.platformMap := by decide
/-- A device's region at its first and its last address, and the address after it. -/
theorem witness_FirstMatchingRegionAnswers_device :
    decodeAddress deviceMap 0x100 = some ({ start := 0x100, stop := 0x108, backing := .device 3 }, 0x100 - 0x100) ∧
    decodeAddress deviceMap 0x107 = some ({ start := 0x100, stop := 0x108, backing := .device 3 }, 0x107 - 0x100) ∧
    decodeAddress deviceMap 0x108 = none ∧ small.regions = deviceMap := by decide
theorem witness_RamHoldsWhatWasWritten :
    isRam State.reset 0xA0000000 = true ∧ isRam State.reset 0xDFFFFFFF = true ∧
    (0xDFFFFFFF : Address) ≠ 0xA0000000 ∧ State.reset.mem = [] := by decide

/-- A map that a reset refuses, and one with overlapping regions that it accepts (R71). -/
theorem witness_ResetRebuildsOrFails :
    (driverReset Config.defaults (Config.platformMap ++ Config.platformMap) [] oneWordWritten).2 =
      .error .alreadyMapped ∧
    (driverReset Config.defaults
      [{ start := 0, stop := 8, backing := .ram }, { start := 0, stop := 9, backing := .ram }] []
      oneWordWritten).2 = .ok () ∧
    ({ start := 0x100, stop := 0x108, backing := .device 3 } : Region).backing = .device 3 := by decide
/-- A reset that succeeds, with other parameters and a device's hook to call. -/
theorem witness_ResetValues :
    (driverReset small.params deviceMap [3] oneWordWritten).2 = .ok () ∧
    (driverReset Config.defaults Config.platformMap [] oneWordWritten).2 = .ok () := by decide
theorem witness_LoadThenDumpGivesTheBytes :
    ([0, 0, 0, 0, 0, 0, 0, 7] : List Byte).length = 8 * 1 ∧
    (∀ k < 1, isRam State.reset (0xDFFFFFFF + BitVec.ofNat 64 k) = true) ∧
    ([0, 0, 0, 0, 0, 0, 0, 7, 0, 0, 0, 0, 0, 0, 0, 8] : List Byte).length = 8 * 2 ∧
    isUnmapped State.reset (0xDFFFFFFF + BitVec.ofNat 64 1) = true ∧
    0 < ([1] : List Byte).length ∧ ([1, 2, 3, 4, 5, 6, 7] : List Byte).length < 8 := by decide
theorem witness_LoadedImageIsWhatRuns :
    (∀ k < 3 * [Instr.movRI 6 5, .hlt].length, isRam State.reset (0xA0000000 + BitVec.ofNat 64 k) = true) ∧
    (0xA0000000 + BitVec.ofNat 64 (3 * 1) : Address) ≠ 0 := by decide
theorem witness_HostOperations : regAt 0 = some .flags ∧ validIndex 16 = false ∧ State.reset.fatal = none ∧
    (stopFatal .device State.reset).fatal ≠ none := by decide
theorem witness_EveryStepKeepsTheInvariant : machineInv oneWordWritten ∧ ∃ t, step oneWordWritten = .next t := by
  have cells : ∀ c ∈ oneWordWritten.mem, wordCell 0xA0000000 ≤ c.1 ∧ c.1 < wordCell 0xA0000000 + 8 := by decide
  exact ⟨⟨⟨by decide, fun c hc => ⟨0xA0000000, by decide, cells c hc⟩⟩, fun _ => by decide, by decide,
    ⟨rfl, rfl, rfl, rfl⟩, ⟨rfl, rfl, rfl, rfl⟩⟩, ⟨_, rfl⟩⟩
theorem witness_ResetHasTheInvariant : (driverReset Config.defaults [] [] State.reset).2 = .ok () := by decide

/-! ## The parameters of R10 are arguments -/

theorem test_small_stack :
    executed (.pushI 7) small { small.setReg .sp 0 with stack := [7] } = true ∧
    executed (.pushI 8) { small.setReg .sp 0 with stack := [7] }
      (raise .stackOverflow { small.setReg .sp 0 with stack := [7] }) = true := by decide
theorem test_small_boot : fetchAddress small = 0x100 ∧ fetchAddress (small.setReg .cycle 2) = 0x106 := by decide
theorem test_small_banks :
    executed (.movRI 10 5) small (small.setReg (.index 1) 5) = true ∧
    executed (.movRI 8 5) small (raise .badAddr small) = true := by decide
theorem test_ram_window :
    isRam (State.init { ramBase := 0x10, ramSize := 2 } (Params.ramWindow { ramBase := 0x10, ramSize := 2 }) [] [])
      0x11 = true ∧
    isUnmapped (State.init { ramBase := 0x10, ramSize := 2 } (Params.ramWindow { ramBase := 0x10, ramSize := 2 }) [] [])
      0x12 = true ∧ ({ ramBase := 0x10 } : Params).ioBase = 0x10 := by decide
theorem test_integer_minus : integerWord "-0".toList = .error .outOfRange ∧
    integerWord "-1".toList = .error .outOfRange ∧ integerWord "0".toList = .ok 0 := by decide
theorem test_label_base : assemble { labelBase := 0x40 } [.instruction "nop" [], .label "end",
    .instruction "jmp" [.operand (.identifier "end")]] = .ok [.nop, .jmpM 0x43] := by decide

/-! ## The host's operations: vectors HV1 to HV12 of 95_test_vectors.md -/

/-- The 24 bytes of vector HV9. -/
def hv9Bytes : List Byte :=
  [0x01, 0x2B, 0, 0, 0, 0, 0, 0, 0, 0, 0, 0, 0, 0, 0, 6, 0, 0, 0, 0, 0, 0, 0, 5]

theorem test_vector_HV1_peek : driverPeek 6 State.reset = .ok 0 := by decide
theorem test_vector_HV2_peek : driverPeek 16 State.reset = .error .badIndex := by decide
theorem test_vector_HV3_resume :
    driverResume (stopFatal .badKind State.reset) = (stopFatal .badKind State.reset, .error .stopped) := by decide
theorem test_vector_HV4_resume : driverResume (driverHalt State.reset) = (State.reset, .ok ()) := by decide
theorem test_vector_HV5_poke :
    fetchAddress (driverPoke 4 0 (vectorStart false [(.cycle, 4), (.pc, 0xA000000C)] [] [] none)).1 = 0xA000000C := by
  decide
theorem test_vector_HV6_poke :
    (driverPoke 0 1 State.reset).1.handling = true ∧
    (driverPoke 0 1 State.reset).1.saved = RegFile.zero Config.defaults := by decide
theorem test_vector_HV7_load :
    driverLoad 0xA0000000 [1, 2, 3, 4, 5, 6, 7, 8, 9, 10, 11, 12] State.reset = (State.reset, .error .badLength) := by
  decide
theorem test_vector_HV8_load :
    driverLoad 0x10 [1, 2, 3, 4, 5, 6, 7, 8] State.reset = (State.reset, .error (.transferFailed 0)) := by decide
theorem test_vector_HV9_load :
    (driverLoad 0xA0000000 hv9Bytes State.reset).1.word 0xA0000000 = 0x012B000000000000 ∧
    (driverLoad 0xA0000000 hv9Bytes State.reset).1.word 0xA0000001 = 6 ∧
    (driverLoad 0xA0000000 hv9Bytes State.reset).1.word 0xA0000002 = 5 ∧
    (driverLoad 0xA0000000 hv9Bytes State.reset).1.regs = RegFile.reset Config.defaults := by decide
theorem test_vector_HV10_dump :
    (driverDump 0xA0000000 3 (driverLoad 0xA0000000 hv9Bytes State.reset).1).2 = .ok hv9Bytes := by decide
theorem test_vector_HV11_reset :
    driverReset Config.defaults Config.platformMap Config.peripherals
      { oneWordWritten with fatal := some .device, ivt := vectorTable } =
      (State.reset, .ok ()) := by decide
theorem test_vector_HV12_halt : ran (driverHalt State.reset) (fun t => t == driverHalt State.reset) = true := by decide
theorem test_vector_HV13_status : driverStatus (driverHalt State.reset) =
    { running := false, fatal := none, lastint := none } := by decide

/-! ## The assembler and disassembler (R140 to R153; section 2 of 95_test_vectors.md), and placing a word -/

theorem test_assemble_unknown_register :
    assemble Config.defaults [.instruction "push" [.operand (.register "data10")]] =
      .error .unknownRegister := by decide
theorem test_assemble_stor_pseudo :
    assemble Config.defaults [.instruction "mov" [.operand (.address "A0000100"), .comma, .operand (.integer "0x7")]] =
      .ok [.storMI 0xA0000100 7] := by decide
theorem test_disassemble_stor :
    disassemble Config.defaults (encode (.storMI 0xA0000100 7)) = "stor $0xA0000100, 7" := by decide
theorem test_disassemble_illegal :
    disassemble Config.defaults ⟨0x0036000000000000, 6, 7⟩ = ".word 0x0036000000000000" := by decide
theorem test_step_placed_word :
    ran (State.reset.withFetchWord 64 0x0001000000000000) (fun t => !t.running && t.reg .cycle == 1) = true := by decide

end Sys2Proof.Tests
end

/-! Invalid register indices (10_state.md, R33): which indices pass RegCheck, and what each shared operation and each
instruction does with one that does not. -/

namespace Sys2Proof.Proofs

open Sys2Proof.Machine

/-- There are four banks (R30). -/
theorem bankReg_isSome_iff (bank slot : Nat) : (bankReg bank slot).isSome = true ↔ bank < 4 := by
  rcases bank with _ | _ | _ | _ | n <;> simp [bankReg]

/-- RegCheck for every `BANK_SLOTS`: a scalar, or an index that is not the padding of one of the four banks (R33; log
entry 14). -/
theorem regCheck_iff (p : Params) (i : RegIndex) : regCheck p i = true ↔
    i.toNat < 6 ∨ 6 ≤ i.toNat ∧ (i.toNat - 6) / (p.bankSlots + 1) < 4 ∧
      (i.toNat - 6) % (p.bankSlots + 1) < p.bankSlots := by
  unfold regCheck regOfIndex
  split
  case h_7 n hn =>
    simp only [hn]
    split <;> simp_all [bankReg_isSome_iff]
  all_goals simp_all

theorem regOfIndex_eq_none_iff (p : Params) (i : RegIndex) : regOfIndex p i = none ↔ regCheck p i = false := by
  simp [regCheck]

/-- The host refuses to read a register that no index names (R374). -/
theorem driverPeek_invalid (i : RegIndex) (s : State) (h : regCheck s.params i = false) :
    driverPeek i s = .error .badIndex := by
  simp [driverPeek, (regOfIndex_eq_none_iff _ _).mpr h]

/-- The host refuses to write a register that no index names, and the state stays as it is (R374). -/
theorem driverPoke_invalid (i v : Word) (s : State) (h : regCheck s.params i = false) :
    driverPoke i v s = (s, .error .badIndex) := by
  simp [driverPoke, (regOfIndex_eq_none_iff _ _).mpr h]

section operands
variable {s : State} {r₁ r₂ : RegIndex}

/-- Of two register operands checked one after the other, either raises BADADDR in the state they started in. -/
theorem withReg_withReg_invalid (next : Reg → Reg → State)
    (h : regCheck s.params r₁ = false ∨ regCheck s.params r₂ = false) :
    (withReg r₁ s fun d => withReg r₂ s fun r => next d r) = raise .badAddr s := by
  refine withReg_elim (P := (· = raise .badAddr s)) r₁ s _ (fun _ => rfl) fun d hd => ?_
  have hvalid : regCheck s.params r₁ = true := by simp [regCheck, hd]
  exact withReg_invalid r₂ s _ (by simpa [hvalid] using h)

/-- `AluR` with an invalid index reads and writes nothing (R160). -/
theorem aluR_invalid (f : Word → Word → Option Word)
    (h : regCheck s.params r₁ = false ∨ regCheck s.params r₂ = false) : aluR f r₁ r₂ s = raise .badAddr s :=
  withReg_withReg_invalid _ h

theorem valueOperand_invalid (next : Word → State → State) (h : regCheck s.params r₁ = false) :
    valueOperand .reg r₁ s next = raise .badAddr s :=
  withReg_invalid r₁ s _ h

theorem locationOperand_invalid (next : Word → State) (h : regCheck s.params r₁ = false) :
    locationOperand .reg r₁ s next = raise .badAddr s :=
  withReg_invalid r₁ s _ h

end operands

/-- Every register operand is checked before any other effect, so an instruction with an invalid one raises BADADDR in
the state execution started in (R18, R33). -/
theorem exec_not_wellFormed (i : Instr) (s : State) (h : wellFormed s.params i = false) :
    exec i s = .next (raise .badAddr s) := by
  -- An instruction without a register operand is well-formed, so those cases end here.
  cases i <;> simp only [wellFormed, registerOperands, List.all_cons, List.all_nil, Bool.and_true,
    Bool.and_eq_false_iff, reduceCtorEq] at h
  case addRR | subRR | mulRR | divRR | andRR | orRR | xorRR | norRR | nandRR | lshiftRR | rshiftRR =>
    exact congrArg _ (aluR_invalid _ h)
  case cmpRR | movRR => exact congrArg _ (withReg_withReg_invalid _ h)
  case jitR | jmpR | callR | lditblR => exact congrArg _ (locationOperand_invalid _ h)
  case pushR | intR => exact congrArg _ (valueOperand_invalid _ h)
  case popR | movRM | movRI | movMR => exact congrArg _ (withReg_invalid _ _ _ h)

/-- Settles O32: RegCheck's four ranges by arithmetic from `regCheck_iff` at ten slots, the instructions by the forms
their operands take, the host by its own check. -/
theorem invalidRegisterIndexRaises : Obligations.InvalidRegisterIndexRaises := by
  refine ⟨fun i => ?ranges, exec_not_wellFormed,
    fun i v s h => ⟨driverPeek_invalid i s h, driverPoke_invalid i v s h⟩⟩
  case ranges =>
    have hslots : Config.defaults.bankSlots = 10 := rfl
    rw [regCheck_iff, hslots]
    omega

end Sys2Proof.Proofs

/-! The bus's address decoder and its transactions (20_memory.md, R72 to R74): which region answers an address, and what
a read and a write do for each of its backings. -/

namespace Sys2Proof.Proofs

open Sys2Proof.Machine Sys2Proof.Claims

/-- The bounds of a region as numbers: the start included, the end not (R71). -/
theorem regionContains_iff (r : Region) (a : Address) :
    regionContains r a = true ↔ r.start.toNat ≤ a.toNat ∧ a.toNat < r.stop.toNat := by
  simp [regionContains]

/-- The decoder is the library's search for the first entry that contains the address, with the offset beside it
(R72). -/
theorem decodeAddress_eq_find? (rs : List Region) (a : Address) :
    decodeAddress rs a = (rs.find? (regionContains · a)).map fun r => (r, a - r.start) := by
  induction rs with
  | nil => rfl
  | cons r rest ih =>
    by_cases h : regionContains r a = true
    · simp [decodeAddress, h]
    · simp [decodeAddress, h, ih]

/-- The entry that answers is the first one in registration order that contains the address (R72). -/
theorem decodeAddress_eq_some_iff (rs : List Region) (a : Address) (r : Region) (off : Word) :
    decodeAddress rs a = some (r, off) ↔
      ∃ k : Nat, rs[k]? = some r ∧ regionContains r a = true ∧ off = a - r.start ∧
        ∀ j < k, ∀ q : Region, rs[j]? = some q → ¬ regionContains q a = true := by
  rw [decodeAddress_eq_find?, Option.map_eq_some_iff]
  constructor
  · rintro ⟨r', hfind, heq⟩
    obtain ⟨rfl, rfl⟩ := Prod.mk.inj heq
    obtain ⟨hcontains, k, hk, hget, hbefore⟩ := List.find?_eq_some_iff_getElem.mp hfind
    refine ⟨k, by simp [hk, hget], hcontains, rfl, fun j hj q hq => ?_⟩
    obtain ⟨hlt, rfl⟩ := List.getElem?_eq_some_iff.mp hq
    simpa using hbefore j hj
  · rintro ⟨k, hget, hcontains, rfl, hbefore⟩
    obtain ⟨hk, rfl⟩ := List.getElem?_eq_some_iff.mp hget
    refine ⟨rs[k], List.find?_eq_some_iff_getElem.mpr ⟨hcontains, k, hk, rfl, fun j hj => ?_⟩, rfl⟩
    simpa using hbefore j hj rs[j] (List.getElem?_eq_getElem _)

/-- No region answers exactly where no entry contains the address (R72). -/
theorem decodeAddress_eq_none_iff (rs : List Region) (a : Address) :
    decodeAddress rs a = none ↔ ∀ q ∈ rs, ¬ regionContains q a = true := by
  rw [decodeAddress_eq_find?, Option.map_eq_none_iff, List.find?_eq_none]

section transactions
variable {s : State} {a : Address} {r : Region} {off : Word} {id : DeviceId}

theorem isUnmapped_of_decodeAddress (h : decodeAddress s.regions a = none) : isUnmapped s a = true := by
  simp [isUnmapped, h]

theorem isRam_of_decodeAddress (h : decodeAddress s.regions a = some (r, off)) (hram : r.backing = .ram) :
    isRam s a = true := by
  simp [isRam, h, hram]

/-- A read that a device answers is one call of that device (R73). -/
theorem busRead_device (h : decodeAddress s.regions a = some (r, off)) (hdev : r.backing = .device id) :
    busRead s a = (busAnswer (Config.deviceRead id (deviceLookup s.devices id) off).1,
      s.setDevice id (Config.deviceRead id (deviceLookup s.devices id) off).2) := by
  simp only [busRead, h, hdev]
  rcases Config.deviceRead id (deviceLookup s.devices id) off with ⟨_ | _, d⟩ <;> rfl

/-- A write that a device answers is one call of that device (R74). -/
theorem busWrite_device (w : Word) (h : decodeAddress s.regions a = some (r, off)) (hdev : r.backing = .device id) :
    busWrite s a w = (busAnswer (Config.deviceWrite id (deviceLookup s.devices id) off w).1,
      s.setDevice id (Config.deviceWrite id (deviceLookup s.devices id) off w).2) := by
  simp only [busWrite, h, hdev]
  rcases Config.deviceWrite id (deviceLookup s.devices id) off w with ⟨_ | _, d⟩ <;> rfl

end transactions

/-- Giving a device a state leaves the other devices and the rest of the machine alone (R50, R83). -/
theorem onlyDevice_setDevice (s : State) (id : DeviceId) (d : DeviceState) : onlyDevice id d s (s.setDevice id d) := by
  refine ⟨?own, fun j hj => ?other, rfl⟩
  case own => rw [setDevice_devices, deviceLookup_update, if_pos rfl]
  case other => rw [setDevice_devices, deviceLookup_update, if_neg hj]

/-- Settles O52: the decoder's two answers by the library's search for a first element, the transactions by the backing
of the region that answers. -/
theorem firstMatchingRegionAnswers : Obligations.FirstMatchingRegionAnswers := by
  intro rs a
  simp only [← regionContains_iff]
  refine ⟨decodeAddress_eq_some_iff rs a, decodeAddress_eq_none_iff rs a, ?unmapped, ?ram, ?device⟩
  case unmapped =>
    rintro s w rfl hnone
    have hun := isUnmapped_of_decodeAddress hnone
    exact ⟨busRead_unmapped s a hun, busWrite_unmapped s a w hun⟩
  case ram =>
    rintro s w r rfl hsome hbacking
    have hram := isRam_of_decodeAddress hsome hbacking
    exact ⟨busRead_ram s a hram, _, busWrite_ram s a w hram, setsWord_writeWord s a w⟩
  case device =>
    rintro s w r id rfl hsome hbacking
    exact ⟨⟨_, busRead_device hsome hbacking, onlyDevice_setDevice s id _⟩,
      ⟨_, busWrite_device w hsome hbacking, onlyDevice_setDevice s id _⟩⟩

end Sys2Proof.Proofs

/-! The boot rule and the fetch (30_encoding.md, R131, R132): where a step fetches, and what its three reads come to. -/

namespace Sys2Proof.Proofs

open Sys2Proof.Machine

section booting
variable {s : State}

/-- At a `pc` of zero the boot rule is a jump (R131). -/
theorem boot_of_pc_eq_zero (h : s.regs.pc = 0) : boot s = s.jumpTo (s.params.ioBase + 3 * s.regs.cycle) := if_pos h

theorem boot_of_pc_ne_zero (h : s.regs.pc ≠ 0) : boot s = s := if_neg h

/-- The boot rule applied again does nothing new, even where the boot address is itself 0: it reads only `IO_BASE` and
`cycle`, which it keeps (R131). -/
theorem boot_boot (s : State) : boot (boot s) = boot s := by
  by_cases hpc : s.regs.pc = 0
  · rw [boot_of_pc_eq_zero hpc]
    by_cases haddr : s.params.ioBase + 3 * s.regs.cycle = 0
    · exact boot_of_pc_eq_zero haddr
    · exact boot_of_pc_ne_zero haddr
  · rw [boot_of_pc_ne_zero hpc, boot_of_pc_ne_zero hpc]

theorem enabled_boot (s : State) : (boot s).enabled = s.enabled := by simp [State.enabled]

/-- A step begins with the boot rule (R131, R138). -/
theorem step_boot (he : s.enabled = true) : step (boot s) = step s := by
  simp [step, enabled_boot, boot_boot, he]

/-- The boot address in natural numbers, modulo 2^64 (R131). -/
theorem bootAddress_eq (base cycle : Word) : base + 3 * cycle = BitVec.ofNat 64 (base.toNat + 3 * cycle.toNat) := by
  apply BitVec.eq_of_toNat_eq
  simp

end booting

/-- Settles O40: the boot rule is a write of `pc`, and it is idempotent, so a step may be taken after it. -/
theorem bootRule : Obligations.BootRule := by
  refine ⟨fun s hpc => ?zero, fun s hpc => boot_of_pc_ne_zero hpc, fun s he => (step_boot he).symm,
    fun p map ps ds => ?reset, rfl⟩
  case zero =>
    rw [boot_of_pc_eq_zero hpc, jumpTo_eq_setReg, bootAddress_eq]
    exact setsReg_setReg s .pc _
  case reset =>
    rw [fetchAddress, boot_of_pc_eq_zero rfl]
    simp

section fetching
variable {s : State} {a : Address} (next : Word → State → Fetched)

theorem fetchWord_ram (h : isRam s a = true) : fetchWord a s next = next (s.word a) s := by
  simp only [fetchWord, busRead_ram s a h]

theorem fetchWord_unmapped (h : isUnmapped s a = true) : fetchWord a s next = .raised (raise .badAddr s) := by
  simp only [fetchWord, busRead_unmapped s a h]

end fetching

/-- A fetch that finds its word `n` unmapped, and RAM before it, raises BADADDR and does nothing else (R132). -/
theorem fetch_unmapped (u : State) {n : Nat} (hn : n < 3)
    (hram : ∀ k < n, isRam u (u.regs.pc + BitVec.ofNat 64 k) = true)
    (hun : isUnmapped u (u.regs.pc + BitVec.ofNat 64 n) = true) : fetch u = .raised (raise .badAddr u) := by
  obtain rfl | rfl | rfl : n = 0 ∨ n = 1 ∨ n = 2 := by omega
  · exact fetchWord_unmapped _ (by simpa using hun)
  · have h0 : isRam u u.regs.pc = true := by simpa using hram 0 (by decide)
    rw [fetch, fetchWord_ram _ h0]
    exact fetchWord_unmapped _ hun
  · have h0 : isRam u u.regs.pc = true := by simpa using hram 0 (by decide)
    have h1 : isRam u (u.regs.pc + 1) = true := hram 1 (by decide)
    rw [fetch, fetchWord_ram _ h0, fetchWord_ram _ h1]
    exact fetchWord_unmapped _ hun

/-- A fetch that succeeds writes no register (R132). -/
theorem fetch_words_regs {u t : State} {w : Triplet} (h : fetch u = .words w t) : t.regs = u.regs := by
  rcases fetch_cases u with ⟨ds, hf⟩ | ⟨ds, hf⟩ | ⟨w', ds, hf⟩ <;> rw [hf] at h <;> cases h
  rfl

/-- Settles O41: the reads in order are the fetch's own definition; a step follows what its fetch comes to, and a first
unmapped word after words of RAM decides that. -/
theorem fetchFaults : Obligations.FetchFaults := by
  refine ⟨fun u => ?reads, fun s he => ?phases, fun s n he hn hram hun => ?unmapped⟩
  case reads =>
    unfold fetch fetchWord
    rcases busRead u u.regs.pc with ⟨f0 | _ | _, t⟩
    · dsimp only
      rcases busRead t (u.regs.pc + 1) with ⟨f1 | _ | _, t⟩
      · dsimp only
        rcases busRead t (u.regs.pc + 2) with ⟨f2 | _ | _, t⟩ <;> rfl
      all_goals rfl
    all_goals rfl
  case phases =>
    split
    case h_1 t hf => exact step_raised s t he hf
    case h_2 t hf => exact step_stopped s t he hf
    case h_3 w t hf => exact fetch_words_regs hf
  case unmapped =>
    refine step_raised s _ he (fetch_unmapped (boot s) hn (fun k hk => ?_) ?_)
    · rw [isRam_congr s (boot s) _ (boot_regions s)]
      exact hram k hk
    · rw [isUnmapped_congr s (boot s) _ (boot_regions s)]
      exact hun

end Sys2Proof.Proofs

/-! Operand words a format leaves unused (30_encoding.md, R114, R115): what the rows without them make of any value
there, and what the encoder writes. -/

namespace Sys2Proof.Proofs

open Sys2Proof.Machine Sys2Proof.Claims Sys2Proof.Laws

/-- A row without operands makes one instruction whatever its operand words, which that instruction's own encoding
holds at 0 (R114, R115). -/
theorem row_of_wordsWithoutOperands {w : Word} (hw : w ∈ wordsWithoutOperands) :
    ∃ opc tag i, decodeRow w = .ok ⟨opc, tag, fun _ _ => i⟩ ∧ (encode i).a = 0 ∧ (encode i).v = 0 := by
  simp only [wordsWithoutOperands, List.mem_cons, List.not_mem_nil, or_false] at hw
  rcases hw with rfl | rfl | rfl | rfl
  exacts [
    ⟨0x00, .none, .nop, rfl, rfl, rfl⟩, ⟨0x01, .none, .hlt, rfl, rfl, rfl⟩,
    ⟨0x23, .none, .ret, rfl, rfl, rfl⟩, ⟨0x32, .none, .iret, rfl, rfl, rfl⟩]

/-- A row with one operand makes its instruction of the first operand word alone, and that instruction's encoding holds
0 in the second (R114, R115). -/
theorem row_of_wordsWithOneOperand {w : Word} (hw : w ∈ wordsWithOneOperand) :
    ∃ opc tag, ∃ make : Word → Instr,
      decodeRow w = .ok ⟨opc, tag, fun a _ => make a⟩ ∧ ∀ a, (encode (make a)).v = 0 := by
  simp only [wordsWithOneOperand, List.mem_cons, List.not_mem_nil, or_false] at hw
  rcases hw with rfl | rfl | rfl | rfl | rfl | rfl | rfl | rfl | rfl | rfl | rfl | rfl | rfl | rfl | rfl | rfl | rfl |
    rfl | rfl | rfl
  exacts [
    ⟨0x1A, .reg, .jitR, rfl, fun _ => rfl⟩, ⟨0x1B, .addr, .jitM, rfl, fun _ => rfl⟩,
    ⟨0x1C, .raw, .jitI, rfl, fun _ => rfl⟩, ⟨0x1D, .reg, .jmpR, rfl, fun _ => rfl⟩,
    ⟨0x1E, .addr, .jmpM, rfl, fun _ => rfl⟩, ⟨0x1F, .raw, .jmpI, rfl, fun _ => rfl⟩,
    ⟨0x20, .reg, .callR, rfl, fun _ => rfl⟩, ⟨0x21, .addr, .callM, rfl, fun _ => rfl⟩,
    ⟨0x22, .raw, .callI, rfl, fun _ => rfl⟩, ⟨0x24, .reg, .pushR, rfl, fun _ => rfl⟩,
    ⟨0x25, .addr, .pushM, rfl, fun _ => rfl⟩, ⟨0x26, .raw, .pushI, rfl, fun _ => rfl⟩,
    ⟨0x27, .reg, .popR, rfl, fun _ => rfl⟩, ⟨0x28, .addr, .popM, rfl, fun _ => rfl⟩,
    ⟨0x2F, .reg, .intR, rfl, fun _ => rfl⟩, ⟨0x30, .addr, .intM, rfl, fun _ => rfl⟩,
    ⟨0x31, .raw, .intI, rfl, fun _ => rfl⟩, ⟨0x33, .reg, .lditblR, rfl, fun _ => rfl⟩,
    ⟨0x34, .addr, .lditblM, rfl, fun _ => rfl⟩, ⟨0x35, .raw, .lditblI, rfl, fun _ => rfl⟩]

/-- The decoder reads back what the encoder writes, row by row (R127). -/
theorem decode_encode (i : Instr) : decode (encode i) = .ok i :=
  Instr.casesOn (motive := RoundTrip.Statement) i RoundTrip.nop RoundTrip.hlt
    RoundTrip.addRR RoundTrip.addMM RoundTrip.subRR RoundTrip.subMM RoundTrip.mulRR RoundTrip.mulMM
    RoundTrip.divRR RoundTrip.divMM RoundTrip.andRR RoundTrip.andMM RoundTrip.orRR RoundTrip.orMM
    RoundTrip.xorRR RoundTrip.xorMM RoundTrip.norRR RoundTrip.norMM RoundTrip.nandRR RoundTrip.nandMM
    RoundTrip.lshiftRR RoundTrip.lshiftMM RoundTrip.rshiftRR RoundTrip.rshiftMM RoundTrip.cmpRR RoundTrip.cmpMM
    RoundTrip.jitR RoundTrip.jitM RoundTrip.jitI RoundTrip.jmpR RoundTrip.jmpM RoundTrip.jmpI
    RoundTrip.callR RoundTrip.callM RoundTrip.callI RoundTrip.ret RoundTrip.pushR RoundTrip.pushM RoundTrip.pushI
    RoundTrip.popR RoundTrip.popM RoundTrip.movRR RoundTrip.movRM RoundTrip.movRI RoundTrip.movMR RoundTrip.movMM
    RoundTrip.storMI RoundTrip.intR RoundTrip.intM RoundTrip.intI RoundTrip.iret
    RoundTrip.lditblR RoundTrip.lditblM RoundTrip.lditblI

/-- An instruction is what the row of its own word 0 builds from its own operand words (R127). -/
theorem eq_build_of_decodeRow_encode {i : Instr} {row : OpcodeRow} (h : decodeRow (encode i).w0 = .ok row) :
    i = row.build (encode i).a (encode i).v := by
  have hdec := decode_of_row _ (encode i).a (encode i).v row h
  simpa using (decode_encode i).symm.trans hdec

/-- Settles O47: the decoder's half by the rows the 24 words select, the encoder's half because an instruction is what
its own row builds. -/
theorem unusedWordsAreIgnored : Obligations.UnusedWordsAreIgnored := by
  refine ⟨fun w hw a v b u => ?without, fun w hw a v u => ?one, fun i => ⟨fun hw => ?first, ?second⟩⟩
  case without =>
    obtain ⟨opc, tag, i, hrow, -⟩ := row_of_wordsWithoutOperands hw
    rw [decode_of_row w a v _ hrow, decode_of_row w b u _ hrow]
  case one =>
    obtain ⟨opc, tag, make, hrow, -⟩ := row_of_wordsWithOneOperand hw
    rw [decode_of_row w a v _ hrow, decode_of_row w a u _ hrow]
  case first =>
    obtain ⟨opc, tag, j, hrow, ha, -⟩ := row_of_wordsWithoutOperands hw
    rw [eq_build_of_decodeRow_encode hrow]
    exact ha
  case second =>
    rintro (hw | hw)
    · obtain ⟨opc, tag, j, hrow, -, hv⟩ := row_of_wordsWithoutOperands hw
      rw [eq_build_of_decodeRow_encode hrow]
      exact hv
    · obtain ⟨opc, tag, make, hrow, hv⟩ := row_of_wordsWithOneOperand hw
      rw [eq_build_of_decodeRow_encode hrow]
      exact hv _

end Sys2Proof.Proofs

/-! Labels (30_encoding.md, R145, R149, R150): what collecting the units of a program keeps, and the address a reference
to a unit stands for. -/

namespace Sys2Proof.Proofs

open Sys2Proof.Machine

/-- A line that is an instruction, which R150 counts as three words. -/
def isInstructionLine : Line → Bool
  | .label _ => false
  | .instruction _ _ => true

/-- The number of instructions a program emits (R150). -/
def instructionCount (program : List Line) : Nat := (program.filter isInstructionLine).length

@[simp] theorem instructionCount_nil : instructionCount [] = 0 := rfl

@[simp] theorem instructionCount_label (name : String) (rest : List Line) :
    instructionCount (.label name :: rest) = instructionCount rest := rfl

@[simp] theorem instructionCount_instruction (m : String) (ts : List Token) (rest : List Line) :
    instructionCount (.instruction m ts :: rest) = instructionCount rest + 1 := rfl

section collecting
variable {n : Nat} {units final : Units} {name : String} {before rest program : List Line}

/-- A label is collected exactly when its name is new, and then with the number of instructions before it (R149). -/
theorem collectUnits_label_eq_ok_iff :
    collectUnits n units (.label name :: rest) = .ok final ↔
      units.any (fun u => u.1 == name) = false ∧ collectUnits n (units ++ [(name, n)]) rest = .ok final := by
  cases hname : units.any (fun u => u.1 == name) <;> simp [collectUnits, hname]

/-- Collecting runs over a program's first part and goes on over the rest, the instructions of the first part
counted (R149, R150). -/
theorem collectUnits_append_eq_ok (h : collectUnits n units (before ++ rest) = .ok final) :
    ∃ mid, collectUnits n units before = .ok mid ∧
      collectUnits (n + instructionCount before) mid rest = .ok final := by
  induction before generalizing n units with
  | nil => exact ⟨units, rfl, h⟩
  | cons line before ih =>
    cases line with
    | label name =>
      obtain ⟨hnew, hrest⟩ := collectUnits_label_eq_ok_iff.mp h
      obtain ⟨mid, hmid, hfinal⟩ := ih hrest
      exact ⟨mid, collectUnits_label_eq_ok_iff.mpr ⟨hnew, hmid⟩, hfinal⟩
    | instruction m ts =>
      obtain ⟨mid, hmid, hfinal⟩ := ih (n := n + 1) h
      refine ⟨mid, hmid, ?_⟩
      rwa [instructionCount_instruction, Nat.add_comm (instructionCount before), ← Nat.add_assoc]

/-- Collecting only adds units, after those it has (R149). -/
theorem collectUnits_isPrefix (h : collectUnits n units program = .ok final) : units <+: final := by
  induction program generalizing n units with
  | nil =>
    obtain rfl : units = final := by simpa [collectUnits] using h
    exact List.prefix_rfl
  | cons line rest ih =>
    cases line with
    | label name =>
      obtain ⟨-, hrest⟩ := collectUnits_label_eq_ok_iff.mp h
      exact (List.prefix_append _ _).trans (ih hrest)
    | instruction m ts => exact ih (n := n + 1) h

/-- The one way collecting fails is a name declared twice (R149). -/
theorem collectUnits_cases (n : Nat) (units : Units) (program : List Line) :
    (∃ final, collectUnits n units program = .ok final) ∨
      collectUnits n units program = .error .duplicateFunction := by
  induction program generalizing n units with
  | nil => exact .inl ⟨units, rfl⟩
  | cons line rest ih =>
    cases line with
    | label name =>
      cases hname : units.any (fun u => u.1 == name)
      · simpa [collectUnits, hname] using ih n (units ++ [(name, n)])
      · exact .inr (by simp [collectUnits, hname])
    | instruction m ts => exact ih (n + 1) units

/-- The unit of a label that stands after some lines counts the instructions among them (R150). -/
theorem find?_unit_of_collectUnits (h : collectUnits 0 [] (before ++ .label name :: rest) = .ok final) :
    final.find? (fun u => u.1 == name) = some (name, instructionCount before) := by
  obtain ⟨mid, -, hlabel⟩ := collectUnits_append_eq_ok h
  obtain ⟨hnew, hrest⟩ := collectUnits_label_eq_ok_iff.mp hlabel
  refine (collectUnits_isPrefix hrest).find?_eq_some ?_
  have hnone : mid.find? (fun u => u.1 == name) = none := by simpa using hnew
  simp [List.find?_append, hnone]

/-- A name declared twice is not collected (R149). -/
theorem collectUnits_duplicate_ne_ok (between : List Line) :
    collectUnits n units (before ++ .label name :: (between ++ .label name :: rest)) ≠ .ok final := by
  intro h
  obtain ⟨mid₁, -, hfirst⟩ := collectUnits_append_eq_ok h
  obtain ⟨-, hafter⟩ := collectUnits_label_eq_ok_iff.mp hfirst
  obtain ⟨mid₂, hbetween, hsecond⟩ := collectUnits_append_eq_ok hafter
  obtain ⟨hnew, -⟩ := collectUnits_label_eq_ok_iff.mp hsecond
  have hmem : (name, n + instructionCount before) ∈ mid₂ := (collectUnits_isPrefix hbetween).subset (by simp)
  simpa using List.any_eq_false.mp hnew _ hmem

end collecting

/-- A reference to a collected unit is `LABEL_BASE` plus three words for each instruction before it (R145, R150). -/
theorem operandWord_identifier {units : Units} {name : String} {k : Nat} (p : Params)
    (h : units.find? (fun u => u.1 == name) = some (name, k)) :
    operandWord p units (.identifier name) = .ok (.mem, p.labelBase + BitVec.ofNat 64 (3 * k)) := by
  simp [operandWord, unitOffset, h]

/-- Settles O51: a collected label keeps the count it was declared with, and a second declaration of its name is the
failure collecting has. -/
theorem labelsNameTheirWords : Obligations.LabelsNameTheirWords := by
  refine ⟨rfl, fun p before rest name units h => ?reference, fun before between rest name => ?duplicate⟩
  case reference =>
    exact operandWord_identifier p (find?_unit_of_collectUnits h)
  case duplicate =>
    exact (collectUnits_cases 0 [] _).resolve_left fun ⟨_, h⟩ => collectUnits_duplicate_ne_ok between h

end Sys2Proof.Proofs

/-! Arithmetic, shift, divide and compare (40_alu.md): what the operations on words come to in natural numbers, what
`AluR` and `AluM` do with them, and from these each form's rule. -/

namespace Sys2Proof.Proofs

open Sys2Proof.Machine Sys2Proof.Claims

section words
variable (a b : Word)

/-- R162's right-hand side. -/
theorem addWords_eq : addWords a b = BitVec.ofNat 64 ((a.toNat + b.toNat) % 2 ^ 64) :=
  BitVec.eq_of_toNat_eq (by simp [addWords])

/-- R164's right-hand side: the borrow wraps. -/
theorem subWords_eq : subWords a b = BitVec.ofNat 64 ((a.toNat + (2 ^ 64 - b.toNat)) % 2 ^ 64) :=
  BitVec.eq_of_toNat_eq (by simp [subWords, BitVec.toNat_sub, Nat.add_comm])

/-- R166's right-hand side: the low 64 bits of the product. -/
theorem mulWords_eq : mulWords a b = BitVec.ofNat 64 (a.toNat * b.toNat % 2 ^ 64) :=
  BitVec.eq_of_toNat_eq (by simp [mulWords])

/-- R180's right-hand side, the amount unmasked. -/
theorem lshiftWords_eq : lshiftWords a b = BitVec.ofNat 64 (shiftLeftNat a.toNat b.toNat) := by
  unfold lshiftWords shiftLeftNat
  split
  · rfl
  · apply BitVec.eq_of_toNat_eq
    simp [Nat.shiftLeft_eq]

/-- R182's right-hand side, the amount unmasked. -/
theorem rshiftWords_eq : rshiftWords a b = BitVec.ofNat 64 (shiftRightNat a.toNat b.toNat) := by
  unfold rshiftWords shiftRightNat
  split
  · rfl
  · rw [← Nat.shiftRight_eq_div_pow, ← BitVec.toNat_ushiftRight, BitVec.ofNat_toNat, BitVec.setWidth_eq]

@[simp] theorem divWords_zero : divWords a 0 = none := rfl

/-- R168's right-hand side: the unsigned quotient. -/
theorem divWords_of_ne_zero (hb : b ≠ 0) : divWords a b = some (BitVec.ofNat 64 (a.toNat / b.toNat)) := by
  rw [divWords, if_neg hb, ← BitVec.toNat_udiv, BitVec.ofNat_toNat, BitVec.setWidth_eq]

/-- What CMP writes, by the words' numbers (R184). -/
theorem compareWords_eq : compareWords a b = if a.toNat = b.toNat then 1 else 0 := by
  simp [compareWords, boolWord, BitVec.toNat_inj]

end words

section registers
variable {f : Word → Word → Option Word} {a v : RegIndex} {d r : Reg} {w : Word} {s : State}

/-- Of two valid register operands, both are read and the operation goes on (R160). -/
theorem withReg_withReg_valid (next : Reg → Reg → State) (hd : regOfIndex s.params a = some d)
    (hr : regOfIndex s.params v = some r) : (withReg a s fun d => withReg v s fun r => next d r) = next d r := by
  rw [withReg_valid a s _ d hd, withReg_valid v s _ r hr]

/-- `AluR` writes the result to its first operand (R160). -/
theorem aluR_of_some (hd : regOfIndex s.params a = some d) (hr : regOfIndex s.params v = some r)
    (hf : f (s.reg d) (s.reg r) = some w) : aluR f a v s = s.setReg d w := by
  rw [aluR, withReg_withReg_valid _ hd hr, hf]

/-- `AluR` raises DIVBYZERO, before any write, where the operation gives no result (R160, R168). -/
theorem aluR_of_none (hd : regOfIndex s.params a = some d) (hr : regOfIndex s.params v = some r)
    (hf : f (s.reg d) (s.reg r) = none) : aluR f a v s = raise .divByZero s := by
  rw [aluR, withReg_withReg_valid _ hd hr, hf]

end registers

section memory
variable {f : Word → Word → Option Word} {a v : Address} {w : Word} {s : State}

/-- Two reads that RAM answers give the words it holds, and change nothing (R79). -/
theorem memRead_memRead_ram (next : Word → Word → State → State) (ha : isRam s a = true) (hv : isRam s v = true) :
    (memRead a s fun x s => memRead v s fun y s => next x y s) = next (s.word a) (s.word v) s := by
  rw [memRead_ram a s _ ha, memRead_ram v s _ hv]

/-- Of two reads one after the other, the first that is unmapped raises BADADDR in the state they started in, where
RAM answers the one before it (R75). -/
theorem memRead_memRead_unmapped (next : Word → Word → State → State)
    (h : isUnmapped s a = true ∨ isRam s a = true ∧ isUnmapped s v = true) :
    (memRead a s fun x s => memRead v s fun y s => next x y s) = raise .badAddr s := by
  rcases h with ha | ⟨ha, hv⟩
  · exact memRead_unmapped a s _ ha
  · rw [memRead_ram a s _ ha, memRead_unmapped v s _ hv]

/-- `AluM` over RAM stores the result in its first word (R161). -/
theorem aluM_ram_of_some (ha : isRam s a = true) (hv : isRam s v = true) (hf : f (s.word a) (s.word v) = some w) :
    aluM f a v s = { s with mem := s.mem.writeWord a w } := by
  rw [aluM, memRead_memRead_ram _ ha hv, hf]
  exact memWrite_ram a w s _ ha

/-- `AluM` over RAM raises DIVBYZERO, before any write, where the operation gives no result (R161, R169). -/
theorem aluM_ram_of_none (ha : isRam s a = true) (hv : isRam s v = true) (hf : f (s.word a) (s.word v) = none) :
    aluM f a v s = raise .divByZero s := by
  rw [aluM, memRead_memRead_ram _ ha hv, hf]

/-- `AluM` with an unmapped operand writes nothing (R161). -/
theorem aluM_unmapped (f : Word → Word → Option Word)
    (h : isUnmapped s a = true ∨ isRam s a = true ∧ isUnmapped s v = true) : aluM f a v s = raise .badAddr s :=
  memRead_memRead_unmapped _ h

/-- `AluM` of an operation that never raises is its three transactions in order (R161). -/
theorem aluM_total_answered (op : Word → Word → Word) (a v : Address) (s : State) :
    aluM (total op) a v s =
      answered (busRead s a) fun x s1 =>
      answered (busRead s1 v) fun y s2 =>
      answered (busWrite s2 a (op x y)) fun _ s3 => s3 := by
  simp only [aluM, total, memRead_answered, memWrite_answered]

/-- The divide of memory words: both reads come before the divisor's check, and the write after it (R169). -/
theorem aluM_divWords_answered (a v : Address) (s : State) :
    aluM divWords a v s =
      answered (busRead s a) fun x s1 =>
      answered (busRead s1 v) fun y s2 =>
      if y = 0 then raise .divByZero s2
      else answered (busWrite s2 a (BitVec.ofNat 64 (x.toNat / y.toNat))) fun _ s3 => s3 := by
  simp only [aluM, memRead_answered, memWrite_answered]
  congr 1
  funext x s1
  congr 1
  funext y s2
  by_cases hy : y = 0
  · rw [hy, divWords_zero, if_pos rfl]
  · rw [divWords_of_ne_zero x y hy, if_neg hy]

end memory

section forms
variable {w0 : Word} {build : Word → Word → Instr} {op : Word → Word → Word} {f : Nat → Nat → Nat}

/-- The word 0 that the encoder writes for an instruction decodes to it, with its operand words (R127). -/
theorem decode_of_encode_eq {i : Instr} {a v : Word} (h : encode i = ⟨w0, a, v⟩) :
    decode { w0 := w0, a := a, v := v } = .ok i := by
  rw [← h]
  exact decode_encode i

/-- A register form keeps R160 where its meaning is `AluR` of an operation that is `f` in natural numbers. -/
theorem aluRegisterRule_of_exec (hword : ∀ a v, encode (build a v) = ⟨w0, a, v⟩)
    (hexec : ∀ a v s, exec (build a v) s = .next (aluR (total op) a v s))
    (hop : ∀ x y, op x y = BitVec.ofNat 64 (f x.toNat y.toNat)) : aluRegisterRule w0 build f := by
  intro a v s
  simp only [hexec, ← hop]
  refine ⟨decode_of_encode_eq (hword a v), fun d r hd hr => ?valid, fun h => ?invalid⟩
  case valid => exact ⟨_, congrArg _ (aluR_of_some hd hr rfl), setsReg_setReg s d _⟩
  case invalid => exact congrArg _ (aluR_invalid _ h)

/-- A memory form keeps R161 where its meaning is `AluM` of an operation that is `f` in natural numbers. -/
theorem aluMemoryRule_of_exec (hword : ∀ a v, encode (build a v) = ⟨w0, a, v⟩)
    (hexec : ∀ a v s, exec (build a v) s = .next (aluM (total op) a v s))
    (hop : ∀ x y, op x y = BitVec.ofNat 64 (f x.toNat y.toNat)) : aluMemoryRule w0 build f := by
  intro a v s
  simp only [hexec, ← hop]
  refine ⟨decode_of_encode_eq (hword a v), ?transactions, fun ha hv => ?ram, fun h => ?unmapped⟩
  case transactions => exact congrArg _ (aluM_total_answered op a v s)
  case ram => exact ⟨_, congrArg _ (aluM_ram_of_some ha hv rfl), setsWord_writeWord s a _⟩
  case unmapped => exact congrArg _ (aluM_unmapped _ h)

end forms

section exec
variable (a v : Word) (s : State)

/-- `div %rd, %rs` is `AluR` of the division (R168). -/
theorem exec_divRR_eq : exec (.divRR a v) s = .next (aluR divWords a v s) := rfl

/-- `div $d, $s` is `AluM` of the division (R169). -/
theorem exec_divMM_eq : exec (.divMM a v) s = .next (aluM divWords a v s) := rfl

/-- `cmp %ra, %rb` checks both indices and writes `tmp` (R184). -/
theorem exec_cmpRR_eq : exec (.cmpRR a v) s =
    .next (withReg a s fun p => withReg v s fun q => s.setReg .tmp (compareWords (s.reg p) (s.reg q))) := rfl

/-- `cmp $a, $b` reads both words and writes `tmp` (R185). -/
theorem exec_cmpMM_eq : exec (.cmpMM a v) s =
    .next (memRead a s fun x s => memRead v s fun y s => s.setReg .tmp (compareWords x y)) := rfl

end exec

/-- Settles O1: each is `AluR` of an operation exact modulo 2^64. -/
theorem arithmeticRegisterForms : Obligations.ArithmeticRegisterForms :=
  ⟨aluRegisterRule_of_exec (fun _ _ => rfl) (fun _ _ _ => rfl) addWords_eq,
    aluRegisterRule_of_exec (fun _ _ => rfl) (fun _ _ _ => rfl) subWords_eq,
    aluRegisterRule_of_exec (fun _ _ => rfl) (fun _ _ _ => rfl) mulWords_eq⟩

/-- Settles O3: each is `AluR` of a shift by the whole word. -/
theorem shiftRegisterForms : Obligations.ShiftRegisterForms :=
  ⟨aluRegisterRule_of_exec (fun _ _ => rfl) (fun _ _ _ => rfl) lshiftWords_eq,
    aluRegisterRule_of_exec (fun _ _ => rfl) (fun _ _ _ => rfl) rshiftWords_eq⟩

/-- Settles O4, by what the division gives for the divisor; the index check does not depend on it. -/
theorem divideRegisterForm : Obligations.DivideRegisterForm := by
  intro a v s
  simp only [exec_divRR_eq]
  refine ⟨decode_of_encode_eq rfl, fun d r hd hr => ⟨fun hne => ?quotient, fun hzero => ?zero⟩, fun h => ?invalid⟩
  case quotient =>
    exact ⟨_, congrArg _ (aluR_of_some hd hr (divWords_of_ne_zero _ _ hne)), setsReg_setReg s d _⟩
  case zero => exact congrArg _ (aluR_of_none hd hr (by rw [hzero, divWords_zero]))
  case invalid => exact congrArg _ (aluR_invalid _ h)

/-- Settles O5: each is `AluM` of an operation exact modulo 2^64. -/
theorem arithmeticMemoryForms : Obligations.ArithmeticMemoryForms :=
  ⟨aluMemoryRule_of_exec (fun _ _ => rfl) (fun _ _ _ => rfl) addWords_eq,
    aluMemoryRule_of_exec (fun _ _ => rfl) (fun _ _ _ => rfl) subWords_eq,
    aluMemoryRule_of_exec (fun _ _ => rfl) (fun _ _ _ => rfl) mulWords_eq⟩

/-- Settles O7: each is `AluM` of a shift by the whole word. -/
theorem shiftMemoryForms : Obligations.ShiftMemoryForms :=
  ⟨aluMemoryRule_of_exec (fun _ _ => rfl) (fun _ _ _ => rfl) lshiftWords_eq,
    aluMemoryRule_of_exec (fun _ _ => rfl) (fun _ _ _ => rfl) rshiftWords_eq⟩

/-- Settles O8: the transactions by the order of `AluM`, the outcomes over RAM by what the division gives. -/
theorem divideMemoryForm : Obligations.DivideMemoryForm := by
  intro a v s
  simp only [exec_divMM_eq]
  refine ⟨decode_of_encode_eq rfl, ?transactions, fun ha hv => ⟨fun hne => ?quotient, fun hzero => ?zero⟩,
    fun h => ?unmapped⟩
  case transactions => exact congrArg _ (aluM_divWords_answered a v s)
  case quotient =>
    exact ⟨_, congrArg _ (aluM_ram_of_some ha hv (divWords_of_ne_zero _ _ hne)), setsWord_writeWord s a _⟩
  case zero => exact congrArg _ (aluM_ram_of_none ha hv (by rw [hzero, divWords_zero]))
  case unmapped => exact congrArg _ (aluM_unmapped _ h)

/-- Settles O9: CMP is one write of `tmp`, after both index checks. -/
theorem compareRegisterForm : Obligations.CompareRegisterForm := by
  intro a v s
  simp only [exec_cmpRR_eq, ← compareWords_eq]
  refine ⟨decode_of_encode_eq rfl, fun p q hp hq => ?valid, fun h => ?invalid⟩
  case valid => exact ⟨_, congrArg _ (withReg_withReg_valid _ hp hq), setsReg_setReg s .tmp _⟩
  case invalid => exact congrArg _ (withReg_withReg_invalid _ h)

/-- Settles O10: CMP is one write of `tmp`, after both reads. -/
theorem compareMemoryForm : Obligations.CompareMemoryForm := by
  intro a v s
  simp only [exec_cmpMM_eq, ← compareWords_eq]
  refine ⟨decode_of_encode_eq rfl, ?transactions, fun ha hv => ?ram, fun h => ?unmapped⟩
  case transactions => simp only [memRead_answered]
  case ram => exact ⟨_, congrArg _ (memRead_memRead_ram _ ha hv), setsReg_setReg s .tmp _⟩
  case unmapped => exact congrArg _ (memRead_memRead_unmapped _ h)

end Sys2Proof.Proofs

/-! Control transfer (41_control.md): what a location operand and the stack primitives come to, and from these what
JIT, JMP, CALL and RET write and leave alone. -/

namespace Sys2Proof.Proofs

open Sys2Proof.Machine Sys2Proof.Claims

section decoding
variable {w0 a : Word} {i : Instr}

/-- A row without operands decodes as the encoder's words do, whatever stands in the unused ones (R115). -/
theorem decode_of_wordsWithoutOperands (hw : w0 ∈ wordsWithoutOperands) (h : encode i = ⟨w0, 0, 0⟩) (a v : Word) :
    decode { w0 := w0, a := a, v := v } = .ok i := by
  obtain ⟨hignored, -⟩ := unusedWordsAreIgnored
  exact (hignored w0 hw a v 0 0).trans (decode_of_encode_eq h)

/-- A row with one operand decodes as the encoder's words do, whatever stands in the unused one (R115). -/
theorem decode_of_wordsWithOneOperand (hw : w0 ∈ wordsWithOneOperand) (h : encode i = ⟨w0, a, 0⟩) (v : Word) :
    decode { w0 := w0, a := a, v := v } = .ok i := by
  obtain ⟨-, hignored, -⟩ := unusedWordsAreIgnored
  exact (hignored w0 hw a v 0).trans (decode_of_encode_eq h)

end decoding

section operands
variable {s : State} {kind : OperandKind} {w t : Word} {r : Reg}

/-- The register form of a location operand gives the register's contents (R121). -/
theorem operandLocation_reg (hr : regOfIndex s.params w = some r) : operandLocation s (.reg, w) = some (s.reg r) := by
  simp [operandLocation, hr]

/-- A location operand that gives a word goes on with it, whatever its kind (R121). -/
theorem locationOperand_of_some (next : Word → State) (h : operandLocation s (kind, w) = some t) :
    locationOperand kind w s next = next t := by
  cases kind with
  | reg =>
    obtain ⟨r, hr, rfl⟩ := Option.map_eq_some_iff.mp h
    exact withReg_valid w s _ r hr
  | mem | imm => exact congrArg next (Option.some.inj h)

end operands

section stackChecks
variable {s : State}

/-- R230's check is the statements' `hasRoom`. -/
theorem stackFull_eq_false_iff : s.stackFull = false ↔ hasRoom s := by
  simp [State.stackFull, Nat.pos_iff_ne_zero]

/-- R231's check is the statements' `hasEntry`. -/
theorem stackEmpty_eq_false_iff : s.stackEmpty = false ↔ hasEntry s := by
  simp [State.stackEmpty]

/-- A push without room raises and is not followed by anything (R230). -/
theorem push_of_not_hasRoom (v : Word) (next : State → State) (h : ¬ hasRoom s) :
    push v s next = raise .stackOverflow s :=
  push_elim (P := (· = raise .stackOverflow s)) v s next (fun _ => rfl)
    fun hroom => absurd (stackFull_eq_false_iff.mp hroom) h

/-- A pop of an empty stack raises and is not followed by anything (R231). -/
theorem pop_of_not_hasEntry (next : Word → State) (h : ¬ hasEntry s) : pop s next = raise .stackOverflow s :=
  pop_elim (P := (· = raise .stackOverflow s)) s next (fun _ => rfl)
    fun hentry => absurd (stackEmpty_eq_false_iff.mp hentry) h

/-- A pop that finds an entry goes on with the top one (R231). -/
theorem pop_of_hasEntry (next : Word → State) (h : hasEntry s) : pop s next = next (s.stackAt s.regs.sp.toNat) := by
  rw [pop, stackEmpty_eq_false_iff.mpr h]
  rfl

end stackChecks

/-- The state a push goes on with when it finds room (R230). -/
def pushed (v : Word) (s : State) : State :=
  { s with
    regs := { s.regs with sp := s.regs.sp - 1 }
    stack := setEntry 0 s.stack (s.regs.sp - 1).toNat v }

section frames
variable {s t : State} {but : List Reg} {v : Word}

/-- A push that finds room goes on in `pushed` (R230). -/
theorem push_of_hasRoom (v : Word) (next : State → State) (h : hasRoom s) : push v s next = next (pushed v s) := by
  rw [push, stackFull_eq_false_iff.mpr h]
  rfl

/-- A push that finds room is the statements' `pushes`: `sp` does not wrap, as it is not 0 (R230). -/
theorem pushes_pushed (v : Word) (h : hasRoom s) : pushes v [] s (pushed v s) := by
  obtain ⟨hpos, -⟩ := h
  refine ⟨?sp, ?top, fun k hk => ?others, fun r hr => ?registers, fun _ _ => rfl, ⟨rfl, rfl, rfl⟩, ⟨rfl, rfl⟩,
    ⟨⟨rfl, rfl, rfl, rfl⟩, rfl⟩⟩
  case sp =>
    show (s.regs.sp - 1).toNat + 1 = s.regs.sp.toNat
    bv_omega
  case top => exact (entryAt_setEntry ..).trans (if_pos rfl)
  case others => exact (entryAt_setEntry ..).trans (if_neg hk)
  case registers => exact reg_setReg_other s .sp r (s.regs.sp - 1) (by simpa using hr)

/-- Writing one more register adds it to those that may differ. -/
theorem regsKept_setReg (d : Reg) (w : Word) (h : regsKept but s t) : regsKept (d :: but) s (t.setReg d w) := by
  intro r hr
  obtain ⟨hne, hmem⟩ : r ≠ d ∧ r ∉ but := by simpa using hr
  rw [reg_setReg_other t d r w hne, h r hmem]

/-- Writing one more register keeps the rest of the frame. -/
theorem onlyRegs_setReg_of_onlyRegs (d : Reg) (w : Word) (h : onlyRegs but s t) :
    onlyRegs (d :: but) s (t.setReg d w) := by
  obtain ⟨hregs, hrest⟩ := h
  exact ⟨regsKept_setReg d w hregs, hrest⟩

/-- A jump after a push leaves what the push did alone. -/
theorem pushes_jumpTo (a : Address) (h : pushes v but s t) : pushes v (.pc :: but) s (t.jumpTo a) := by
  obtain ⟨hsp, htop, hothers, hregs, hrest⟩ := h
  refine ⟨hsp, htop, hothers, fun r hr => ?_, hrest⟩
  exact regsKept_setReg .pc a hregs r fun hmem => hr ((List.Perm.swap ..).mem_iff.mp hmem)

end frames

section transfers
variable {s : State} {kind : OperandKind} {w t : Word}

/-- A jump that is taken writes `pc` (R201 to R203). -/
theorem setsReg_jumpIfTrue (htmp : s.reg .tmp ≠ 0) (h : operandLocation s (kind, w) = some t) :
    setsReg .pc t s (jumpIfTrue kind w s) := by
  have hcond : s.jumpCondition = true := bne_iff_ne.mpr htmp
  rw [jumpIfTrue, locationOperand_of_some _ h, if_pos hcond]
  exact setsReg_setReg s .pc t

/-- A jump that is not taken leaves the state as it is, once its operand has passed (R201 to R203). -/
theorem jumpIfTrue_of_tmp_eq_zero (htmp : s.reg .tmp = 0) (h : operandLocation s (kind, w) = some t) :
    jumpIfTrue kind w s = s := by
  have hcond : ¬ s.jumpCondition = true := fun htaken => bne_iff_ne.mp htaken htmp
  rw [jumpIfTrue, locationOperand_of_some _ h, if_neg hcond]

/-- JMP writes `pc` (R204 to R206). -/
theorem setsReg_jump (h : operandLocation s (kind, w) = some t) : setsReg .pc t s (jump kind w s) := by
  rw [jump, locationOperand_of_some _ h]
  exact setsReg_setReg s .pc t

/-- CALL with room jumps to the target its operand gave before the push, with the old `pc` pushed (R207 to R209). -/
theorem callTo_of_hasRoom (hroom : hasRoom s) (h : operandLocation s (kind, w) = some t) :
    (callTo kind w s).reg .pc = t ∧ pushes (s.reg .pc) [.pc] s (callTo kind w s) := by
  rw [callTo, locationOperand_of_some _ h, push_of_hasRoom _ _ hroom]
  exact ⟨rfl, pushes_jumpTo t (pushes_pushed _ hroom)⟩

/-- CALL without room raises, once its operand has passed (R207 to R209). -/
theorem callTo_of_not_hasRoom (hfull : ¬ hasRoom s) (h : operandLocation s (kind, w) = some t) :
    callTo kind w s = raise .stackOverflow s := by
  rw [callTo, locationOperand_of_some _ h, push_of_not_hasRoom _ _ hfull]

/-- `ret` is a pop into `pc` (R210). -/
theorem exec_ret_eq (s : State) : exec .ret s = .next (pop s fun t => s.dropTop.jumpTo t) := rfl

/-- The commit of `ret` writes `sp` and `pc` (R210). -/
theorem onlyRegs_dropTop_jumpTo (s : State) (t : Address) : onlyRegs [.pc, .sp] s (s.dropTop.jumpTo t) :=
  onlyRegs_setReg_of_onlyRegs .pc t (onlyRegs_setReg s .sp _)

/-- `sp` does not wrap where the stack has an entry, as it is below `STACK_CAPACITY` (R231). -/
theorem toNat_sp_add_one (h : hasEntry s) : (s.regs.sp + 1).toNat = s.regs.sp.toNat + 1 := by
  have hcap := s.params.stackCapacity.isLt
  bv_omega

end transfers

/-- Settles O11, by `tmp`; the operand is checked before `tmp` matters. -/
theorem jumpIfTrueForms : Obligations.JumpIfTrueForms := by
  intro a v s
  refine ⟨decode_of_wordsWithOneOperand (by decide) rfl v,
    decode_of_wordsWithOneOperand (by decide) rfl v,
    decode_of_wordsWithOneOperand (by decide) rfl v,
    fun htmp => ⟨fun r hr => ?register, ?memory, ?immediate⟩,
    fun htmp => ⟨fun hcheck => ?registerStays, ?memoryStays, ?immediateStays⟩, fun h => ?invalid⟩
  case register => exact ⟨_, rfl, setsReg_jumpIfTrue htmp (operandLocation_reg hr)⟩
  case memory => exact ⟨_, rfl, setsReg_jumpIfTrue (kind := .mem) htmp rfl⟩
  case immediate => exact ⟨_, rfl, setsReg_jumpIfTrue (kind := .imm) htmp rfl⟩
  case registerStays =>
    obtain ⟨r, hr⟩ := (Machine.regCheck_iff _ _).mp hcheck
    exact congrArg _ (jumpIfTrue_of_tmp_eq_zero htmp (operandLocation_reg hr))
  case memoryStays => exact congrArg _ (jumpIfTrue_of_tmp_eq_zero (kind := .mem) htmp rfl)
  case immediateStays => exact congrArg _ (jumpIfTrue_of_tmp_eq_zero (kind := .imm) htmp rfl)
  case invalid => exact congrArg _ (locationOperand_invalid _ h)

/-- Settles O12: JMP goes on with its operand's word in each form. -/
theorem jumpForms : Obligations.JumpForms := by
  intro a v s
  refine ⟨decode_of_wordsWithOneOperand (by decide) rfl v,
    decode_of_wordsWithOneOperand (by decide) rfl v,
    decode_of_wordsWithOneOperand (by decide) rfl v, fun r hr => ?register,
    ?memory, ?immediate, fun h => ?invalid⟩
  case register => exact ⟨_, rfl, setsReg_jump (operandLocation_reg hr)⟩
  case memory => exact ⟨_, rfl, setsReg_jump (kind := .mem) rfl⟩
  case immediate => exact ⟨_, rfl, setsReg_jump (kind := .imm) rfl⟩
  case invalid => exact congrArg _ (locationOperand_invalid _ h)

/-- Settles O13: the operand gives its word or raises before the stack is checked, and the push and the jump follow
together or not at all. -/
theorem callForms : Obligations.CallForms := by
  intro a v s
  refine ⟨decode_of_wordsWithOneOperand (by decide) rfl v,
    decode_of_wordsWithOneOperand (by decide) rfl v,
    decode_of_wordsWithOneOperand (by decide) rfl v,
    fun hroom => ⟨fun r hr => ?register, ?memory, ?immediate⟩,
    fun hfull => ⟨fun hcheck => ?registerFull, ?memoryFull, ?immediateFull⟩, fun h => ?invalid⟩
  case register => exact ⟨_, rfl, callTo_of_hasRoom hroom (operandLocation_reg hr)⟩
  case memory => exact ⟨_, rfl, callTo_of_hasRoom (kind := .mem) hroom rfl⟩
  case immediate => exact ⟨_, rfl, callTo_of_hasRoom (kind := .imm) hroom rfl⟩
  case registerFull =>
    obtain ⟨r, hr⟩ := (Machine.regCheck_iff _ _).mp hcheck
    exact congrArg _ (callTo_of_not_hasRoom hfull (operandLocation_reg hr))
  case memoryFull => exact congrArg _ (callTo_of_not_hasRoom (kind := .mem) hfull rfl)
  case immediateFull => exact congrArg _ (callTo_of_not_hasRoom (kind := .imm) hfull rfl)
  case invalid => exact congrArg _ (locationOperand_invalid _ h)

/-- Settles O14, by whether the pop finds an entry. -/
theorem returnForm : Obligations.ReturnForm := by
  intro a v s
  simp only [exec_ret_eq]
  refine ⟨decode_of_wordsWithoutOperands (by decide) rfl a v, fun hentry => ?entry, fun hempty => ?empty⟩
  case entry =>
    exact ⟨_, congrArg _ (pop_of_hasEntry _ hentry), rfl, toNat_sp_add_one hentry, onlyRegs_dropTop_jumpTo s _⟩
  case empty => exact congrArg _ (pop_of_not_hasEntry _ hempty)

end Sys2Proof.Proofs

/-! The stack instructions (42_stack.md): what a value operand comes to where no device answers it, the stack check
after a read, and from these what PUSH and POP write and leave alone. -/

namespace Sys2Proof.Proofs

open Sys2Proof.Machine Sys2Proof.Claims

section valueOperands
variable {s : State} {a : Word} {r : Reg} (next : Word → State → State)

/-- The register form of a value operand gives the register's contents (R120). -/
theorem valueOperand_reg (hr : regOfIndex s.params a = some r) : valueOperand .reg a s next = next (s.reg r) s :=
  withReg_valid a s _ r hr

/-- The memory form of a value operand gives the word where RAM holds it, and changes nothing (R120, R79). -/
theorem valueOperand_ram (h : isRam s a = true) : valueOperand .mem a s next = next (s.word a) s :=
  memRead_ram a s next h

/-- The memory form of a value operand raises BADADDR where no region answers (R120, R75). -/
theorem valueOperand_unmapped (h : isUnmapped s a = true) : valueOperand .mem a s next = raise .badAddr s :=
  memRead_unmapped a s next h

/-- The memory form of a value operand is one read and what follows its answer (R19, R120). -/
theorem valueOperand_mem_answered (a : Address) (s : State) :
    valueOperand .mem a s next = answered (busRead s a) next :=
  memRead_answered a s next

end valueOperands

/-- What follows an answer matters only in the state the transaction left (R19). -/
theorem answered_congr {α : Type} {q : BusResult α × State} {f g : α → State → State} (h : ∀ x, f x q.2 = g x q.2) :
    answered q f = answered q g := by
  obtain ⟨x | _ | _, t⟩ := q
  · exact h x
  · rfl
  · rfl

section pushing
variable {s : State}

/-- `push %r` (R232). -/
theorem exec_pushR_eq (a : RegIndex) (s : State) : exec (.pushR a) s = .next (pushOperand .reg a s) := rfl

/-- `push $a` (R233). -/
theorem exec_pushM_eq (a : Address) (s : State) : exec (.pushM a) s = .next (pushOperand .mem a s) := rfl

/-- `push imm` pushes it without a read (R234). -/
theorem exec_pushI_eq (imm : Imm) (s : State) : exec (.pushI imm) s = .next (push imm s fun t => t) := rfl

/-- A read finds as much room on the stack as there was: it changes at most a device (R73, R230). -/
theorem hasRoom_busRead_iff (s : State) (a : Address) : hasRoom (busRead s a).2 ↔ hasRoom s := by
  obtain ⟨ds, hds⟩ := busRead_state s a
  rw [hds]

/-- A push with room that nothing follows is the statements' `pushes` (R230). -/
theorem pushes_push (v : Word) (h : hasRoom s) : pushes v [] s (push v s fun t => t) := by
  rw [push_of_hasRoom v _ h]
  exact pushes_pushed v h

/-- `push $a` without room makes its read, and raises in the state that leaves (R233). -/
theorem pushOperand_mem_of_not_hasRoom (a : Address) (h : ¬ hasRoom s) :
    pushOperand .mem a s = answered (busRead s a) fun _ t => raise .stackOverflow t := by
  have hfull : ¬ hasRoom (busRead s a).2 := mt (hasRoom_busRead_iff s a).mp h
  rw [pushOperand, valueOperand_mem_answered]
  exact answered_congr fun v => push_of_not_hasRoom v _ hfull

end pushing

section popping
variable {s : State} {a : Word} {d : Reg}

/-- `pop %r` checks its index, then the stack, and writes `sp` before its destination (R235). -/
theorem exec_popR_eq (a : RegIndex) (s : State) :
    exec (.popR a) s = .next (withReg a s fun d => pop s fun v => s.dropTop.setReg d v) := rfl

/-- `pop $a` checks the stack, then writes, then moves `sp` (R236). -/
theorem exec_popM_eq (a : Address) (s : State) :
    exec (.popM a) s = .next (pop s fun v => memWrite a v s State.dropTop) := rfl

/-- The commit of `pop %r` writes `sp` and the destination (R235). -/
theorem onlyRegs_dropTop_setReg (s : State) (d : Reg) (v : Word) : onlyRegs [d, .sp] s (s.dropTop.setReg d v) :=
  onlyRegs_setReg_of_onlyRegs d v (onlyRegs_setReg s .sp _)

/-- The commit of `pop %r` leaves `sp` one more, unless `sp` is itself the destination (R235). -/
theorem toNat_sp_dropTop_setReg (v : Word) (hentry : hasEntry s) (hd : d ≠ .sp) :
    ((s.dropTop.setReg d v).reg .sp).toNat = (s.reg .sp).toNat + 1 := by
  rw [reg_setReg_other s.dropTop d .sp v hd.symm]
  exact toNat_sp_add_one hentry

end popping

/-- Settles O15: each form pushes the word its operand gives, and the memory form has made its read when the stack is
checked. -/
theorem pushForms : Obligations.PushForms := by
  intro a v s
  simp only [exec_pushR_eq, exec_pushM_eq, exec_pushI_eq]
  refine ⟨decode_of_wordsWithOneOperand (by decide) rfl v,
    decode_of_wordsWithOneOperand (by decide) rfl v,
    decode_of_wordsWithOneOperand (by decide) rfl v,
    fun hroom => ⟨fun r hr => ?register, fun hram => ?memory, ?immediate⟩,
    fun hfull => ⟨fun hcheck => ?registerFull, ?memoryFull, ?immediateFull⟩, fun h => ?invalid, fun h => ?unmapped⟩
  case register => exact ⟨_, congrArg _ (valueOperand_reg _ hr), pushes_push _ hroom⟩
  case memory => exact ⟨_, congrArg _ (valueOperand_ram _ hram), pushes_push _ hroom⟩
  case immediate => exact ⟨_, rfl, pushes_push a hroom⟩
  case registerFull =>
    obtain ⟨r, hr⟩ := (Machine.regCheck_iff _ _).mp hcheck
    exact congrArg _ ((valueOperand_reg _ hr).trans (push_of_not_hasRoom _ _ hfull))
  case memoryFull => exact congrArg _ (pushOperand_mem_of_not_hasRoom a hfull)
  case immediateFull => exact congrArg _ (push_of_not_hasRoom a _ hfull)
  case invalid => exact congrArg _ (valueOperand_invalid _ h)
  case unmapped => exact congrArg _ (valueOperand_unmapped _ h)

/-- Settles O16: the destination is written after `sp`, so it holds the popped word even where it is `sp`. -/
theorem popRegisterForm : Obligations.PopRegisterForm := by
  intro a v s
  simp only [exec_popR_eq]
  refine ⟨decode_of_wordsWithOneOperand (by decide) rfl v,
    fun r hr => ⟨fun hentry => ?entry, fun hempty => ?empty⟩, fun h => ?invalid⟩
  case entry =>
    exact ⟨_, congrArg _ ((withReg_valid a s _ r hr).trans (pop_of_hasEntry _ hentry)), reg_setReg_same _ r _,
      toNat_sp_dropTop_setReg _ hentry, onlyRegs_dropTop_setReg s r _⟩
  case empty => exact congrArg _ ((withReg_valid a s _ r hr).trans (pop_of_not_hasEntry _ hempty))
  case invalid => exact congrArg _ (withReg_invalid a s _ h)

/-- Settles O17: an empty stack is found before the address is used, and `sp` moves in what follows a write that
succeeds. -/
theorem popMemoryForm : Obligations.PopMemoryForm := by
  intro a v s
  simp only [exec_popM_eq]
  refine ⟨decode_of_wordsWithOneOperand (by decide) rfl v,
    fun hentry => ?entry, fun hempty => congrArg _ (pop_of_not_hasEntry _ hempty), rfl⟩
  rw [pop_of_hasEntry _ hentry]
  refine ⟨?transaction, fun hram => ?ram, fun hun => ?unmapped⟩
  case transaction => exact congrArg _ (memWrite_answered a _ s _)
  case ram =>
    obtain ⟨hword, hregs, hrest⟩ := setsWord_writeWord s a (s.stackAt s.regs.sp.toNat)
    exact ⟨_, congrArg _ (memWrite_ram a _ s _ hram), hword, toNat_sp_add_one hentry, regsKept_setReg .sp _ hregs,
      hrest⟩
  case unmapped => exact congrArg _ (memWrite_unmapped a _ s _ hun)

end Sys2Proof.Proofs

/-! Move and store (43_move.md): what a store and a copy between memory words come to where no device answers them, and
from these what each form of MOV and STOR writes and leaves alone. -/

namespace Sys2Proof.Proofs

open Sys2Proof.Machine

section moves
variable (a v : Word) (s : State)

/-- `mov %rd, %rs` checks both indices and writes the destination (R250). -/
theorem exec_movRR_eq : exec (.movRR a v) s =
    .next (withReg a s fun d => withReg v s fun r => s.setReg d (s.reg r)) := rfl

/-- `mov %rd, $s` checks its index, then reads, then writes the destination (R251). -/
theorem exec_movRM_eq : exec (.movRM a v) s = .next (withReg a s fun d => memRead v s fun x s => s.setReg d x) := rfl

/-- `mov %rd, imm` checks its index and writes the destination (R252). -/
theorem exec_movRI_eq : exec (.movRI a v) s = .next (withReg a s fun d => s.setReg d v) := rfl

/-- `mov $d, %rs` checks its index and makes one write, which nothing follows (R253). -/
theorem exec_movMR_eq : exec (.movMR a v) s = .next (withReg v s fun r => memWrite a (s.reg r) s fun t => t) := rfl

/-- `mov $d, $s` reads the source and writes the destination in the state the read left (R254). -/
theorem exec_movMM_eq : exec (.movMM a v) s = .next (memRead v s fun x s => memWrite a x s fun t => t) := rfl

/-- `stor $d, imm` is one write, which nothing follows (R255). -/
theorem exec_storMI_eq : exec (.storMI a v) s = .next (memWrite a v s fun t => t) := rfl

end moves

section stores
variable {s : State} {a v : Address}

/-- A write that RAM answers and nothing follows is the statements' `setsWord` (R79). -/
theorem setsWord_memWrite_ram (w : Word) (h : isRam s a = true) : setsWord a w s (memWrite a w s fun t => t) := by
  rw [memWrite_ram a w s _ h]
  exact setsWord_writeWord s a w

/-- A copy between memory words that RAM answers stores the source's word (R254). -/
theorem setsWord_memRead_memWrite_ram (hv : isRam s v = true) (ha : isRam s a = true) :
    setsWord a (s.word v) s (memRead v s fun x s => memWrite a x s fun t => t) := by
  rw [memRead_ram v s _ hv]
  exact setsWord_memWrite_ram _ ha

/-- Of a read and the write after it, the first that is unmapped raises BADADDR in the state they started in, where RAM
answers the read before it (R75, R254). -/
theorem memRead_memWrite_unmapped (next : State → State)
    (h : isUnmapped s v = true ∨ isRam s v = true ∧ isUnmapped s a = true) :
    (memRead v s fun x s => memWrite a x s next) = raise .badAddr s := by
  rcases h with hv | ⟨hv, ha⟩
  · exact memRead_unmapped v s _ hv
  · rw [memRead_ram v s _ hv, memWrite_unmapped a _ s _ ha]

end stores

/-- Settles O19: each form is one register write, after every index check. -/
theorem moveToRegisterForms : Obligations.MoveToRegisterForms := by
  intro a v s
  simp only [exec_movRR_eq, exec_movRI_eq]
  refine ⟨decode_of_encode_eq rfl, decode_of_encode_eq rfl, fun d r hd hr => ?register, fun d hd => ?immediate,
    fun h => ?invalid, fun h => ?invalidImmediate⟩
  case register => exact ⟨_, congrArg _ (withReg_withReg_valid _ hd hr), setsReg_setReg s d _⟩
  case immediate => exact ⟨_, congrArg _ (withReg_valid a s _ d hd), setsReg_setReg s d v⟩
  case invalid => exact congrArg _ (withReg_withReg_invalid _ h)
  case invalidImmediate => exact congrArg _ (withReg_invalid a s _ h)

/-- Settles O20: a valid index leaves the read and the register write after it, and an invalid one raises before the
read. -/
theorem loadForm : Obligations.LoadForm := by
  intro a v s
  simp only [exec_movRM_eq]
  refine ⟨decode_of_encode_eq rfl, fun d hd => ?valid, fun h => congrArg _ (withReg_invalid a s _ h)⟩
  rw [withReg_valid a s _ d hd]
  refine ⟨?transaction, fun hram => ?ram, fun hun => ?unmapped⟩
  case transaction => exact congrArg _ (memRead_answered v s _)
  case ram => exact ⟨_, congrArg _ (memRead_ram v s _ hram), setsReg_setReg s d _⟩
  case unmapped => exact congrArg _ (memRead_unmapped v s _ hun)

/-- Settles O21: both forms are one write of a word, the register form's once its index has passed. -/
theorem storeForms : Obligations.StoreForms := by
  intro a v s
  simp only [exec_movMR_eq, exec_storMI_eq]
  refine ⟨decode_of_encode_eq rfl, decode_of_encode_eq rfl, fun r hr => ?register,
    fun h => congrArg _ (withReg_invalid v s _ h), ?transaction, fun hram => ?ram, fun hun => ?unmapped, rfl⟩
  case register =>
    rw [withReg_valid v s _ r hr]
    exact ⟨congrArg _ (memWrite_answered a _ s _), fun hram => ⟨_, rfl, setsWord_memWrite_ram _ hram⟩,
      fun hun => congrArg _ (memWrite_unmapped a _ s _ hun)⟩
  case transaction => exact congrArg _ (memWrite_answered a v s _)
  case ram => exact ⟨_, rfl, setsWord_memWrite_ram v hram⟩
  case unmapped => exact congrArg _ (memWrite_unmapped a v s _ hun)

/-- Settles O22: the copy's two transactions in order, and the first that is unmapped decides that nothing is
written. -/
theorem memoryToMemoryMove : Obligations.MemoryToMemoryMove := by
  intro a v s
  simp only [exec_movMM_eq]
  refine ⟨decode_of_encode_eq rfl, ?transactions, fun hv ha => ?ram, fun h => ?unmapped⟩
  case transactions => simp only [memRead_answered, memWrite_answered]
  case ram => exact ⟨_, rfl, setsWord_memRead_memWrite_ram hv ha⟩
  case unmapped => exact congrArg _ (memRead_memWrite_unmapped _ h)

end Sys2Proof.Proofs

/-! Interrupts, table load and halt (44_system.md): what INT's raise comes to by the kind value's number, what the six
reads of a table load come to where no device answers them, and the step that halts. -/

namespace Sys2Proof.Proofs

open Sys2Proof.Machine Sys2Proof.Claims

section interrupts
variable {k : Word} {s : State} {kind : Kind}

/-- The kind a code names is the one at its place in the enumeration, and there is none past the end (R300). -/
theorem kindOfCode_eq_getElem? (k : Word) : kindOfCode k = kindOrder[k.toNat]? := by
  unfold kindOfCode
  generalize k.toNat = n
  match n with
  | 0 | 1 | 2 | 3 | 4 | 5 => rfl
  | _ + 6 => rfl

/-- INT's raise in a handler is FAULT, whatever the value (R270, R311). -/
theorem raiseCode_handling (k : Word) (h : s.handling = true) : raiseCode k s = nestedFault s := if_pos h

/-- INT's raise in IDLE of a value that names a kind is that kind's entry (R270, R310). -/
theorem raiseCode_idle_kind (h : s.handling = false) (hk : kindOrder[k.toNat]? = some kind) :
    raiseCode k s = enterHandler kind s := by
  simp [raiseCode, h, kindOfCode_eq_getElem?, hk]

/-- INT's raise in IDLE of a value that names no kind stops the block (R270, R312). -/
theorem raiseCode_idle_badKind (h : s.handling = false) (hk : 6 ≤ k.toNat) :
    raiseCode k s = stopFatal .badKind s := by
  have hnone : kindOrder[k.toNat]? = none := List.getElem?_eq_none hk
  simp [raiseCode, h, kindOfCode_eq_getElem?, hnone]

/-- INT's raise of any value, in the terms of the statements (R270). -/
theorem raisesValue_raiseCode (k : Word) (s : State) : raisesValue k s (raiseCode k s) := by
  refine ⟨fun hs => ?handler, fun hs hlt => ?kind, fun hs hge => raiseCode_idle_badKind hs hge⟩
  case handler =>
    rw [raiseCode_handling k hs]
    exact nestedEntry_nestedFault s
  case kind =>
    have hplace := List.getElem?_eq_getElem (l := kindOrder) hlt
    rw [raiseCode_idle_kind hs hplace]
    exact enteredHandler_enterHandler _ _ s hplace

end interrupts

section exec
variable (a : Word) (s : State)

/-- `int %r` (R271). -/
theorem exec_intR_eq : exec (.intR a) s = .next (valueOperand .reg a s raiseCode) := rfl

/-- `int $a` (R272). -/
theorem exec_intM_eq : exec (.intM a) s = .next (valueOperand .mem a s raiseCode) := rfl

/-- `int imm` (R273). -/
theorem exec_intI_eq : exec (.intI a) s = .next (raiseCode a s) := rfl

/-- `nop` clears `running` (R290). -/
theorem exec_nop_eq : exec .nop s = .next (halt s) := rfl

/-- `hlt` clears `running` (R291). -/
theorem exec_hlt_eq : exec .hlt s = .next (halt s) := rfl

end exec

section tableLoads
variable {a b : Address} {s : State} {i : Instr}

/-- LDITBL in each of its forms loads the table at the base its operand gives (R281 to R283). -/
theorem exec_eq_loadTable
    (h : i = .lditblM a ∧ b = a ∨ i = .lditblI a ∧ b = a ∨
      (∃ r, regOfIndex s.params a = some r ∧ i = .lditblR a ∧ b = s.reg r)) :
    exec i s = .next (loadTable b s) := by
  rcases h with ⟨rfl, rfl⟩ | ⟨rfl, rfl⟩ | ⟨r, hr, rfl, rfl⟩
  · rfl
  · rfl
  · exact congrArg _ (locationOperand_of_some _ (operandLocation_reg hr))

/-- A table load is its six reads in order, and then the write of the whole table (R280). -/
theorem loadTable_answered (b : Address) (s : State) :
    loadTable b s =
      answered (busRead s b) fun e0 s1 =>
      answered (busRead s1 (b + 1)) fun e1 s2 =>
      answered (busRead s2 (b + 2)) fun e2 s3 =>
      answered (busRead s3 (b + 3)) fun e3 s4 =>
      answered (busRead s4 (b + 4)) fun e4 s5 =>
      answered (busRead s5 (b + 5)) fun e5 s6 =>
      { s6 with ivt := #v[e0, e1, e2, e3, e4, e5] } := by
  simp only [loadTable, memRead_answered]

/-- A table load whose six words RAM answers writes them, and nothing else (R280). -/
theorem loadTable_ram (hram : ∀ k < 6, isRam s (b + BitVec.ofNat 64 k) = true) :
    loadTable b s = { s with ivt := #v[s.word b, s.word (b + 1), s.word (b + 2), s.word (b + 3), s.word (b + 4),
      s.word (b + 5)] } := by
  have h0 : isRam s b = true := by simpa using hram 0 (by decide)
  exact (memRead_ram b s _ h0).trans <| (memRead_ram (b + 1) s _ (hram 1 (by decide))).trans <|
    (memRead_ram (b + 2) s _ (hram 2 (by decide))).trans <| (memRead_ram (b + 3) s _ (hram 3 (by decide))).trans <|
    (memRead_ram (b + 4) s _ (hram 4 (by decide))).trans <| memRead_ram (b + 5) s _ (hram 5 (by decide))

/-- Where word `j` from a base is the first that RAM does not answer, and it is unmapped, a read of word `k` up to it
raises BADADDR if what follows it does where it is not the last (R75). -/
theorem memRead_firstUnmapped {j k : Nat} {next : Word → State → State}
    (hram : ∀ k < j, isRam s (b + BitVec.ofNat 64 k) = true) (hun : isUnmapped s (b + BitVec.ofNat 64 j) = true)
    (hk : k ≤ j) (ha : a = b + BitVec.ofNat 64 k)
    (hnext : k + 1 ≤ j → next (s.word a) s = raise .badAddr s) : memRead a s next = raise .badAddr s := by
  subst ha
  rcases hk.eq_or_lt with rfl | hlt
  · exact memRead_unmapped _ s next hun
  · rw [memRead_ram _ s next (hram k hlt), hnext hlt]

/-- A table load whose first word that RAM does not answer is unmapped raises BADADDR, with no entry written (R280). -/
theorem loadTable_unmapped {j : Nat} (hj : j < 6) (hram : ∀ k < j, isRam s (b + BitVec.ofNat 64 k) = true)
    (hun : isUnmapped s (b + BitVec.ofNat 64 j) = true) : loadTable b s = raise .badAddr s :=
  memRead_firstUnmapped hram hun (Nat.zero_le j) (by simp) fun h1 =>
  memRead_firstUnmapped hram hun h1 rfl fun h2 =>
  memRead_firstUnmapped hram hun h2 rfl fun h3 =>
  memRead_firstUnmapped hram hun h3 rfl fun h4 =>
  memRead_firstUnmapped hram hun h4 rfl fun h5 =>
  memRead_firstUnmapped hram hun h5 rfl fun h6 => absurd hj (Nat.not_lt.mpr h6)

end tableLoads

section halting
variable {s u : State} {w : Triplet} {i : Instr}

/-- The fetch of a triplet in RAM gives its words, and nothing but the boot rule has changed the state (R131, R132). -/
theorem fetch_of_fetchesRam (h : fetchesRam s w) : fetch (boot s) = .words w (boot s) := by
  obtain ⟨h0, h1, h2, hw0, ha, hv⟩ := h
  have hram (a : Address) : isRam (boot s) a = isRam s a := isRam_congr s (boot s) a (boot_regions s)
  have hword (a : Address) : (boot s).word a = s.word a := congrArg (Memory.readWord · a) (boot_mem s)
  rw [fetch_ram (boot s) ((hram _).trans h0) ((hram _).trans h1) ((hram _).trans h2)]
  simp only [hword]
  congr

/-- A step that fetches from RAM runs the instruction its triplet decodes to (R133, R134, R138). -/
theorem step_of_fetchesRam (he : s.enabled = true) (h : fetchesRam s w) (hd : decode w = .ok i)
    (hx : exec i (advance w.w0 (boot s)) = .next u) : step s = .next (finish u) :=
  step_words s w (boot s) u he (fetch_of_fetchesRam h) (by rw [execTriplet, hd]; exact hx)

/-- A step that has not stopped with `fatal` ends with its tick phase and its cycle count (R138). -/
theorem finish_of_fatal_eq_none (h : s.fatal = none) : finish s = endStep s := by simp [finish, h]

/-- An enabled machine has not stopped with `fatal` (R130). -/
theorem fatal_of_enabled (h : s.enabled = true) : s.fatal = none := by
  obtain ⟨⟨-, hfatal⟩, -⟩ : (s.running = true ∧ s.fatal = none) ∧ s.setupFailed = false := by
    simpa [State.enabled] using h
  exact hfatal

/-- A machine that is not running takes no step (R130, R361). -/
theorem step_of_not_running (h : s.running = false) : step s = .next s :=
  step_disabled s (by simp [State.enabled, h])

/-- The end of a step leaves `ip` as the fetch advance wrote it: a tick writes `pc` and `flags` alone (R136). -/
theorem endStep_ip (s : State) : (endStep s).reg .ip = s.reg .ip :=
  tickAll_reg s.peripherals s .ip (by decide) (by decide)

/-- The boot rule writes `pc` alone (R131). -/
theorem boot_cycle (s : State) : (boot s).regs.cycle = s.regs.cycle := by
  unfold boot
  split <;> rfl

/-- The step that runs `nop` or `hlt` from RAM ends normally (R290, R291). -/
theorem step_halts (he : s.enabled = true) (h : fetchesRam s w) (hd : decode w = .ok i)
    (hx : ∀ s, exec i s = .next (halt s)) : step s = .next (endStep (halt (advance w.w0 (boot s)))) := by
  have hfatal : (halt (advance w.w0 (boot s))).fatal = none := by simpa using fatal_of_enabled he
  rw [step_of_fetchesRam he h hd (hx _), finish_of_fatal_eq_none hfatal]

end halting

/-- Settles O23: each form raises the value its operand gives, and what that comes to is said once for every value. -/
theorem interruptForms : Obligations.InterruptForms := by
  intro a v s
  simp only [exec_intR_eq, exec_intM_eq, exec_intI_eq]
  refine ⟨decode_of_wordsWithOneOperand (by decide) rfl v,
    decode_of_wordsWithOneOperand (by decide) rfl v,
    decode_of_wordsWithOneOperand (by decide) rfl v,
    fun r hr => ?register, fun h => ?invalid, fun hram => ?memory, fun hun => ?unmapped, ?immediate⟩
  case register => exact ⟨_, congrArg _ (valueOperand_reg _ hr), raisesValue_raiseCode _ s⟩
  case invalid => exact congrArg _ (valueOperand_invalid _ h)
  case memory => exact ⟨_, congrArg _ (valueOperand_ram _ hram), raisesValue_raiseCode _ s⟩
  case unmapped => exact congrArg _ (valueOperand_unmapped _ hun)
  case immediate => exact ⟨_, rfl, raisesValue_raiseCode a s⟩

/-- Settles O27: each form is the table load at its base, and the first of the six reads that fails decides that nothing
is written. -/
theorem loadTableForms : Obligations.LoadTableForms := by
  intro a v s
  refine ⟨decode_of_wordsWithOneOperand (by decide) rfl v,
    decode_of_wordsWithOneOperand (by decide) rfl v,
    decode_of_wordsWithOneOperand (by decide) rfl v,
    fun i b hbase => ?forms, fun h => congrArg _ (locationOperand_invalid _ h)⟩
  rw [exec_eq_loadTable hbase]
  refine ⟨congrArg _ (loadTable_answered b s), fun hram => ?ram,
    fun j hj hram hun => congrArg _ (loadTable_unmapped hj hram hun)⟩
  refine ⟨_, congrArg _ (loadTable_ram hram), fun k hk => ?entries, fun _ _ => rfl, fun _ _ => rfl, rfl, rfl, rfl,
    ⟨rfl, rfl⟩, ⟨⟨rfl, rfl, rfl, rfl⟩, rfl⟩⟩
  interval_cases k <;> simp

/-- Settles O28: the step that halts is a normal step, and it leaves the machine disabled. -/
theorem haltForms : Obligations.HaltForms := by
  intro a v s
  have hnop := decode_of_wordsWithoutOperands (i := .nop) (by decide) rfl a v
  have hhlt := decode_of_wordsWithoutOperands (i := .hlt) (by decide) rfl a v
  refine ⟨hnop, hhlt, exec_nop_eq s, exec_hlt_eq s, fun w0 hw he hf => ?step⟩
  have hstep : step s = .next (endStep (halt (advance w0 (boot s)))) := by
    rcases hw with rfl | rfl
    · exact step_halts he hf hnop exec_nop_eq
    · exact step_halts he hf hhlt exec_hlt_eq
  have hstopped : (endStep (halt (advance w0 (boot s)))).running = false := by simp
  refine ⟨_, hstep, rfl, hstopped, endStep_ip _, ?cycle, fun hquiet => ?pc, step_of_not_running hstopped⟩
  case cycle => rw [reg_cycle, endStep_cycle]; exact congrArg (· + 1) (boot_cycle s)
  case pc => rw [endStep_quiet _ (by simpa using hquiet)]; rfl

end Sys2Proof.Proofs

/-! Exceptions (60_exceptions.md): the interrupt-active bit at a return, the state a return from a handler leaves, and
from these entry, return, and the return that undoes an entry. -/

namespace Sys2Proof.Proofs

open Sys2Proof.Machine

section flags
variable (flags : Word)

/-- Leaving a handler clears bit 0 and keeps every other bit (R313). -/
theorem getLsbD_flagsLeave (j : Nat) : (flagsLeave flags).getLsbD j = (flags.getLsbD j && decide (j ≠ 0)) := by
  rw [flagsLeave, BitVec.getLsbD_and, BitVec.getLsbD_not, BitVec.ofNat_eq_ofNat, BitVec.getLsbD_one]
  by_cases hj : j < 64
  · cases j <;> simp [hj]
  · simp [BitVec.getLsbD_of_ge flags j (Nat.le_of_not_lt hj)]

/-- Flags that a handler leaves are those of IDLE (R309, R313). -/
theorem flagsHandling_flagsLeave : flagsHandling (flagsLeave flags) = false :=
  (getLsbD_flagsLeave flags 0).trans (Bool.and_false _)

/-- Clearing a bit 0 that is already clear changes nothing. -/
theorem flagsLeave_of_idle (h : flagsHandling flags = false) : flagsLeave flags = flags := by
  apply BitVec.eq_of_getLsbD_eq
  intro j _
  rw [getLsbD_flagsLeave]
  cases j with
  | zero => exact (Bool.and_false _).trans h.symm
  | succ j => exact Bool.and_true _

end flags

/-- The state a return from a handler leaves: the saved file with `IF` cleared (R313). -/
def restored (s : State) : State := { s with regs := s.saved.set .flags (flagsLeave s.saved.flags) }

section returning
variable {s : State}

/-- A return in a handler restores the saved file (R313). -/
theorem interruptReturn_handling (h : s.handling = true) : interruptReturn s = restored s := if_pos h

/-- A return in IDLE is a FAULT entry (R313). -/
theorem interruptReturn_idle (h : s.handling = false) : interruptReturn s = enterHandler .fault s := by
  rw [interruptReturn, h]
  exact raise_idle .fault s h

/-- The result of a return from a handler is IDLE, whatever was saved (R313). -/
theorem restored_handling (s : State) : (restored s).handling = false := flagsHandling_flagsLeave s.saved.flags

/-- Every register but `flags` holds its saved value (R313). -/
theorem restored_reg (s : State) {r : Reg} (hr : r ≠ .flags) : (restored s).reg r = s.saved.get r :=
  (RegFile.get_set ..).trans (if_neg hr)

/-- Every bit of `flags` but `IF` holds its saved value (R313). -/
theorem restored_flags_getLsbD (s : State) {j : Nat} (hj : 0 < j) :
    (restored s).regs.flags.getLsbD j = s.saved.flags.getLsbD j := by
  have hne : j ≠ 0 := Nat.ne_of_gt hj
  show (flagsLeave s.saved.flags).getLsbD j = _
  rw [getLsbD_flagsLeave, decide_eq_true hne, Bool.and_true]

/-- A file saved with `IF` clear, as every entry from IDLE saves it, is restored exactly (R320). -/
theorem restored_regs_of_idle (h : flagsHandling s.saved.flags = false) : (restored s).regs = s.saved :=
  congrArg (s.saved.set .flags) (flagsLeave_of_idle _ h)

/-- `iret` (R275). -/
theorem exec_iret_eq (s : State) : exec .iret s = .next (interruptReturn s) := rfl

end returning

/-- Settles O24, by the controller's state: what entry and the nested FAULT leave is said once for each. -/
theorem interruptEntry : Obligations.InterruptEntry := by
  refine ⟨fun n k s hk => ⟨fun hidle => ?idle, fun hhandler => ?handler⟩, fun k s hhandler => ?anyValue⟩
  case idle =>
    rw [raise_idle k s hidle]
    exact enteredHandler_enterHandler k n s hk
  case handler =>
    rw [raise_handling k s hhandler]
    exact nestedEntry_nestedFault s
  case anyValue =>
    rw [raiseCode_handling k hhandler]
    exact nestedEntry_nestedFault s

/-- Settles O25, by the controller's state: `iret` leaves `restored` in a handler, and in IDLE it is an entry like any
other. -/
theorem interruptReturn : Obligations.InterruptReturn := by
  intro a v s
  rw [exec_iret_eq]
  refine ⟨decode_of_wordsWithoutOperands (by decide) rfl a v, fun hhandler => ?handler, fun hidle => ?idle⟩
  case handler =>
    exact ⟨restored s, congrArg _ (interruptReturn_handling hhandler), restored_handling s,
      fun j hj => restored_flags_getLsbD s hj, fun r hr => restored_reg s hr,
      fun _ _ => rfl, rfl, ⟨rfl, rfl, rfl⟩, ⟨rfl, rfl⟩, ⟨⟨rfl, rfl, rfl, rfl⟩, rfl⟩⟩
  case idle =>
    exact ⟨_, congrArg _ (interruptReturn_idle hidle), enteredHandler_enterHandler .fault 1 s rfl⟩

/-- Settles O26: an entry from IDLE saves the file with `IF` clear, so that clearing it after the restore changes
nothing. -/
theorem returnRestoresExactly : Obligations.ReturnRestoresExactly := by
  intro k s h hidle hsaved hhandler
  have hfile : h.saved = s.regs := by rw [hsaved, raise_idle k s hidle, enterHandler_saved]
  have hclear : flagsHandling h.saved.flags = false := by rw [hfile]; exact hidle
  have hregs : (restored h).regs = s.regs := (restored_regs_of_idle hclear).trans hfile
  exact ⟨restored h, congrArg _ (interruptReturn_handling hhandler), hregs, rfl, rfl, rfl, rfl, rfl⟩

end Sys2Proof.Proofs

/-! The host's operations and the disabled step (70_reset_and_hazards.md, R361, R371, R374): what each operation does
for each of its conditions. -/

namespace Sys2Proof.Proofs

open Sys2Proof.Machine

section host
variable {s t : State} {i : RegIndex} {r : Reg}

/-- A stopped machine takes no step, whether it is still running or not (R130, R361). -/
theorem step_of_fatal_ne_none (h : s.fatal ≠ none) : step s = .next s :=
  step_disabled s (by simp [State.enabled, h])

/-- The host's step is the step, and then the status of the state it leaves (R371). -/
theorem driverStep_of_step (h : step s = .next t) : driverStep s = .next (t, driverStatus t) := by
  rw [driverStep, h]

/-- The host reads the register a valid index names (R374). -/
theorem driverPeek_valid (h : regOfIndex s.params i = some r) : driverPeek i s = .ok (s.reg r) := by
  rw [driverPeek, h]

/-- The host writes the register a valid index names (R374). -/
theorem driverPoke_valid (v : Word) (h : regOfIndex s.params i = some r) :
    driverPoke i v s = (s.setReg r v, .ok ()) := by
  rw [driverPoke, h]

/-- The host may resume a machine that has not stopped (R371). -/
theorem driverResume_of_fatal_eq_none (h : s.fatal = none) :
    driverResume s = ({ s with running := true }, .ok ()) :=
  if_pos (Option.isNone_iff_eq_none.mpr h)

/-- The host may not resume a stopped machine, and the state stays as it is (R371). -/
theorem driverResume_of_fatal_ne_none (h : s.fatal ≠ none) : driverResume s = (s, .error .stopped) :=
  if_neg (mt Option.isNone_iff_eq_none.mp h)

end host

/-- Settles O39, by what disables the step; the host's step then gives the status of the state it began in. -/
theorem disabledStepChangesNothing : Obligations.DisabledStepChangesNothing := by
  intro s hdisabled
  have hstep : step s = .next s := by
    rcases hdisabled with hstopped | hfatal
    · exact step_of_not_running hstopped
    · exact step_of_fatal_ne_none hfatal
  exact ⟨hstep, driverStep_of_step hstep⟩

/-- Settles O58, by whether the index names a register and whether the machine has stopped; a poke is one register
write. -/
theorem hostOperations : Obligations.HostOperations := by
  intro i v s
  refine ⟨fun r hr => ?valid, fun hinvalid => ?invalid, rfl, driverResume_of_fatal_eq_none,
    driverResume_of_fatal_ne_none, rfl⟩
  case valid => exact ⟨driverPeek_valid hr, _, driverPoke_valid v hr, setsReg_setReg s r v⟩
  case invalid => exact ⟨driverPeek_invalid i s hinvalid, driverPoke_invalid i v s hinvalid⟩

end Sys2Proof.Proofs

/-! The encoding as a whole (30_encoding.md): the bytes of a record, the words the decoder accepts, and the row the
assembler selects. -/

namespace Sys2Proof.Proofs

open Sys2Proof.Machine Sys2Proof.Claims

section records
variable (t : Triplet) (rest : List Byte)

/-- A record is three words of eight bytes (R110). -/
theorem tripletBytes_length : (tripletBytes t).length = 24 := rfl

/-- Decoding a record decodes its words, and leaves the bytes after it (R84, R110). -/
theorem decodeRecord_tripletBytes :
    decodeRecord (tripletBytes t ++ rest) = (decode t).map fun i => (i, rest) := by
  have hlong : ¬ (tripletBytes t ++ rest).length < 24 := by simp [tripletBytes_length]
  have hw0 : (tripletBytes t ++ rest).take 8 = wordBytes t.w0 := rfl
  have ha : ((tripletBytes t ++ rest).drop 8).take 8 = wordBytes t.a := rfl
  have hv : ((tripletBytes t ++ rest).drop 16).take 8 = wordBytes t.v := rfl
  have hrest : (tripletBytes t ++ rest).drop 24 = rest := rfl
  rw [decodeRecord, if_neg hlong, hw0, ha, hv, hrest]
  simp only [wordOfBytes_wordBytes]
  cases decode t <;> rfl

end records

/-- Two instructions with the same words are the same, as the decoder reads each back (R127). -/
theorem encode_injective : Function.Injective encode := by
  intro i j h
  have hdecode : decode (encode i) = decode (encode j) := congrArg decode h
  simpa [decode_encode] using hdecode

/-- Settles O48: the decoder reads each row back, a record splits into the bytes of its words, and both give that no
two instructions share theirs. -/
theorem decodeInvertsEncode : Obligations.DecodeInvertsEncode := by
  refine ⟨decode_encode, fun i rest => ⟨tripletBytes_length _, ?record⟩, fun i j h => encode_injective h⟩
  case record => rw [encodeBytes, decodeRecord_tripletBytes, decode_encode, Except.map]

section words
variable {row : OpcodeRow} {t : Triplet} {i : Instr}

/-- The 54 words are those R111 makes of the table's rows, in order (R116). -/
theorem opcodeTable_words : opcodeTable.map (fun row => encodeWord0 row.tag row.opc) = opcodeWords := by decide

/-- Bit `j` of a word 0 is a bit of its opcode number or of its tag (R111). -/
theorem getLsbD_encodeWord0 (tag : Tag) (opc : Byte) {j : Nat} (hj : j < 64) :
    (encodeWord0 tag opc).getLsbD j =
      (!decide (j < 56) && (tagCode tag).getLsbD (j - 56) || !decide (j < 48) && opc.getLsbD (j - 48)) := by
  simp [encodeWord0, hj]

/-- The low 48 bits of a word 0 are zero (R111). -/
theorem encodeWord0_low (tag : Tag) (opc : Byte) : (encodeWord0 tag opc).extractLsb' 0 48 = 0 := by
  apply BitVec.eq_of_getLsbD_eq
  intro j hj
  have h56 : j < 56 := by omega
  simp [hj, h56, getLsbD_encodeWord0 tag opc (show j < 64 by omega)]

/-- Byte 6 of a word 0 is its opcode number (R111). -/
theorem wordByte_six_encodeWord0 (tag : Tag) (opc : Byte) : wordByte (encodeWord0 tag opc) 6 = opc := by
  apply BitVec.eq_of_getLsbD_eq
  intro j hj
  have h56 : 48 + j < 56 := by omega
  simp [wordByte, hj, h56, getLsbD_encodeWord0 tag opc (show 48 + j < 64 by omega)]

/-- Byte 7 of a word 0 is its tag (R111). -/
theorem wordByte_seven_encodeWord0 (tag : Tag) (opc : Byte) : wordByte (encodeWord0 tag opc) 7 = tagCode tag := by
  apply BitVec.eq_of_getLsbD_eq
  intro j hj
  have hopc : opc.getLsbD (56 + j - 48) = false := BitVec.getLsbD_of_ge _ _ (by omega)
  simp [wordByte, hj, hopc, getLsbD_encodeWord0 tag opc (show 56 + j < 64 by omega)]

/-- There are four tags (R113). -/
theorem tagCode_le (tag : Tag) : (tagCode tag).toNat ≤ 3 := by cases tag <;> decide

/-- A row's opcode number finds that row, as no other has it (R116). -/
theorem opcodeTable_find? (h : row ∈ opcodeTable) : opcodeTable.find? (fun q => q.opc == row.opc) = some row := by
  have hsome : (opcodeTable.find? (fun q => q.opc == row.opc)).isSome := by
    rw [List.find?_isSome]
    exact ⟨row, h, beq_self_eq_true _⟩
  obtain ⟨found, hfound⟩ := Option.isSome_iff_exists.mp hsome
  have hopc : found.opc = row.opc := by simpa using List.find?_some hfound
  rw [hfound, opcodeTable_row_unique found row (List.mem_of_find?_eq_some hfound) h hopc]

/-- The word 0 of a row selects it (R125, R127). -/
theorem decodeRow_encodeWord0 (h : row ∈ opcodeTable) : decodeRow (encodeWord0 row.tag row.opc) = .ok row := by
  have htag : ¬ 3 < (tagCode row.tag).toNat := Nat.not_lt.mpr (tagCode_le _)
  simp only [decodeRow, encodeWord0_low, wordByte_six_encodeWord0, wordByte_seven_encodeWord0, opcodeTable_find? h]
  simp [htag]

/-- What a row builds is encoded with that row's word 0, whatever its operand words (R111, R148). -/
theorem encode_build_w0 (h : row ∈ opcodeTable) (a v : Word) :
    (encode (row.build a v)).w0 = encodeWord0 row.tag row.opc := by
  have hrows : opcodeTable.map (fun q => (encode (q.build a v)).w0) =
      opcodeTable.map fun q => encodeWord0 q.tag q.opc := rfl
  exact List.map_inj_left.mp hrows row h

/-- A triplet that decodes holds the word 0 of the row its instruction is built by (R125). -/
theorem decode_ok_row (h : decode t = .ok i) :
    ∃ row ∈ opcodeTable, t.w0 = encodeWord0 row.tag row.opc ∧ i = row.build t.a t.v := by
  obtain ⟨row, hrow, hbuild⟩ := decode_ok t i h
  obtain ⟨-, hmem, -, -⟩ := decodeRow_ok _ row hrow
  exact ⟨row, hmem, decodeRow_word _ row hrow, hbuild⟩

end words

/-- Settles O46: what decodes is a row's word 0, and each row's word 0 decodes. -/
theorem decodesExactlyTheTable : Obligations.DecodesExactlyTheTable := by
  intro t
  rw [← opcodeTable_words, List.mem_map]
  refine ⟨⟨?accepted, ?listed⟩, ?word⟩
  case accepted =>
    rintro ⟨i, h⟩
    obtain ⟨row, hmem, hword, -⟩ := decode_ok_row h
    exact ⟨row, hmem, hword.symm⟩
  case listed =>
    rintro ⟨row, hmem, hword⟩
    exact ⟨row.build t.a t.v, decode_of_row t.w0 t.a t.v row (hword ▸ decodeRow_encodeWord0 hmem)⟩
  case word =>
    intro i h
    obtain ⟨row, hmem, hword, rfl⟩ := decode_ok_row h
    rw [encode_build_w0 hmem, hword]

/-- Settles O49: each triplet is what the encoder writes for its instruction. -/
theorem sampleWordsDecode : Obligations.SampleWordsDecode :=
  ⟨decode_encode (.addRR 6 7), decode_encode (.rshiftMM 0xA0000100 0xA0000101), decode_encode (.jitI 0xA0000000),
    decode_encode .ret, decode_encode (.popM 0xA0000100), decode_encode (.storMI 0xA0000100 7),
    decode_encode (.intI 3), decode_encode .hlt⟩

section selecting
variable {m : Mnemonic} {i : Instr} {a v : Word} {k kv : OperandKind}

/-- An instruction's mnemonic and operands select it, row by row (R118, R146). -/
theorem selectInstr_operandsOf (i : Instr) : selectInstr (mnemonicOf i) (operandsOf i) = .ok i := by
  cases i <;> rfl

theorem select0_eq_some (h : select0 m = some i) : mnemonicOf i = m ∧ operandsOf i = [] := by
  unfold select0 at h
  split at h <;> cases h <;> exact ⟨rfl, rfl⟩

theorem select1_eq_some (h : select1 m k a = some i) : mnemonicOf i = m ∧ operandsOf i = [(k, a)] := by
  unfold select1 at h
  split at h <;> cases h <;> exact ⟨rfl, rfl⟩

/-- Two operands select an instruction that has them, but for the pseudo-instruction `mov $d, imm` (R146, R153). -/
theorem select2_eq_some (h : select2 m k kv a v = some i) :
    mnemonicOf i = m ∧ operandsOf i = [(k, a), (kv, v)] ∨ m = .mov ∧ k = .mem ∧ kv = .imm ∧ i = .storMI a v := by
  unfold select2 at h
  split at h <;> cases h
  case h_31.refl => exact .inr ⟨rfl, rfl, rfl, rfl⟩
  all_goals exact .inl ⟨rfl, rfl⟩

/-- A selection that gives an instruction found it in the rows. -/
theorem eq_some_of_elim_eq_ok {o : Option Instr}
    (h : o.elim (.error .wrongOperandType) .ok = (.ok i : Except AsmError Instr)) : o = some i := by
  cases o <;> cases h
  rfl

end selecting

/-- Settles O50, by the number of operands. -/
theorem assemblerSelectsTheRow : Obligations.AssemblerSelectsTheRow := by
  refine ⟨selectInstr_operandsOf, fun m ops i h => ?selected, fun d x k => rfl⟩
  match ops with
  | [] => exact .inl (select0_eq_some (eq_some_of_elim_eq_ok h))
  | [(k, a)] => exact .inl (select1_eq_some (eq_some_of_elim_eq_ok h))
  | [(k, a), (kv, v)] =>
    rw [selectInstr] at h
    split at h
    · cases h
    · rcases select2_eq_some (eq_some_of_elim_eq_ok h) with hrow | ⟨rfl, rfl, rfl, rfl⟩
      · exact .inl hrow
      · exact .inr ⟨a, v, rfl, rfl, rfl⟩
  | _ :: _ :: _ :: _ => cases h

end Sys2Proof.Proofs

/-! What an instruction comes to, said once over all of them: it raises, with a cause the rules list; or it stops the
block; or it commits, and then writes no more than its rule does (30_encoding.md R134, 60_exceptions.md R301 to R306).
The claims about causes, precision and who writes what are read off from it. -/

namespace Sys2Proof.Proofs

open Sys2Proof.Machine

/-- An instruction has gone through to its end: what it may have written, field by field. -/
structure Commits (i : Instr) (s t : State) : Prop where
  saved : t.saved = s.saved := by rfl
  lastint : t.lastint = s.lastint := by rfl
  fatal : t.fatal = s.fatal := by rfl
  platform : platformKept s t := by exact ⟨rfl, rfl, rfl, rfl⟩
  /-- IRET in a handler writes every register (R313). -/
  regs : i = .iret ∧ s.handling = true ∨ regsKept (writtenRegs s.params i) s t
  shaped : s.regs.shaped s.params → s.saved.shaped s.params → t.regs.shaped s.params
  mem : t.mem = s.mem ∨
    ∃ a w, storeAddress i = some a ∧ isRam s a = true ∧ t.mem = s.mem.writeWord a w := by exact .inl rfl
  stack : t.stack = s.stack ∨ pushesWord i = true ∧ hasRoom s ∧
    ∃ v, t.stack = setEntry 0 s.stack (s.regs.sp - 1).toNat v := by exact .inl rfl
  ivt : t.ivt = s.ivt ∨ loadsTable i = true := by exact .inl rfl
  running : t.running = s.running ∨ halts i = true ∧ t.running = false := by exact .inl rfl

/-- What executing an instruction can come to. A raise and a stop find the state as it was but for the devices the
instruction had read or written. -/
inductive ExecResult (i : Instr) (s : State) : State → Prop where
  | raised (k : Kind) (ds : List DeviceState) (cause : s.handling = false → interruptCause k i s) :
    ExecResult i s (raise k { s with devices := ds })
  | badKind (ds : List DeviceState) (v : Word) (value : interruptValue i s = some v) (large : 6 ≤ v.toNat) :
    ExecResult i s (stopFatal .badKind { s with devices := ds })
  | deviceFailed (ds : List DeviceState) (access : dataAddresses i s ≠ []) :
    ExecResult i s (stopFatal .device { s with devices := ds })
  | committed (t : State) (commits : Commits i s t) : ExecResult i s t

section raising
variable {i : Instr} {s : State} {r : RegIndex} {a : Address} {v : Word} {k : Kind}

theorem wellFormed_eq_false (p : Params) (hr : r ∈ registerOperands i) (hinvalid : regCheck p r = false) :
    wellFormed p i = false :=
  List.all_eq_false.mpr ⟨r, hr, by simp [hinvalid]⟩

/-- An invalid register operand is a cause of BADADDR (R303). -/
theorem ExecResult.invalid (hr : r ∈ registerOperands i) (hinvalid : regCheck s.params r = false) :
    ExecResult i s (raise .badAddr s) :=
  .raised .badAddr s.devices fun _ => .inl (wellFormed_eq_false _ hr hinvalid)

/-- An unmapped data address is a cause of BADADDR (R303). -/
theorem ExecResult.unmapped (ha : a ∈ dataAddresses i s) (hun : isUnmapped s a = true) (ds : List DeviceState) :
    ExecResult i s (raise .badAddr { s with devices := ds }) :=
  .raised .badAddr ds fun _ => .inr (.inl ⟨a, ha, hun⟩)

/-- An access that a device fails stops the block (R76). -/
theorem ExecResult.failed (ha : a ∈ dataAddresses i s) (ds : List DeviceState) :
    ExecResult i s (stopFatal .device { s with devices := ds }) :=
  .deviceFailed ds (List.ne_nil_of_mem ha)

/-- A push that finds no room is a cause of STACK_OVERFLOW (R301). -/
theorem ExecResult.full (hpush : pushesWord i = true) (hfull : s.stackFull = true) (ds : List DeviceState) :
    ExecResult i s (raise .stackOverflow { s with devices := ds }) := by
  refine .raised .stackOverflow ds fun _ => .inl ⟨hpush, fun hroom => ?_⟩
  simp [stackFull_eq_false_iff.mpr hroom] at hfull

/-- A pop that finds no entry is a cause of STACK_OVERFLOW (R301). -/
theorem ExecResult.empty (hpop : popsWord i = true) (hempty : s.stackEmpty = true) :
    ExecResult i s (raise .stackOverflow s) := by
  refine .raised .stackOverflow s.devices fun _ => .inr (.inl ⟨hpop, fun hentry => ?_⟩)
  simp [stackEmpty_eq_false_iff.mpr hentry] at hempty

/-- An INT of a value that names a kind is a cause of that kind (R270, R301 to R306). -/
theorem interruptCause_of_interruptValue (hv : interruptValue i s = some v) (hk : kindOfCode v = some k) :
    interruptCause k i s := by
  have hcode : ∀ n : Nat, v.toNat = n → interruptValue i s = some (BitVec.ofNat 64 n) := by
    rintro n rfl
    rw [hv, BitVec.ofNat_toNat, BitVec.setWidth_eq]
  unfold kindOfCode at hk
  split at hk <;> cases hk
  case h_1 h => exact .inr (.inr (hcode 0 h))
  case h_2 h => exact .inr (hcode 1 h)
  case h_3 h => exact .inr (.inr (hcode 2 h))
  case h_4 h => exact .inr (hcode 3 h)
  case h_5 h => exact hcode 4 h
  case h_6 h => exact hcode 5 h

/-- INT's raise: FAULT in a handler, and in IDLE the kind its value names or the stop (R270). -/
theorem ExecResult.ofRaiseCode (hv : interruptValue i s = some v) (ds : List DeviceState) :
    ExecResult i s (raiseCode v { s with devices := ds }) := by
  rcases raiseCode_cases v { s with devices := ds } with ⟨hs, h⟩ | ⟨kind, hs, hk, h⟩ | ⟨hs, hk, h⟩ <;> rw [h]
  · rw [← raise_handling .fault _ hs]
    exact .raised .fault ds fun hidle => absurd (hs.symm.trans hidle) (by decide)
  · rw [← raise_idle kind _ hs]
    exact .raised kind ds fun _ => interruptCause_of_interruptValue hv hk
  · have hlarge : ¬ v.toNat < 6 := by simp [← kindOfCode_isSome_iff, hk]
    exact .badKind ds v hv (Nat.not_lt.mp hlarge)

end raising

section committing
variable {i : Instr} {s : State} {rd : RegIndex} {d : Reg}

theorem regsKept_mono {but more : List Reg} {s t : State} (hsub : but ⊆ more) (h : regsKept but s t) :
    regsKept more s t :=
  fun r hr => h r (mt (@hsub r) hr)

/-- A write of the register an operand names commits an instruction whose rule writes it (R18). -/
theorem Commits.ofSetReg (hd : regOfIndex s.params rd = some d)
    (hwritten : writtenRegs s.params i = (regOfIndex s.params rd).toList) (w : Word) (ds : List DeviceState) :
    Commits i s (State.setReg { s with devices := ds } d w) where
  regs := .inr (by rw [hwritten, hd]; exact regsKept_setReg d w fun _ _ => rfl)
  shaped hregs _ := RegFile.shaped_set _ _ rd d w hregs hd

/-- A stored word commits an instruction whose rule writes it and no register (R134). -/
theorem Commits.ofStore {a : Address} (ha : storeAddress i = some a) (hram : isRam s a = true) (w : Word)
    (ds : List DeviceState) : Commits i s { s with devices := ds, mem := s.mem.writeWord a w } where
  regs := .inr fun _ _ => rfl
  shaped hregs _ := hregs
  mem := .inr ⟨a, w, ha, hram, rfl⟩

/-- A write that a device takes leaves RAM and the registers alone. -/
theorem Commits.ofDevices (i : Instr) (s : State) (ds : List DeviceState) :
    Commits i s { s with devices := ds } where
  regs := .inr fun _ _ => rfl
  shaped hregs _ := hregs

/-- A jump commits an instruction whose rule writes `pc` (R20). -/
theorem Commits.ofJumpTo (hwritten : writtenRegs s.params i = [.pc]) (t : Address) : Commits i s (s.jumpTo t) where
  regs := .inr (by rw [hwritten]; exact regsKept_setReg .pc t fun _ _ => rfl)
  shaped hregs _ := hregs

/-- A comparison commits an instruction whose rule writes `tmp` (R184). -/
theorem Commits.ofTmp (hwritten : writtenRegs s.params i = [.tmp]) (w : Word) (ds : List DeviceState) :
    Commits i s (State.setReg { s with devices := ds } .tmp w) where
  regs := .inr (by rw [hwritten]; exact regsKept_setReg .tmp w fun _ _ => rfl)
  shaped hregs _ := hregs

end committing

section forms
variable {i : Instr} {s : State} {f : Word → Word → Option Word} {a v : Word} {kind : OperandKind}

/-- The division gives nothing for a divisor of 0 alone (R168). -/
theorem divWords_eq_none {x y : Word} (h : divWords x y = none) : y = 0 := by
  by_contra hy
  simp [divWords_of_ne_zero x y hy] at h

/-- A register form of the ALU (R160). -/
theorem execResult_aluR (hregs : registerOperands i = [a, v])
    (hwritten : writtenRegs s.params i = (regOfIndex s.params a).toList)
    (hnone : ∀ x y, f x y = none → divisor i s = operandValue s (.reg, v) ∧ y = 0) :
    ExecResult i s (aluR f a v s) := by
  refine aluR_elim f a v s (fun h => ?invalid) (fun d r hd hr h => ?zero) fun d w hd => ?result
  case invalid =>
    rcases h with h | h
    · exact .invalid (r := a) (by simp [hregs]) h
    · exact .invalid (r := v) (by simp [hregs]) h
  case zero =>
    obtain ⟨hdivisor, hzero⟩ := hnone _ _ h
    have hcause : divisor i s = some 0 := by simp [hdivisor, operandValue, hr, hzero]
    exact .raised .divByZero s.devices fun _ => .inl hcause
  case result => exact .committed _ (.ofSetReg hd hwritten w s.devices)

/-- A memory form of the ALU (R161). -/
theorem execResult_aluM (hdata : dataAddresses i s = [a, v]) (hstore : storeAddress i = some a)
    (hnone : ∀ x y, f x y = none → divisor i s = operandValue (busRead s a).2 (.mem, v) ∧ y = 0) :
    ExecResult i s (aluM f a v s) := by
  refine aluM_elim f a v s (fun h ds => ?unmapped) (fun x y ds es hx hy h => ?zero) (fun ds => ?failed)
    (fun ds => .committed _ (.ofDevices i s ds)) fun hram w ds => .committed _ (.ofStore hstore hram w ds)
  case unmapped =>
    rcases h with h | h
    · exact .unmapped (by simp [hdata]) h ds
    · exact .unmapped (a := v) (by simp [hdata]) h ds
  case zero =>
    obtain ⟨hdivisor, hzero⟩ := hnone _ _ h
    have hcause : divisor i s = some 0 := by simp [hdivisor, operandValue, hx, hy, hzero]
    exact .raised .divByZero es fun _ => .inl hcause
  case failed => exact .failed (a := a) (by simp [hdata]) ds

/-- CMP of registers (R184). -/
theorem execResult_cmpRR (a v : RegIndex) (s : State) :
    ExecResult (.cmpRR a v) s
      (withReg a s fun p => withReg v s fun q => s.setReg .tmp (compareWords (s.reg p) (s.reg q))) :=
  withReg_elim a s _ (.invalid (.head _)) fun _ _ =>
    withReg_elim v s _ (.invalid (.tail _ (.head _))) fun _ _ => .committed _ (.ofTmp rfl _ s.devices)

/-- CMP of memory words (R185). -/
theorem execResult_cmpMM (a v : Address) (s : State) :
    ExecResult (.cmpMM a v) s
      (memRead a s fun x s => memRead v s fun y s => s.setReg .tmp (compareWords x y)) :=
  memRead_elim a s _ (fun h => .unmapped (.head _) h s.devices) (.failed (.head _)) fun _ ds _ =>
    memRead_elim v _ _ (fun h => .unmapped (s := s) (.tail _ (.head _)) h ds) (fun es => .failed (.head [v]) es)
      fun _ es _ => .committed _ (.ofTmp rfl _ es)

/-- JIT: the operand, and then the jump or nothing (R201). -/
theorem execResult_jumpIfTrue (hregs : kind = .reg → a ∈ registerOperands i)
    (hwritten : writtenRegs s.params i = [.pc]) : ExecResult i s (jumpIfTrue kind a s) := by
  refine locationOperand_elim kind a s _ (fun hk => .invalid (hregs hk)) fun t _ => ?_
  split
  · exact .committed _ (.ofJumpTo hwritten t)
  · exact .committed _ (.ofDevices i s s.devices)

/-- JMP (R204). -/
theorem execResult_jump (hregs : kind = .reg → a ∈ registerOperands i)
    (hwritten : writtenRegs s.params i = [.pc]) : ExecResult i s (jump kind a s) :=
  locationOperand_elim kind a s _ (fun hk => .invalid (hregs hk)) fun t _ => .committed _ (.ofJumpTo hwritten t)

/-- CALL: the operand, the push, and then the jump (R207). -/
theorem execResult_callTo (hregs : kind = .reg → a ∈ registerOperands i)
    (hwritten : writtenRegs s.params i = [.pc, .sp]) (hpush : pushesWord i = true) :
    ExecResult i s (callTo kind a s) := by
  refine locationOperand_elim kind a s _ (fun hk => .invalid (hregs hk)) fun t _ => ?_
  refine push_elim _ s _ (fun hfull => .full hpush hfull s.devices) fun hroom => .committed _ ?_
  exact
    { regs := .inr (by
        rw [hwritten]
        exact regsKept_setReg .pc t (regsKept_setReg (t := s) .sp _ fun _ _ => rfl))
      shaped := fun h _ => h
      stack := .inr ⟨hpush, stackFull_eq_false_iff.mp hroom, _, rfl⟩ }

/-- PUSH: the operand, and then the push (R232 to R234). -/
theorem execResult_pushOperand (hregs : kind = .reg → a ∈ registerOperands i)
    (hdata : kind = .mem → a ∈ dataAddresses i s) (hwritten : writtenRegs s.params i = [.sp])
    (hpush : pushesWord i = true) : ExecResult i s (pushOperand kind a s) := by
  refine valueOperand_elim kind a s _ (fun hk => .invalid (hregs hk)) (fun hk h => .unmapped (hdata hk) h s.devices)
    (fun hk ds => .failed (hdata hk) ds) fun v ds _ => ?_
  refine push_elim v _ _ (fun hfull => .full (s := s) hpush hfull ds) fun hroom => .committed _ ?_
  exact
    { regs := .inr (by rw [hwritten]; exact regsKept_setReg (t := s) .sp _ fun _ _ => rfl)
      shaped := fun h _ => h
      stack := .inr ⟨hpush, stackFull_eq_false_iff.mp hroom, _, rfl⟩ }

/-- `ret` (R210). -/
theorem execResult_ret (s : State) : ExecResult .ret s (pop s fun t => s.dropTop.jumpTo t) :=
  pop_elim s _ (.empty rfl) fun _ => .committed _
    { regs := .inr (onlyRegs_dropTop_jumpTo s _).1
      shaped := fun h _ => h }

/-- `pop %r` (R235). -/
theorem execResult_popR (a : RegIndex) (s : State) :
    ExecResult (.popR a) s (withReg a s fun d => pop s fun v => s.dropTop.setReg d v) :=
  withReg_elim a s _ (.invalid (.head _)) fun d hd => pop_elim s _ (.empty rfl) fun _ => .committed _
    { regs := .inr (by
        simp only [writtenRegs, hd, Option.toList_some]
        exact regsKept_mono (List.Perm.swap ..).subset (onlyRegs_dropTop_setReg s d _).1)
      shaped := fun h _ => RegFile.shaped_set _ _ a d _ h hd }

/-- `pop $a` (R236). -/
theorem execResult_popM (a : Address) (s : State) :
    ExecResult (.popM a) s (pop s fun v => memWrite a v s State.dropTop) := by
  refine pop_elim s _ (.empty rfl) fun _ => ?_
  refine memWrite_elim a _ s _ (fun h => .unmapped (.head _) h s.devices) (.failed (.head _))
    (fun ds => .committed _ ?device) fun hram => .committed _ ?ram
  case device =>
    exact
      { regs := .inr (regsKept_setReg (t := s) .sp _ fun _ _ => rfl)
        shaped := fun h _ => h }
  case ram =>
    exact
      { regs := .inr (regsKept_setReg (t := s) .sp _ fun _ _ => rfl)
        shaped := fun h _ => h
        mem := .inr ⟨a, _, rfl, hram, rfl⟩ }

/-- `mov %rd, %rs` (R250). -/
theorem execResult_movRR (a v : RegIndex) (s : State) :
    ExecResult (.movRR a v) s (withReg a s fun d => withReg v s fun r => s.setReg d (s.reg r)) :=
  withReg_elim a s _ (.invalid (.head _)) fun _ hd =>
    withReg_elim v s _ (.invalid (.tail _ (.head _))) fun _ _ => .committed _ (.ofSetReg hd rfl _ s.devices)

/-- `mov %rd, $s` (R251). -/
theorem execResult_movRM (a : RegIndex) (v : Address) (s : State) :
    ExecResult (.movRM a v) s (withReg a s fun d => memRead v s fun x s => s.setReg d x) :=
  withReg_elim a s _ (.invalid (.head _)) fun _ hd =>
    memRead_elim v s _ (fun h => .unmapped (.head _) h s.devices) (.failed (.head _)) fun x ds _ =>
      .committed _ (.ofSetReg hd rfl x ds)

/-- `mov %rd, imm` (R252). -/
theorem execResult_movRI (a : RegIndex) (v : Imm) (s : State) :
    ExecResult (.movRI a v) s (withReg a s fun d => s.setReg d v) :=
  withReg_elim a s _ (.invalid (.head _)) fun _ hd => .committed _ (.ofSetReg hd rfl v s.devices)

/-- A write that nothing follows, after reads that left the devices changed (R253 to R255). -/
theorem execResult_memWrite (hdata : a ∈ dataAddresses i s) (hstore : storeAddress i = some a) (w : Word)
    (ds : List DeviceState) : ExecResult i s (memWrite a w { s with devices := ds } fun t => t) :=
  memWrite_elim a w _ _ (fun h => .unmapped hdata h ds) (fun es => .failed hdata es)
    (fun es => .committed _ (.ofDevices i s es)) fun hram => .committed _ (.ofStore (s := s) hstore hram w ds)

/-- `mov $d, %rs` (R253). -/
theorem execResult_movMR (a : Address) (v : RegIndex) (s : State) :
    ExecResult (.movMR a v) s (withReg v s fun r => memWrite a (s.reg r) s fun t => t) :=
  withReg_elim v s _ (.invalid (.head _)) fun _ _ => execResult_memWrite (.head _) rfl _ s.devices

/-- `mov $d, $s` (R254). -/
theorem execResult_movMM (a v : Address) (s : State) :
    ExecResult (.movMM a v) s (memRead v s fun x s => memWrite a x s fun t => t) :=
  memRead_elim v s _ (fun h => .unmapped (.tail _ (.head _)) h s.devices) (.failed (.head [v])) fun x ds _ =>
    execResult_memWrite (.head _) rfl x ds

/-- INT: the operand, and then its raise (R270 to R273). -/
theorem execResult_interruptOperand (hregs : kind = .reg → a ∈ registerOperands i)
    (hdata : kind = .mem → a ∈ dataAddresses i s) (hvalue : interruptValue i s = operandValue s (kind, a)) :
    ExecResult i s (interruptOperand kind a s) :=
  valueOperand_elim kind a s _ (fun hk => .invalid (hregs hk)) (fun hk h => .unmapped (hdata hk) h s.devices)
    (fun hk ds => .failed (hdata hk) ds) fun _ ds hv => .ofRaiseCode (hvalue.trans hv) ds

/-- `iret`: the restore in a handler, and FAULT in IDLE (R313). -/
theorem execResult_iret (s : State) : ExecResult .iret s (Machine.interruptReturn s) := by
  cases hs : s.handling with
  | false =>
    rw [interruptReturn_idle hs, ← raise_idle .fault s hs]
    exact .raised .fault s.devices fun _ => .inl rfl
  | true =>
    rw [interruptReturn_handling hs]
    exact .committed _ { regs := .inl ⟨rfl, hs⟩, shaped := fun _ h => h }

/-- The words of LDITBL's table are its data accesses (R280, R303). -/
theorem mem_dataAddresses_of_loadsTable {b : Word} (hload : loadsTable i = true)
    (hbase : (operandsOf i).filterMap (operandLocation s) = [b]) {k : Nat} (hk : k < 6) :
    b + BitVec.ofNat 64 k ∈ dataAddresses i s := by
  have hm : mnemonicOf i = .lditbl := by simpa [loadsTable] using hload
  simp only [dataAddresses, hm, hbase, List.flatMap_singleton]
  exact List.mem_map_of_mem (List.mem_range.mpr hk)

/-- LDITBL: the base, and then the six reads and the table's write (R280 to R283). -/
theorem execResult_loadTableOperand (hregs : kind = .reg → a ∈ registerOperands i) (hload : loadsTable i = true)
    (hops : operandsOf i = [(kind, a)]) : ExecResult i s (loadTableOperand kind a s) := by
  refine locationOperand_elim kind a s _ (fun hk => .invalid (hregs hk)) fun b hb => ?_
  have hdata {k : Nat} (hk : k < 6) : b + BitVec.ofNat 64 k ∈ dataAddresses i s :=
    mem_dataAddresses_of_loadsTable hload (by simp [hops, hb]) hk
  refine loadTable_elim b s (fun k hk h => .unmapped (hdata hk) h) (.failed (hdata (k := 0) (by decide)))
    fun ds ivt => .committed _ ?_
  exact { regs := .inr fun _ _ => rfl, shaped := fun h _ => h, ivt := .inr hload }

/-- NOP and HLT (R290, R291). -/
theorem execResult_halt (hhalts : halts i = true) : ExecResult i s (halt s) :=
  .committed _ { regs := .inr fun _ _ => rfl, shaped := fun h _ => h, running := .inr ⟨hhalts, rfl⟩ }

end forms

/-- Every instruction comes to one of these. -/
theorem exec_result (i : Instr) (s : State) : ∃ t, exec i s = .next t ∧ ExecResult i s t := by
  cases i
  case nop | hlt => exact ⟨_, rfl, execResult_halt rfl⟩
  case addRR | subRR | mulRR | andRR | orRR | xorRR | norRR | nandRR | lshiftRR | rshiftRR =>
    exact ⟨_, rfl, execResult_aluR rfl rfl nofun⟩
  case divRR => exact ⟨_, rfl, execResult_aluR rfl rfl fun _ _ h => ⟨rfl, divWords_eq_none h⟩⟩
  case addMM | subMM | mulMM | andMM | orMM | xorMM | norMM | nandMM | lshiftMM | rshiftMM =>
    exact ⟨_, rfl, execResult_aluM rfl rfl nofun⟩
  case divMM => exact ⟨_, rfl, execResult_aluM rfl rfl fun _ _ h => ⟨rfl, divWords_eq_none h⟩⟩
  case cmpRR a v => exact ⟨_, rfl, execResult_cmpRR a v s⟩
  case cmpMM a v => exact ⟨_, rfl, execResult_cmpMM a v s⟩
  case jitR => exact ⟨_, rfl, execResult_jumpIfTrue (fun _ => .head _) rfl⟩
  case jitM | jitI => exact ⟨_, rfl, execResult_jumpIfTrue nofun rfl⟩
  case jmpR => exact ⟨_, rfl, execResult_jump (fun _ => .head _) rfl⟩
  case jmpM | jmpI => exact ⟨_, rfl, execResult_jump nofun rfl⟩
  case callR => exact ⟨_, rfl, execResult_callTo (fun _ => .head _) rfl rfl⟩
  case callM | callI => exact ⟨_, rfl, execResult_callTo nofun rfl rfl⟩
  case ret => exact ⟨_, rfl, execResult_ret s⟩
  case pushR => exact ⟨_, rfl, execResult_pushOperand (fun _ => .head _) nofun rfl rfl⟩
  case pushM => exact ⟨_, rfl, execResult_pushOperand nofun (fun _ => .head _) rfl rfl⟩
  case pushI => exact ⟨_, rfl, execResult_pushOperand nofun nofun rfl rfl⟩
  case popR a => exact ⟨_, rfl, execResult_popR a s⟩
  case popM a => exact ⟨_, rfl, execResult_popM a s⟩
  case movRR a v => exact ⟨_, rfl, execResult_movRR a v s⟩
  case movRM a v => exact ⟨_, rfl, execResult_movRM a v s⟩
  case movRI a v => exact ⟨_, rfl, execResult_movRI a v s⟩
  case movMR a v => exact ⟨_, rfl, execResult_movMR a v s⟩
  case movMM a v => exact ⟨_, rfl, execResult_movMM a v s⟩
  case storMI a v => exact ⟨_, rfl, execResult_memWrite (.head _) rfl v s.devices⟩
  case intR => exact ⟨_, rfl, execResult_interruptOperand (fun _ => .head _) nofun rfl⟩
  case intM => exact ⟨_, rfl, execResult_interruptOperand nofun (fun _ => .head _) rfl⟩
  case intI => exact ⟨_, rfl, execResult_interruptOperand nofun nofun rfl⟩
  case iret => exact ⟨_, rfl, execResult_iret s⟩
  case lditblR => exact ⟨_, rfl, execResult_loadTableOperand (fun _ => .head _) rfl rfl⟩
  case lditblM | lditblI => exact ⟨_, rfl, execResult_loadTableOperand nofun rfl rfl⟩

/-- The inversion of an execution. -/
theorem execResult_of_exec {i : Instr} {s t : State} (h : exec i s = .next t) : ExecResult i s t := by
  obtain ⟨u, hu, hresult⟩ := exec_result i s
  obtain rfl : u = t := by simpa [hu] using h
  exact hresult

section committed
variable {i : Instr} {s t : State}

/-- The one word an instruction stores is all of RAM it may change (R134). -/
theorem Commits.memKept (h : Commits i s t) : memKept (storeAddress i).toList s t := by
  intro k hk
  rcases h.mem with hmem | ⟨a, w, ha, -, hmem⟩ <;> rw [hmem]
  exact Memory.read_writeWord_other _ a w k (hk a (by simp [ha]))

/-- A push changes the one entry just below the old top (R45, R230). -/
theorem Commits.stackAt (h : Commits i s t) : t.stack = s.stack ∨
    pushesWord i = true ∧ hasRoom s ∧ ∀ k, k ≠ s.regs.sp.toNat - 1 → t.stackAt k = s.stackAt k := by
  refine h.stack.imp_right fun ⟨hpush, hroom, v, hstack⟩ => ⟨hpush, hroom, fun k hk => ?_⟩
  obtain ⟨hpos, -⟩ := hroom
  have hne : k ≠ (s.regs.sp - 1).toNat := by bv_omega
  rw [State.stackAt, hstack]
  exact (entryAt_setEntry ..).trans (if_neg hne)

end committed

/-- Settles O29: each raise of an execution comes with its cause, and a commit in IDLE writes what the rule writes. -/
theorem interruptCauses : Obligations.InterruptCauses := by
  intro i s t hidle h
  cases execResult_of_exec h with
  | raised k ds cause => exact .inl ⟨k, ds, rfl, cause hidle⟩
  | badKind ds v value large => exact .inr (.inl ⟨ds, v, rfl, value, large⟩)
  | deviceFailed ds access => exact .inr (.inr (.inl ⟨ds, rfl, access⟩))
  | committed _ hc =>
    refine .inr (.inr (.inr ⟨hc.saved, hc.lastint, hc.fatal, hc.regs.resolve_left fun ⟨_, hs⟩ => ?_⟩))
    exact absurd (hidle.symm.trans hs) (by decide)

/-- Settles O31, by what an execution comes to. -/
theorem interruptsArePrecise : Obligations.InterruptsArePrecise := by
  intro i s t h
  cases execResult_of_exec h with
  | raised k ds => exact .inl ⟨k, ds, rfl⟩
  | badKind ds | deviceFailed ds => exact .inr (.inl ⟨_, ds, rfl⟩)
  | committed _ hc =>
    exact .inr (.inr ⟨hc.saved, hc.lastint, hc.fatal, hc.memKept, hc.regs.imp_left fun ⟨hiret, _⟩ => hiret⟩)

/-- Settles O35: a raise and a stop write none of these, and a commit says who does. -/
theorem stateHasItsWriters : Obligations.StateHasItsWriters := by
  intro i s t h
  cases execResult_of_exec h with
  | raised k ds => simp [platformKept]
  | badKind ds | deviceFailed ds => exact ⟨.inl rfl, .inl rfl, .inl rfl, rfl, rfl, rfl, rfl⟩
  | committed _ hc => exact ⟨hc.stackAt, hc.ivt, hc.running, hc.platform⟩

end Sys2Proof.Proofs

/-! The step (30_encoding.md section 5, R130 to R138): what its phases leave alone, said once for any property that they
keep, and the steps that are decided by what they fetch. -/

namespace Sys2Proof.Proofs

open Sys2Proof.Machine

/-- The phases of a step keep a property: the scalar writes of boot, advance and cycle count, a device's new state, a
raise, a stop, and what an instruction commits. -/
structure KeptByPhases (P : State → Prop) : Prop where
  scalar (s : State) (r : Reg) (v : Word) (hr : r ∈ [Reg.pc, .ip, .cycle]) : P s → P (s.setReg r v)
  devices (s : State) (ds : List DeviceState) : P s → P { s with devices := ds }
  raised (k : Kind) (s : State) : P s → P (raise k s)
  stopped (reason : FatalReason) (s : State) : P s → P (stopFatal reason s)
  commits (i : Instr) (s t : State) (hc : Commits i s t) : P s → P t

section phases
variable {P : State → Prop} {s t : State} {i : Instr}

/-- The boot rule is a write of `pc`, of the value it has where the rule does not apply (R131). -/
theorem boot_eq_setReg (s : State) : boot s = s.setReg .pc (fetchAddress s) := by
  unfold fetchAddress boot
  split <;> rfl

/-- The fetch advance is a write of `ip` and of `pc` (R133). -/
theorem advance_eq_setReg (w : Word) (s : State) : advance w s = (s.setReg .ip w).setReg .pc (s.regs.pc + 3) := rfl

/-- The end of a step is its tick phase and a write of `cycle`, which no tick writes (R136, R137). -/
theorem endStep_eq_setReg (s : State) : endStep s = (tickAll s.peripherals s).setReg .cycle (s.reg .cycle + 1) := by
  rw [← tickAll_reg s.peripherals s .cycle (by decide) (by decide)]
  rfl

theorem finish_of_fatal_ne_none (h : s.fatal ≠ none) : finish s = s := by
  rw [finish, if_pos (Option.isSome_iff_ne_none.mpr h)]

@[simp] theorem finish_fatal (s : State) : (finish s).fatal = s.fatal := by
  unfold finish
  split <;> simp

namespace KeptByPhases
variable (hP : KeptByPhases P)
include hP

theorem boot (hs : P s) : P (boot s) := by
  rw [boot_eq_setReg]
  exact hP.scalar s .pc _ (by decide) hs

theorem advance (w : Word) (hs : P s) : P (advance w s) :=
  hP.scalar _ .pc _ (by decide) (hP.scalar s .ip w (by decide) hs)

theorem endStep (hs : P s) : P (endStep s) := by
  rw [endStep_eq_setReg]
  refine hP.scalar _ .cycle _ (by decide) (tickAll_keeps _ s (fun d t ht => ?_) hs)
  exact tickDevice_elim d t (fun x => hP.devices t _ ht) fun k x => hP.raised k _ (hP.devices t _ ht)

theorem finish (hs : P s) : P (finish s) := by
  unfold Machine.finish
  split
  · exact hs
  · exact hP.endStep hs

theorem exec (hs : P s) (h : exec i s = .next t) : P t := by
  cases execResult_of_exec h with
  | raised k ds => exact hP.raised k _ (hP.devices s ds hs)
  | badKind ds | deviceFailed ds => exact hP.stopped _ _ (hP.devices s ds hs)
  | committed _ hc => exact hP.commits i s t hc hs

/-- A property that the phases keep is kept by every step. -/
theorem step (hs : P s) (h : step s = .next t) : P t := by
  rcases step_cases s t h with ⟨-, rfl⟩ | ⟨-, ⟨ds, rfl⟩ | ⟨ds, rfl⟩ | ⟨w, ds, e, -, rfl⟩ | ⟨w, ds, i, u, -, hu, rfl⟩⟩
  · exact hs
  · exact hP.endStep (hP.raised _ _ (hP.devices _ ds (hP.boot hs)))
  · exact hP.stopped _ _ (hP.devices _ ds (hP.boot hs))
  · exact hP.finish (hP.raised _ _ (hP.advance _ (hP.devices _ ds (hP.boot hs))))
  · exact hP.finish (hP.exec (hP.advance _ (hP.devices _ ds (hP.boot hs))) hu)

end KeptByPhases

end phases

section invariant
variable {s t : State}

/-- The memory invariant is about RAM's cells and the region list alone. -/
theorem memInv_congr (hmem : t.mem = s.mem) (hregions : t.regions = s.regions) (h : memInv s) : memInv t := by
  obtain ⟨hwf, hcells⟩ := h
  refine ⟨hmem ▸ hwf, fun c hc => ?_⟩
  obtain ⟨a, hram, hin⟩ := hcells c (hmem ▸ hc)
  exact ⟨a, (isRam_congr s t a hregions).trans hram, hin⟩

/-- A word stored where RAM answers keeps the memory invariant (R79). -/
theorem memInv_writeWord {a : Address} {w : Word} (hram : isRam s a = true) (h : memInv s) :
    memInv { s with mem := s.mem.writeWord a w } := by
  obtain ⟨hwf, hcells⟩ := h
  refine ⟨Memory.wf_writeWord _ a w hwf, fun c hc => ?_⟩
  rcases Memory.mem_writeWord _ a w c hc with hin | hold
  · exact ⟨a, hram, hin⟩
  · exact hcells c hold

/-- A push that finds room writes an entry the stack has (R230). -/
theorem length_setEntry_of_hasRoom (v : Word) (hlength : s.stack.length = s.params.stackCapacity.toNat)
    (hroom : hasRoom s) : (setEntry 0 s.stack (s.regs.sp - 1).toNat v).length = s.stack.length := by
  obtain ⟨hpos, hle⟩ := hroom
  exact length_setEntry 0 _ _ v (by bv_omega)

/-- What an instruction commits keeps the invariant: it stores where RAM answers, pushes where there is room, and writes
registers that an index names. -/
theorem machineInv_of_commits {i : Instr} (hc : Commits i s t) (h : machineInv s) : machineInv t := by
  obtain ⟨hmem, hbus, hstack, hregs, hsaved⟩ := h
  obtain ⟨hparams, hregions, -, hsetup⟩ := hc.platform
  refine ⟨?mem, ?bus, ?stack, ?regs, ?saved⟩
  case mem =>
    rcases hc.mem with hkept | ⟨a, w, -, hram, hstored⟩
    · exact memInv_congr hkept hregions hmem
    · exact memInv_congr (s := { s with mem := s.mem.writeWord a w }) hstored hregions (memInv_writeWord hram hmem)
  case bus => rwa [busInv, hsetup, hregions]
  case stack =>
    rw [hparams]
    rcases hc.stack with hkept | ⟨-, hroom, v, hpushed⟩
    · rw [hkept, hstack]
    · rw [hpushed, length_setEntry_of_hasRoom v hstack hroom, hstack]
  case regs => rw [hparams]; exact hc.shaped hregs hsaved
  case saved => rw [hparams, hc.saved]; exact hsaved

/-- The invariant is kept by every phase of a step. -/
theorem machineInv_keptByPhases : KeptByPhases machineInv where
  scalar s r v hr h := by
    obtain ⟨hmem, hbus, hstack, hregs, hsaved⟩ := h
    refine ⟨hmem, hbus, hstack, ?_, hsaved⟩
    simp only [List.mem_cons, List.not_mem_nil, or_false] at hr
    rcases hr with rfl | rfl | rfl <;> exact hregs
  devices _ _ h := h
  raised k s h := by
    obtain ⟨hmem, hbus, hstack, hregs, hsaved⟩ := h
    rcases raise_cases k s with ⟨-, hr⟩ | ⟨-, hr⟩ <;> rw [hr]
    · exact ⟨hmem, hbus, hstack, hregs, hsaved⟩
    · exact ⟨hmem, hbus, hstack, hregs, hregs⟩
  stopped _ _ h := h
  commits _ _ _ hc h := machineInv_of_commits hc h

end invariant

/-- Settles O59: every phase of a step keeps the invariant. -/
theorem everyStepKeepsTheInvariant : Obligations.EveryStepKeepsTheInvariant :=
  fun _ _ hs h => machineInv_keptByPhases.step hs h

section hostOwned
variable {s t u : State}

/-- What only the host sets has stayed: `running` has not been set, `saved` is as it was or a snapshot of an IDLE
program, and the platform is as it was. -/
def hostOwnedKept (s t : State) : Prop :=
  (t.running = true → s.running = true) ∧ (t.saved = s.saved ∨ flagsHandling t.saved.flags = false) ∧ platformKept s t

theorem hostOwnedKept_refl (s : State) : hostOwnedKept s s := ⟨id, .inl rfl, rfl, rfl, rfl, rfl⟩

theorem hostOwnedKept_trans (h : hostOwnedKept s t) (h' : hostOwnedKept t u) : hostOwnedKept s u := by
  obtain ⟨hrun, hsaved, hparams, hregions, hperipherals, hsetup⟩ := h
  obtain ⟨hrun', hsaved', hparams', hregions', hperipherals', hsetup'⟩ := h'
  refine ⟨hrun ∘ hrun', ?_, hparams'.trans hparams, hregions'.trans hregions, hperipherals'.trans hperipherals,
    hsetup'.trans hsetup⟩
  rcases hsaved' with hkept | hsnapshot
  · rwa [hkept]
  · exact .inr hsnapshot

/-- Taking an interrupt saves the registers only from IDLE (R310, R311). -/
theorem hostOwnedKept_raise (k : Kind) (s : State) : hostOwnedKept s (raise k s) := by
  rcases raise_cases k s with ⟨-, hr⟩ | ⟨hidle, hr⟩ <;> rw [hr]
  · exact hostOwnedKept_refl s
  · exact ⟨id, .inr hidle, rfl, rfl, rfl, rfl⟩

theorem hostOwnedKept_of_commits {i : Instr} (hc : Commits i s t) : hostOwnedKept s t := by
  refine ⟨fun hrun => ?_, .inl hc.saved, hc.platform⟩
  rcases hc.running with hkept | ⟨-, hcleared⟩
  · exact hkept ▸ hrun
  · exact absurd (hcleared.symm.trans hrun) (by decide)

theorem hostOwnedKept_keptByPhases (s₀ : State) : KeptByPhases (hostOwnedKept s₀) where
  scalar s _ _ _ h := hostOwnedKept_trans h (hostOwnedKept_refl s)
  devices s _ h := hostOwnedKept_trans h (hostOwnedKept_refl s)
  raised k s h := hostOwnedKept_trans h (hostOwnedKept_raise k s)
  stopped _ s h := hostOwnedKept_trans h (hostOwnedKept_refl s)
  commits _ _ _ hc h := hostOwnedKept_trans h (hostOwnedKept_of_commits hc)

end hostOwned

/-- Settles O36: every phase keeps what only the host sets, and a stopped machine takes no step. -/
theorem stepNeverSetsWhatOnlyTheHostSets : Obligations.StepNeverSetsWhatOnlyTheHostSets := by
  intro s t h
  obtain ⟨hrun, hsaved, hplatform⟩ := (hostOwnedKept_keptByPhases s).step (hostOwnedKept_refl s) h
  refine ⟨hrun, fun hfatal => ?_, hsaved, hplatform⟩
  simpa [step_of_fatal_ne_none hfatal] using h.symm

section running
variable {s u : State} {w : Triplet} {i : Instr}

/-- A step runs the instruction its fetched words decode to (R133, R134, R138). -/
theorem step_decoded {t : State} (he : s.enabled = true) (hf : fetch (boot s) = .words w t) (hd : decode w = .ok i)
    (hx : exec i (advance w.w0 t) = .next u) : step s = .next (finish u) :=
  step_words s w t u he hf (by rw [execTriplet, hd]; exact hx)

theorem onlyRegs_mono {but more : List Reg} {t : State} (hsub : but ⊆ more) (h : onlyRegs but s t) :
    onlyRegs more s t := by
  obtain ⟨hregs, hrest⟩ := h
  exact ⟨regsKept_mono hsub hregs, hrest⟩

/-- The fetch advance after the boot rule writes `pc` and `ip` (R131, R133). -/
theorem onlyRegs_advance_boot (w : Word) (s : State) : onlyRegs [.pc, .ip] s (advance w (boot s)) := by
  rw [advance_eq_setReg, boot_eq_setReg]
  have hwrites := onlyRegs_setReg_of_onlyRegs .pc ((boot s).regs.pc + 3)
    (onlyRegs_setReg_of_onlyRegs .ip w (onlyRegs_setReg s .pc (fetchAddress s)))
  exact onlyRegs_mono (by simp) hwrites

/-- A fatal stop has no tick phase and no cycle count, and a state that has not stopped has both (R138, R360). -/
theorem finish_eq (s : State) : finish s = if s.fatal = none then endStep s else s := by
  split
  · exact finish_of_fatal_eq_none ‹_›
  · exact finish_of_fatal_ne_none ‹_›

/-- A step that fetches from RAM a word 0 outside the table raises BADINSTR after the fetch advance (R133, R135). -/
theorem step_of_fetchesRam_invalid {e : DecodeError} (he : s.enabled = true) (h : fetchesRam s w)
    (hd : decode w = .error e) : step s = .next (endStep (raise .badInstr (advance w.w0 (boot s)))) := by
  have hfatal : (raise .badInstr (advance w.w0 (boot s))).fatal = none := by simpa using fatal_of_enabled he
  rw [← finish_of_fatal_eq_none hfatal]
  exact step_words s w (boot s) _ he (fetch_of_fetchesRam h) (by rw [execTriplet, hd])

/-- The boot rule and the fetch advance leave the controller's state alone (R131, R133). -/
theorem advance_boot_handling (w : Word) (s : State) : (advance w (boot s)).handling = s.handling :=
  congrArg flagsHandling ((onlyRegs_advance_boot w s).1 .flags (by decide))

end running

/-- Settles O37: the host's core steps as the model does. -/
theorem stepRunsTheDecodedInstruction : Obligations.StepRunsTheDecodedInstruction :=
  fun _ _ _ _ _ he hf hd hx => ⟨step_decoded he hf hd hx, step_decoded he hf hd hx⟩

/-- Settles O38: the words fetched are the encoder's, which decode back. -/
theorem stepRunsTheEncodedInstruction : Obligations.StepRunsTheEncodedInstruction := by
  intro s i he hf
  obtain ⟨u, hu⟩ := exec_next i (advance (encode i).w0 (boot s))
  exact ⟨_, u, rfl, rfl, rfl, onlyRegs_mono (List.Perm.swap ..).subset (onlyRegs_advance_boot _ s), hu,
    step_of_fetchesRam he hf (decode_encode i) hu⟩

/-- Settles O42: with no device to tick, what follows the raise is the cycle count alone. -/
theorem illegalWordRaisesBadInstr : Obligations.IllegalWordRaisesBadInstr := by
  intro s w e he hf hd
  have hstep := step_of_fetchesRam_invalid he hf hd
  refine ⟨hstep, fun hidle hquiet t ht => ?_⟩
  have hidle' : (advance w.w0 (boot s)).handling = false := (advance_boot_handling _ s).trans hidle
  obtain rfl : endStep (raise .badInstr (advance w.w0 (boot s))) = t := by simpa [hstep] using ht
  rw [raise_idle _ _ hidle', endStep_quiet _ (by simpa using hquiet)]
  refine ⟨rfl, rfl, rfl, ?vector, congrArg (· + 1) (boot_cycle s)⟩
  case vector =>
    obtain ⟨-, hpc, -⟩ := enteredHandler_enterHandler .badInstr 4 (advance w.w0 (boot s)) rfl
    rw [advance_ivt, boot_ivt] at hpc
    exact hpc

section ticking
variable {s t : State}

/-- What the tick phase can leave of a handler: its snapshot and flags stand, and any request has been FAULT (R311,
R321). -/
def tickedInHandler (s t : State) : Prop :=
  t.handling = true ∧ t.saved = s.saved ∧ t.regs.flags = s.regs.flags ∧ t.ivt = s.ivt ∧
  (t.regs.pc = s.regs.pc ∧ t.lastint = s.lastint ∨ t.regs.pc = s.vector .fault ∧ t.lastint = some .fault)

/-- What the tick phase can leave of IDLE: no request, or a handler entered by the first, with a snapshot of the state
before the tick phase (R310, R318). -/
def tickedInIdle (s t : State) : Prop :=
  t.regs = s.regs ∧ controllerKept s t ∨
  t.handling = true ∧ t.saved = s.regs ∧ t.ivt = s.ivt ∧ ∃ k, t.lastint = some k ∧ t.regs.pc = s.vector k

theorem vector_congr (k : Kind) (h : t.ivt = s.ivt) : t.vector k = s.vector k := by
  rw [State.vector, State.vector, h]

/-- Entry from IDLE leaves a handler (R310). -/
theorem enterHandler_handling (k : Kind) (s : State) : (enterHandler k s).handling = true := by
  simp [State.handling, flagsHandling, flagsEnter]

/-- Each tick in a handler leaves one (R311). -/
theorem tickedInHandler_tickDevice (d : DeviceId) (h : tickedInHandler s t) : tickedInHandler s (tickDevice d t) := by
  refine tickDevice_elim d t (fun _ => h) fun k x => ?_
  obtain ⟨hhandler, hsaved, hflags, hivt, -⟩ := h
  rw [raise_handling k (t.setDevice d x) hhandler]
  exact ⟨hhandler, hsaved, hflags, hivt, .inr ⟨vector_congr .fault hivt, rfl⟩⟩

/-- The first request in IDLE enters its handler, and a later one there is FAULT (R318). -/
theorem tickedInIdle_tickDevice (d : DeviceId) (hidle : s.handling = false) (h : tickedInIdle s t) :
    tickedInIdle s (tickDevice d t) := by
  refine tickDevice_elim d t (fun _ => h) fun k x => .inr ?_
  rcases h with ⟨hregs, -, hivt, -⟩ | ⟨hhandler, hsaved, hivt, -⟩
  · have hidle' : (t.setDevice d x).handling = false := by rwa [State.handling, setDevice_regs, hregs]
    rw [raise_idle k _ hidle']
    exact ⟨enterHandler_handling k _, hregs, hivt, k, rfl, vector_congr k hivt⟩
  · rw [raise_handling k (t.setDevice d x) hhandler]
    exact ⟨hhandler, hsaved, hivt, .fault, rfl, vector_congr .fault hivt⟩

theorem tickedInHandler_tickAll (ids : List DeviceId) (h : s.handling = true) : tickedInHandler s (tickAll ids s) :=
  tickAll_keeps ids s (fun d _ => tickedInHandler_tickDevice d) ⟨h, rfl, rfl, rfl, .inl ⟨rfl, rfl⟩⟩

theorem tickedInIdle_tickAll (ids : List DeviceId) (h : s.handling = false) : tickedInIdle s (tickAll ids s) :=
  tickAll_keeps ids s (fun d _ => tickedInIdle_tickDevice d h) (.inl ⟨rfl, rfl, rfl, rfl⟩)

/-- The end of a step writes no register but `pc`, `flags` and `cycle` (R136, R137). -/
theorem regsKept_endStep (s : State) : regsKept [.pc, .flags, .cycle] s (endStep s) := by
  intro r hr
  obtain ⟨hpc, hflags, hcycle⟩ : r ≠ .pc ∧ r ≠ .flags ∧ r ≠ .cycle := by simpa using hr
  rw [endStep_eq_setReg, reg_setReg_other _ _ _ _ hcycle, tickAll_reg _ _ _ hpc hflags]

end ticking

/-- Settles O43: the two states of the controller by what each tick leaves of them. -/
theorem tickPhaseAndCycle : Obligations.TickPhaseAndCycle := by
  refine ⟨finish_eq, endStep_eq_setReg, fun _ => rfl, fun _ _ _ => rfl,
    fun s => ⟨endStep_mem s, endStep_stack s, endStep_ivt s, ⟨endStep_running s, endStep_fatal s⟩, regsKept_endStep s⟩,
    fun s hs => ?handler, fun s hs => ?idle⟩
  case handler =>
    rw [endStep_eq_setReg]
    obtain ⟨-, hsaved, hflags, -, hrequest⟩ := tickedInHandler_tickAll s.peripherals hs
    exact ⟨hsaved, hflags, hrequest⟩
  case idle =>
    rw [endStep_eq_setReg]
    rcases tickedInIdle_tickAll s.peripherals hs with ⟨hregs, hcontroller⟩ | ⟨hhandler, hsaved, -, hrequest⟩
    · refine .inl ⟨?_, hcontroller⟩
      exact regsKept_setReg .cycle _ fun r _ => congrArg (RegFile.get · r) hregs
    · exact .inr ⟨hsaved, hhandler, hrequest⟩

section stopping
variable {s t : State}

/-- The boot rule writes `pc` (R131). -/
theorem onlyRegs_boot (s : State) : onlyRegs [.pc] s (boot s) := by
  rw [boot_eq_setReg]
  exact onlyRegs_setReg s .pc _

/-- A step that stops the block has done no more than the boot rule and the fetch advance, but to devices (R360). -/
theorem step_fatal_cases (he : s.enabled = true) (h : step s = .next t) (hfatal : t.fatal ≠ none) :
    ∃ reason ds u, t = stopFatal reason { u with devices := ds } ∧ (u = boot s ∨ ∃ w, u = advance w (boot s)) := by
  have hrun := fatal_of_enabled he
  rcases step_cases s t h with ⟨hdis, -⟩ | ⟨-, ⟨ds, rfl⟩ | ⟨ds, rfl⟩ | ⟨w, ds, e, -, rfl⟩ | ⟨w, ds, i, u, -, hu, rfl⟩⟩
  · exact absurd (hdis.symm.trans he) (by decide)
  · exact absurd (by simpa using hrun) hfatal
  · exact ⟨_, ds, boot s, rfl, .inl rfl⟩
  · exact absurd (by simpa using hrun) hfatal
  · cases execResult_of_exec hu with
    | raised k es => exact absurd (by simpa using hrun) hfatal
    | badKind es | deviceFailed es =>
      exact ⟨_, es, advance w.w0 (boot s), finish_of_fatal_ne_none nofun, .inr ⟨w.w0, rfl⟩⟩
    | committed _ hc => exact absurd (by simpa [hc.fatal] using hrun) hfatal

end stopping

/-- Settles O44: a step that stops has done no more than the boot rule and the fetch advance. -/
theorem fatalStopEndsTheStep : Obligations.FatalStopEndsTheStep := by
  refine ⟨fun s t he h hfatal => ?stops, fun s k v he hidle hk hf => ?badKind⟩
  case stops =>
    obtain ⟨reason, ds, u, rfl, hu⟩ := step_fatal_cases he h hfatal
    have hmem : u.mem = s.mem := by rcases hu with rfl | ⟨w, rfl⟩ <;> simp
    have hframe : onlyRegs [.pc, .ip] s u := by
      rcases hu with rfl | ⟨w, rfl⟩
      · exact onlyRegs_mono (by simp) (onlyRegs_boot s)
      · exact onlyRegs_advance_boot w s
    obtain ⟨hregs, -, hstack, hcontroller, ⟨hrunning, -⟩, -⟩ := hframe
    exact ⟨hregs .cycle (by decide), hregs, hmem, hstack, hcontroller, hrunning, step_of_fatal_ne_none hfatal⟩
  case badKind =>
    have hidle' : (advance 0x0331000000000000 (boot s)).handling = false := (advance_boot_handling _ s).trans hidle
    have hd := decode_of_wordsWithOneOperand (i := .intI k) (by decide) rfl v
    rw [step_of_fetchesRam he hf hd (exec_intI_eq k _), raiseCode_idle_badKind hidle' hk]
    exact congrArg _ (finish_of_fatal_ne_none nofun)

section livelock
variable {s : State}

/-- FAULT in a handler that stands at the FAULT vector, with FAULT recorded, changes nothing (R311, R315). -/
theorem nestedFault_eq_self (hpc : s.regs.pc = s.vector .fault) (hlast : s.lastint = some .fault) :
    nestedFault s = s := by
  rw [nestedFault, ← hpc, ← hlast]

/-- With no device to tick, a handler at an unmapped FAULT vector faults again at its fetch, and only `cycle` advances
(R132, R137, R315). -/
theorem step_unmappedFaultVector (he : s.enabled = true) (hs : s.handling = true) (hquiet : s.peripherals = [])
    (hpc : s.regs.pc = s.vector .fault) (hne : s.regs.pc ≠ 0) (hun : isUnmapped s s.regs.pc = true)
    (hlast : s.lastint = some .fault) :
    step s = .next { s with regs := { s.regs with cycle := s.regs.cycle + 1 } } := by
  have hfetch : fetch (boot s) = .raised (raise .badAddr s) := by
    rw [boot_of_pc_ne_zero hne]
    exact fetch_unmapped s (n := 0) (by decide) (fun _ hk => absurd hk (Nat.not_lt_zero _)) (by simpa using hun)
  rw [step_raised s _ he hfetch, raise_handling _ s hs, nestedFault_eq_self hpc hlast, endStep_quiet s hquiet]

/-- A run takes its first step, and goes on from there. -/
theorem run_succ {M : Host.Core} {s t : M.State} (h : M.step s = .next t) (n : Nat) :
    M.run (n + 1) s = M.run n t := by
  simp only [Host.Core.run, h]

end livelock

/-- Settles O45, by induction on the number of steps: the premises hold again after each. -/
theorem unmappedFaultVectorLivelocks : Obligations.UnmappedFaultVectorLivelocks := by
  intro n
  induction n with
  | zero => intro s _ _ _ _ _ _ _; simp [Host.Core.run]
  | succ n ih =>
    intro s he hs hquiet hpc hne hun hlast
    have hstep := step_unmappedFaultVector he hs hquiet hpc hne hun hlast
    refine (run_succ (M := Sys2Proof.core) hstep n).trans ?_
    refine (ih { s with regs := { s.regs with cycle := s.regs.cycle + 1 } } he hs hquiet hpc hne hun hlast).trans ?_
    have hcycle : s.regs.cycle + 1 + BitVec.ofNat 64 n = s.regs.cycle + BitVec.ofNat 64 (n + 1) := by
      rw [BitVec.add_assoc, BitVec.add_comm 1, BitVec.ofNat_add]
      rfl
    simp only [hcycle]

end Sys2Proof.Proofs

/-! More forms (40_alu.md section 3, 42_stack.md section 1, 60_exceptions.md R323, 20_memory.md R75, R76): the bitwise
operations, a run of pushes, the writes of `flags` by software, and the first read of an instruction. -/

namespace Sys2Proof.Proofs

open Sys2Proof.Machine Sys2Proof.Claims

section bitwise
variable (a b : Word)

/-- R170's right-hand side. -/
theorem andWords_eq : andWords a b = BitVec.ofNat 64 (a.toNat &&& b.toNat) := by
  rw [← BitVec.toNat_and, BitVec.ofNat_toNat, BitVec.setWidth_eq, andWords]

/-- R172's right-hand side. -/
theorem orWords_eq : orWords a b = BitVec.ofNat 64 (a.toNat ||| b.toNat) := by
  rw [← BitVec.toNat_or, BitVec.ofNat_toNat, BitVec.setWidth_eq, orWords]

/-- R174's right-hand side. -/
theorem xorWords_eq : xorWords a b = BitVec.ofNat 64 (a.toNat ^^^ b.toNat) := by
  rw [← BitVec.toNat_xor, BitVec.ofNat_toNat, BitVec.setWidth_eq, xorWords]

/-- The complement within 64 bits, in natural numbers. -/
theorem not_eq_notNat : ~~~a = BitVec.ofNat 64 (notNat a.toNat) := by
  rw [notNat, ← BitVec.toNat_not, BitVec.ofNat_toNat, BitVec.setWidth_eq]

/-- R176's right-hand side. -/
theorem norWords_eq : norWords a b = BitVec.ofNat 64 (notNat (a.toNat ||| b.toNat)) := by
  rw [norWords, not_eq_notNat, BitVec.toNat_or]

/-- R178's right-hand side. -/
theorem nandWords_eq : nandWords a b = BitVec.ofNat 64 (notNat (a.toNat &&& b.toNat)) := by
  rw [nandWords, not_eq_notNat, BitVec.toNat_and]

end bitwise

/-- Settles O2: each is `AluR` of a bitwise operation. -/
theorem bitwiseRegisterForms : Obligations.BitwiseRegisterForms :=
  ⟨aluRegisterRule_of_exec (fun _ _ => rfl) (fun _ _ _ => rfl) andWords_eq,
    aluRegisterRule_of_exec (fun _ _ => rfl) (fun _ _ _ => rfl) orWords_eq,
    aluRegisterRule_of_exec (fun _ _ => rfl) (fun _ _ _ => rfl) xorWords_eq,
    aluRegisterRule_of_exec (fun _ _ => rfl) (fun _ _ _ => rfl) norWords_eq,
    aluRegisterRule_of_exec (fun _ _ => rfl) (fun _ _ _ => rfl) nandWords_eq⟩

/-- Settles O6: each is `AluM` of a bitwise operation. -/
theorem bitwiseMemoryForms : Obligations.BitwiseMemoryForms :=
  ⟨aluMemoryRule_of_exec (fun _ _ => rfl) (fun _ _ _ => rfl) andWords_eq,
    aluMemoryRule_of_exec (fun _ _ => rfl) (fun _ _ _ => rfl) orWords_eq,
    aluMemoryRule_of_exec (fun _ _ => rfl) (fun _ _ _ => rfl) xorWords_eq,
    aluMemoryRule_of_exec (fun _ _ => rfl) (fun _ _ _ => rfl) norWords_eq,
    aluMemoryRule_of_exec (fun _ _ => rfl) (fun _ _ _ => rfl) nandWords_eq⟩

section pushRuns
variable {s : State}

/-- `push imm` with room ends in `pushed` (R234). -/
theorem exec_pushI_of_hasRoom (v : Imm) (h : hasRoom s) : exec (.pushI v) s = .next (pushed v s) := by
  rw [exec_pushI_eq, push_of_hasRoom v _ h]

/-- As many pushes as there is room for, one after another: each lies just below the one before it, and the entries from
the old top on stay (R230). -/
theorem execAll_pushI (vs : List Word) (s : State) (hcap : s.regs.sp.toNat ≤ s.params.stackCapacity.toNat)
    (hroom : vs.length ≤ s.regs.sp.toNat) :
    ∃ t, execAll (vs.map Instr.pushI) s = .next t ∧ t.regs.sp.toNat + vs.length = s.regs.sp.toNat ∧
      (∀ k (h : k < vs.length), t.stackAt (s.regs.sp.toNat - 1 - k) = vs[k]) ∧
      (∀ j, s.regs.sp.toNat ≤ j → t.stackAt j = s.stackAt j) ∧ t.lastint = s.lastint := by
  induction vs generalizing s with
  | nil => exact ⟨s, rfl, rfl, fun k h => absurd h (Nat.not_lt_zero k), fun _ _ => rfl, rfl⟩
  | cons v vs ih =>
    rw [List.length_cons] at hroom
    have hfirst : hasRoom s := ⟨by omega, hcap⟩
    obtain ⟨hsp, htop, hothers, -⟩ := pushes_pushed v hfirst
    have hcap' : (pushed v s).regs.sp.toNat ≤ (pushed v s).params.stackCapacity.toNat :=
      Nat.le_trans (by omega) hcap
    obtain ⟨t, hrun, hspt, hplaced, hkept, hlast⟩ := ih (pushed v s) hcap' (by omega)
    refine ⟨t, ?run, ?sp, fun k hk => ?placed, fun j hj => ?kept, hlast⟩
    case run =>
      rw [List.map_cons, execAll, exec_pushI_of_hasRoom v hfirst]
      exact hrun
    case sp => rw [List.length_cons]; omega
    case placed =>
      cases k with
      | zero =>
        rw [show s.regs.sp.toNat - 1 - 0 = (pushed v s).regs.sp.toNat by omega, hkept _ (Nat.le_refl _)]
        exact htop
      | succ k =>
        rw [show s.regs.sp.toNat - 1 - (k + 1) = (pushed v s).regs.sp.toNat - 1 - k by omega]
        exact hplaced k (Nat.lt_of_succ_lt_succ hk)
    case kept => rw [hkept j (by omega), hothers j (by omega)]

variable (p : Params) (map : List Region) (ps : List DeviceId) (ds : List DeviceState)

/-- The stack as reset leaves it is empty: `sp` is the capacity (R41, R52). -/
theorem not_hasEntry_init : ¬ hasEntry (State.init p map ps ds) := Nat.lt_irrefl p.stackCapacity.toNat

/-- The stack as reset leaves it has room, as the capacity is at least 1 (R11). -/
theorem hasRoom_init : hasRoom (State.init p map ps ds) := ⟨p.stackCapacity_pos, Nat.le_refl p.stackCapacity.toNat⟩

end pushRuns

/-- Settles O18: a run of pushes by induction on its words; after the last there is no room. -/
theorem stackHoldsExactlyItsCapacity : Obligations.StackHoldsExactlyItsCapacity := by
  refine ⟨fun s vs capacity hcap hsp hlength => ?fill, fun p map ps ds i hi => ?popEmpty, fun p map ps ds v => ?pushOne⟩
  case fill =>
    obtain ⟨t, hrun, hspt, hplaced, -, hlast⟩ := execAll_pushI vs s (by omega) (by omega)
    rw [hsp] at hspt hplaced
    refine ⟨t, hrun, hspt, hplaced, hlast, fun hfull v => ?_⟩
    have hzero : ¬ hasRoom t := fun ⟨hpos, _⟩ => by omega
    rw [exec_pushI_eq, push_of_not_hasRoom v _ hzero]
  case popEmpty =>
    obtain ⟨r, hr⟩ := (Machine.regCheck_iff p i).mp hi
    exact congrArg _ ((withReg_valid i _ _ r hr).trans (pop_of_not_hasEntry _ (not_hasEntry_init p map ps ds)))
  case pushOne =>
    have hroom := hasRoom_init p map ps ds
    exact ⟨p.stackCapacity_pos, _, exec_pushI_of_hasRoom v hroom, pushes_pushed v hroom⟩

section writingFlags
variable {s t : State} {w v : Word} {r : Reg}

/-- Index 0 is `flags`, whatever the parameters (R32). -/
theorem regOfIndex_zero (p : Params) : regOfIndex p 0 = some .flags := rfl

/-- A write of `flags` alone gives `IF` bit 0 of the word (R39, R323). -/
theorem writesFlags_of_setsReg (h : setsReg .flags w s t) : writesFlags w s (.next t) := by
  obtain ⟨hflags, hframe⟩ := h
  exact ⟨t, rfl, congrArg (BitVec.getLsbD · 0) hflags, hflags, hframe⟩

/-- An ALU form with `flags` as destination, of an operation that gives a result, writes it (R160, R323). -/
theorem writesFlags_aluR {f : Word → Word → Option Word} (hr : regOfIndex s.params v = some r)
    (hf : f s.regs.flags (s.reg r) = some w) : writesFlags w s (.next (aluR f 0 v s)) := by
  rw [aluR_of_some (regOfIndex_zero _) hr hf]
  exact writesFlags_of_setsReg (setsReg_setReg s .flags w)

/-- A shift by the whole word needs no case for an amount of 64 or more, as all bits have then gone (R180). -/
theorem lshiftWords_eq_shiftLeft (a b : Word) : lshiftWords a b = a <<< b.toNat := by
  unfold lshiftWords
  split
  · exact (BitVec.shiftLeft_eq_zero ‹_›).symm
  · rfl

/-- The same to the right (R182). -/
theorem rshiftWords_eq_ushiftRight (a b : Word) : rshiftWords a b = a >>> b.toNat := by
  unfold rshiftWords
  split
  · exact (BitVec.ushiftRight_eq_zero ‹_›).symm
  · rfl

end writingFlags

/-- Settles O30: each form is a register write with `flags` as destination, and only POP has written `sp` too. -/
theorem softwareWritesInterruptBit : Obligations.SoftwareWritesInterruptBit := by
  intro v s
  have hflags := regOfIndex_zero s.params
  refine ⟨?immediate, fun r hr => ?register, fun hram => ?memory, fun hentry => ?pop, fun r hr => ?alu,
    fun r hr hne => ?div, _, driverPoke_valid v hflags, writesFlags_of_setsReg (setsReg_setReg s .flags v)⟩
  case immediate =>
    rw [exec_movRI_eq, withReg_valid 0 s _ _ hflags]
    exact writesFlags_of_setsReg (setsReg_setReg s .flags v)
  case register =>
    rw [exec_movRR_eq, withReg_withReg_valid _ hflags hr]
    exact writesFlags_of_setsReg (setsReg_setReg s .flags _)
  case memory =>
    rw [exec_movRM_eq, withReg_valid 0 s _ _ hflags, memRead_ram v s _ hram]
    exact writesFlags_of_setsReg (setsReg_setReg s .flags _)
  case pop =>
    rw [exec_popR_eq, withReg_valid 0 s _ _ hflags, pop_of_hasEntry _ hentry]
    exact ⟨_, rfl, rfl, rfl, onlyRegs_dropTop_setReg s .flags _⟩
  case alu =>
    simp only [List.forall_mem_cons]
    refine ⟨writesFlags_aluR hr rfl, writesFlags_aluR hr rfl, writesFlags_aluR hr rfl, writesFlags_aluR hr rfl,
      writesFlags_aluR hr rfl, writesFlags_aluR hr rfl, writesFlags_aluR hr rfl, writesFlags_aluR hr rfl, ?lshift,
      ?rshift, by simp⟩
    case lshift => exact writesFlags_aluR hr (congrArg some (lshiftWords_eq_shiftLeft _ _))
    case rshift => exact writesFlags_aluR hr (congrArg some (rshiftWords_eq_ushiftRight _ _))
  case div => exact writesFlags_aluR hr (if_neg hne)

section firstReads
variable {i : Instr} {s : State} {a : Address}

/-- An instruction whose registers are valid begins with its first read, where its rule has one (R78). -/
theorem exec_eq_memRead_firstRead (hwf : wellFormed s.params i = true) (hfirst : firstRead i s = some a) :
    ∃ next, exec i s = .next (memRead a s next) := by
  cases i <;> simp only [firstRead, Option.some.injEq, reduceCtorEq] at hfirst
  case lditblR r =>
    exact ⟨_, congrArg _ (locationOperand_of_some (kind := .reg) _ hfirst)⟩
  case movRM rd src =>
    subst hfirst
    obtain ⟨d, hd⟩ := (Machine.regCheck_iff s.params rd).mp (by simpa [wellFormed, registerOperands] using hwf)
    exact ⟨_, congrArg _ (withReg_valid rd s _ d hd)⟩
  all_goals
    subst hfirst
    exact ⟨_, rfl⟩

end firstReads

/-- Settles O34, by the bus's answer to the first read. -/
theorem firstReadFailureRaisesOrStops : Obligations.FirstReadFailureRaisesOrStops := by
  intro i s a hwf hfirst
  obtain ⟨next, hexec⟩ := exec_eq_memRead_firstRead hwf hfirst
  refine ⟨fun hun => hexec.trans (congrArg _ (memRead_unmapped a s next hun)), ?answer⟩
  have hun := busRead_unmapped_iff s a
  split
  case h_1 t hbus => rw [hexec, memRead_answered, hbus]; rfl
  case h_2 t hbus =>
    have hunmapped : isUnmapped s a = true := hun.mp (by rw [hbus])
    rw [busRead_unmapped s a hunmapped] at hbus
    cases hbus
    exact ⟨rfl, hunmapped⟩
  case h_3 x t hbus => simpa [hbus] using hun

end Sys2Proof.Proofs

/-! RAM, reset and register numbering (20_memory.md section 3, 70_reset_and_hazards.md section 1, 10_state.md sections 1
and 6): what a written and an unwritten word read as, what setting up the region list comes to, and the flat indices. -/

namespace Sys2Proof.Proofs

open Sys2Proof.Machine

section ram
variable {s : State} {a b : Address} {w : Word}

/-- The bytes of consecutive cells, by their places. -/
theorem readBytes_eq_map (m : Memory) (k n : Nat) :
    m.readBytes k n = (List.range n).map fun j => m.byteAt (k + j) := by
  induction n generalizing k with
  | zero => rfl
  | succ n ih =>
    rw [Memory.readBytes, ih, List.range_succ_eq_map, List.map_cons, List.map_map]
    refine congrArg _ (List.map_congr_left fun j _ => congrArg m.byteAt ?_)
    exact Nat.add_right_comm k 1 j

/-- A word none of whose cells has been written reads as RAM_INIT (R79; log entry 2). -/
theorem word_of_unwritten (h : ∀ k, inWord a k → s.mem.read k = none) :
    s.word a = wordOfBytes ((List.range 8).map fun k => Config.ramInit (8 * a.toNat + k)) := by
  rw [State.word, Memory.readWord, readBytes_eq_map]
  refine congrArg _ (List.map_congr_left fun j hj => ?_)
  have hcell : inWord a (wordCell a + j) := ⟨Nat.le_add_right _ _, Nat.add_lt_add_left (List.mem_range.mp hj) _⟩
  rw [Memory.byteAt, h _ hcell]
  rfl

/-- On a map of one RAM region, RAM answers the addresses between its bounds (R72). -/
theorem isRam_of_regions_singleton {r : Region} (hregions : s.regions = [r]) (hram : r.backing = .ram) :
    isRam s a = true ↔ r.start.toNat ≤ a.toNat ∧ a.toNat < r.stop.toNat := by
  rw [isRam, hregions, ← regionContains_iff]
  cases hc : regionContains r a <;> simp [decodeAddress, hc, hram]

/-- The RAM window of any parameters (R10; log entry 9). -/
theorem isRam_init_ramWindow (p : Params) (ps : List DeviceId) (ds : List DeviceState) (a : Address) :
    isRam (State.init p p.ramWindow ps ds) a = true ↔
      p.ramBase.toNat ≤ a.toNat ∧ a.toNat < (p.ramBase + p.ramSize).toNat :=
  isRam_of_regions_singleton (r := ⟨p.ramBase, p.ramBase + p.ramSize, .ram⟩) rfl rfl

end ram

/-- Settles O53: a write stores one word of RAM's cells, and the window's bounds are its one region's. -/
theorem ramHoldsWhatWasWritten : Obligations.RamHoldsWhatWasWritten := by
  refine ⟨fun s a w hram => ?written, fun s a hram hunwritten => ?unwritten, isRam_init_ramWindow,
    fun a => isRam_init_ramWindow Config.defaults [] [] a⟩
  case written =>
    obtain ⟨hword, honly⟩ := setsWord_writeWord s a w
    refine ⟨_, busWrite_ram s a w hram, ?_, honly, fun b hne hb => ?_⟩
    · exact (busRead_ram { s with mem := s.mem.writeWord a w } a hram).trans (by rw [hword])
    · refine (busRead_ram { s with mem := s.mem.writeWord a w } b hb).trans ?_
      rw [State.word, Memory.readWord_writeWord_other _ a b w hne, State.word]
  case unwritten => rw [busRead_ram s a hram, word_of_unwritten hunwritten]

section setup
variable {map : List Region}

/-- Two entries of a map that do not cover the same bounds (R71). -/
def differ (r q : Region) : Prop := ¬ (r.start = q.start ∧ r.stop = q.stop)

theorem sameRange_eq_true_iff (r q : Region) : sameRange r q = true ↔ ¬ differ q r := by
  simp [sameRange, differ, @eq_comm _ q.start, @eq_comm _ q.stop]

/-- Setting up adds the whole map where no two entries have the same bounds, and fails where two have (R71, R350). -/
theorem buildRegions_cases (built rest : List Region) (hbuilt : built.Pairwise differ) :
    (built ++ rest).Pairwise differ ∧ buildRegions built rest = (built ++ rest, true) ∨
    ¬ (built ++ rest).Pairwise differ ∧ ∃ rs, buildRegions built rest = (rs, false) := by
  induction rest generalizing built with
  | nil => exact .inl ⟨by simpa using hbuilt, by simp [buildRegions]⟩
  | cons r rest ih =>
    by_cases hsame : built.any (sameRange r) = true
    · obtain ⟨q, hq, hqr⟩ := List.any_eq_true.mp hsame
      refine .inr ⟨fun h => ?_, built, by rw [buildRegions, if_pos hsame]⟩
      obtain ⟨-, -, hacross⟩ := List.pairwise_append.mp h
      exact (sameRange_eq_true_iff r q).mp hqr (hacross q hq r List.mem_cons_self)
    · have hnew : (built ++ [r]).Pairwise differ := by
        refine List.pairwise_append.mpr ⟨hbuilt, List.pairwise_singleton _ _, fun q hq r' hr' => ?_⟩
        obtain rfl := List.mem_singleton.mp hr'
        by_contra hdiffer
        exact hsame (List.any_eq_true.mpr ⟨q, hq, (sameRange_eq_true_iff _ q).mpr hdiffer⟩)
      rw [buildRegions, if_neg hsame]
      simpa using ih (built ++ [r]) hnew

/-- What a reset comes to (R350). -/
theorem driverReset_cases (p : Params) (map : List Region) (ps : List DeviceId) (s : State) :
    map.Pairwise differ ∧
      driverReset p map ps s = (State.init p map ps (resetDevices map s.devices), .ok ()) ∨
    ¬ map.Pairwise differ ∧
      ∃ rs, driverReset p map ps s = ({ s with regions := rs, setupFailed := true }, .error .alreadyMapped) := by
  rcases buildRegions_cases [] map .nil with ⟨hdiffer, h⟩ | ⟨hsame, rs, h⟩
  · exact .inl ⟨hdiffer, by rw [driverReset, h]; rfl⟩
  · exact .inr ⟨hsame, rs, by rw [driverReset, h]⟩

/-- A reset that succeeds was of a map without doubled bounds, and leaves the reset state (R350). -/
theorem driverReset_eq_ok {p : Params} {ps : List DeviceId} {s t : State} (h : driverReset p map ps s = (t, .ok ())) :
    map.Pairwise differ ∧ t = State.init p map ps (resetDevices map s.devices) := by
  rcases driverReset_cases p map ps s with ⟨hdiffer, hok⟩ | ⟨-, rs, herror⟩
  · exact ⟨hdiffer, congrArg Prod.fst (h.symm.trans hok)⟩
  · cases h.symm.trans herror

/-- A machine whose setup failed takes no step (R350). -/
theorem step_of_setupFailed {s : State} (h : s.setupFailed = true) : step s = .next s :=
  step_disabled s (by simp [State.enabled, h])

theorem resetDevices_ram {r : Region} (rest : List Region) (ds : List DeviceState) (h : r.backing = .ram) :
    resetDevices (r :: rest) ds = resetDevices rest ds := by
  rw [resetDevices, h]

theorem resetDevices_device {r : Region} {id : DeviceId} (rest : List Region) (ds : List DeviceState)
    (h : r.backing = .device id) : resetDevices (r :: rest) ds =
      resetDevices rest (deviceUpdate ds id (Config.deviceReset id (deviceLookup ds id))) := by
  rw [resetDevices, h]

end setup

/-- Settles O55, by whether the map has two entries with the same bounds. -/
theorem resetRebuildsOrFails : Obligations.ResetRebuildsOrFails := by
  refine ⟨fun p map ps s => ?setup, fun _ => rfl, fun _ rest ds h => resetDevices_ram rest ds h,
    fun _ rest ds id h => ⟨_, resetDevices_device rest ds h, fun j => deviceLookup_update ds id j _⟩⟩
  rcases driverReset_cases p map ps s with ⟨hdiffer, hok⟩ | ⟨hsame, rs, herror⟩
  · exact ⟨fun _ => hok, fun hnot => absurd hdiffer hnot⟩
  · exact ⟨fun hpairwise => absurd hpairwise hsame, fun _ => ⟨_, herror, step_of_setupFailed rfl⟩⟩

section resetValues
variable (p : Params)

/-- Every register holds 0 after reset but `sp`, which holds the capacity (R52). -/
theorem regFileReset_get (r : Reg) : (RegFile.reset p).get r = if r = .sp then p.stackCapacity else 0 := by
  cases r <;> simp [RegFile.reset, RegFile.get]

/-- Every register of the saved file holds 0 after reset (R52). -/
theorem regFileZero_get (r : Reg) : (RegFile.zero p).get r = 0 := by
  cases r <;> simp [RegFile.zero, RegFile.reset, RegFile.get]

theorem regFileReset_shaped : (RegFile.reset p).shaped p := by simp [RegFile.shaped, RegFile.reset]

/-- The state after reset has the invariant, where its map has no doubled bounds: no cell is written, and each array has
the length of its parameter. -/
theorem machineInv_init {map : List Region} (ps : List DeviceId) (ds : List DeviceState)
    (hdiffer : map.Pairwise differ) : machineInv (State.init p map ps ds) :=
  ⟨⟨.nil, nofun⟩, fun _ => hdiffer, List.length_replicate, regFileReset_shaped p, regFileReset_shaped p⟩

end resetValues

/-- Settles O54: every reset that succeeds leaves `State.init`, whose fields are the values. -/
theorem resetValues : Obligations.ResetValues := by
  refine ⟨fun p map ps s t h => ?values, rfl, rfl, rfl, rfl, rfl, rfl, rfl⟩
  obtain ⟨-, rfl⟩ := driverReset_eq_ok h
  exact ⟨regFileReset_get p, regFileZero_get p, List.length_replicate, fun k => entryAt_replicate 0 _ k,
    fun k hk => Vector.getElem_replicate hk, rfl, rfl, rfl, fun _ => ⟨rfl, rfl⟩⟩

/-- Settles O60: the default map is of one region, and a reset accepts a map without doubled bounds only. -/
theorem resetHasTheInvariant : Obligations.ResetHasTheInvariant := by
  refine ⟨machineInv_init _ _ _ (List.pairwise_singleton _ _), fun p map ps s t h => ?_⟩
  obtain ⟨hdiffer, rfl⟩ := driverReset_eq_ok h
  exact machineInv_init p ps _ hdiffer

section numbering
variable {p : Params} {i : RegIndex} {r : Reg}

/-- The banks in their order (R32). -/
theorem bankReg_eq_getElem? (b n : Nat) : bankReg b n = [Reg.data n, .index n, .addr n, .ptr n][b]? := by
  match b with
  | 0 | 1 | 2 | 3 => rfl
  | _ + 4 => rfl

/-- A register that an index names is one of those the assembler has names for (R32, R35). -/
theorem mem_allRegs_of_regOfIndex (h : regOfIndex p i = some r) : r ∈ allRegs p := by
  unfold regOfIndex bankReg at h
  split at h
  case h_7 n _ =>
    split at h
    case isTrue hslot =>
      split at h <;> cases h <;> simp [allRegs, hslot]
    case isFalse => cases h
  all_goals (cases h; simp [allRegs])

/-- No two of the 46 registers have the same name (R35). -/
theorem regName_nodup : ((allRegs Config.defaults).map regName).Nodup := by decide

/-- A register's name stands for that register (R35, R141). -/
theorem regOfName_regName (h : r ∈ allRegs Config.defaults) : regOfName Config.defaults (regName r) = some r := by
  have hsome : (regOfName Config.defaults (regName r)).isSome := by
    rw [regOfName, List.find?_isSome]
    exact ⟨r, h, beq_self_eq_true _⟩
  obtain ⟨q, hq⟩ := Option.isSome_iff_exists.mp hsome
  have hname : regName q = regName r := by simpa using List.find?_some hq
  rw [hq, List.inj_on_of_nodup_map regName_nodup (List.mem_of_find?_eq_some hq) h hname]

/-- The scalars are indices 0 to 5 in the source's order, whatever the parameters (R32). -/
theorem regOfIndex_scalar (p : Params) {n : Nat} (h : [Reg.flags, .tmp, .sp, .ip, .pc, .cycle][n]? = some r) :
    regOfIndex p (BitVec.ofNat 64 n) = some r := by
  match n, h with
  | 0, h | 1, h | 2, h | 3, h | 4, h | 5, h => cases h; rfl

end numbering

/-- Settles O33: the banks by the index of a slot, the padding by RegCheck's ranges, the names because each register has
one of its own. -/
theorem registerNumbering : Obligations.RegisterNumbering := by
  refine ⟨fun n r p h => regOfIndex_scalar p h, fun n hn => ?banks, fun i hi => ?padding, fun p i j r hi hj => ?unique,
    fun p b n hn hw => ?slots, fun i r units s h => ⟨?assembler, fun hp => ?host⟩⟩
  case banks =>
    have hbank (b : Nat) (hb : b < 4) := regOfIndex_bankIndex Config.defaults b n hn
      (show 6 + (10 + 1) * b + n < 2 ^ 64 by omega)
    exact ⟨hbank 0 (by decide), hbank 1 (by decide), hbank 2 (by decide), hbank 3 (by decide)⟩
  case padding =>
    obtain ⟨hranges, -⟩ := invalidRegisterIndexRaises
    rw [regOfIndex_eq_none_iff, ← Bool.not_eq_true, hranges]
    rcases hi with rfl | rfl | rfl | hi
    · decide
    · decide
    · decide
    · omega
  case unique => rw [← regIndex_of_regOfIndex p i r hi, regIndex_of_regOfIndex p j r hj]
  case slots => exact (regOfIndex_bankIndex p b n hn hw).trans (bankReg_eq_getElem? b n)
  case assembler =>
    rw [operandWord, regOfName_regName (mem_allRegs_of_regOfIndex h)]
    simp only [regIndex_of_regOfIndex _ i r h]
  case host => exact driverPeek_valid (hp ▸ h)

end Sys2Proof.Proofs

/-! The host's transfers (20_memory.md section 7, R93, R94, R84): what a run of words written to RAM leaves, what a dump
reads back, and the image of an assembled program. -/

namespace Sys2Proof.Proofs

open Sys2Proof.Machine

section lists
variable {α β : Type} {f : α → List β} {c : Nat}

/-- Element `c * k + j` of lists of length `c` joined together is element `j` of the `k`-th. -/
theorem getElem?_flatMap_of_length (hf : ∀ x, (f x).length = c) (l : List α) (k : Nat) {j : Nat} (hj : j < c) :
    (l.flatMap f)[c * k + j]? = l[k]?.bind fun x => (f x)[j]? := by
  induction l generalizing k with
  | nil => simp
  | cons x l ih =>
    rw [List.flatMap_cons]
    cases k with
    | zero =>
      rw [Nat.mul_zero, Nat.zero_add, List.getElem?_append_left (by rw [hf]; exact hj)]
      rfl
    | succ k =>
      rw [Nat.mul_succ, List.getElem?_append_right (by rw [hf]; omega), hf,
        show c * k + c + j - c = c * k + j by omega, ih k]
      rfl

theorem length_flatMap_of_length (hf : ∀ x, (f x).length = c) (l : List α) :
    (l.flatMap f).length = c * l.length := by
  simp [List.length_flatMap, hf, Nat.mul_comm]

/-- The first lists of length `c` joined together are the first elements of all. -/
theorem flatMap_take_of_length (hf : ∀ x, (f x).length = c) (l : List α) (j : Nat) :
    (l.take j).flatMap f = (l.flatMap f).take (c * j) := by
  induction l generalizing j with
  | nil => simp
  | cons x l ih =>
    cases j with
    | zero => simp
    | succ j =>
      rw [List.take_succ_cons, List.flatMap_cons, List.flatMap_cons, ih, Nat.mul_succ, Nat.add_comm, ← hf x,
        List.take_length_add_append]

end lists

/-- A sum over the eight places of a word, written out. -/
theorem sum_range_eight (f : Nat → Nat) :
    ((List.range 8).map f).sum = f 0 + f 1 + f 2 + f 3 + f 4 + f 5 + f 6 + f 7 := by
  simp [List.range_succ, Nat.add_assoc]

section words
variable {bytes : List Byte} {ws : List Word}

/-- Eight bytes stand for the sum of each times 256 to its place (R84). -/
theorem toNat_wordOfBytes (b7 b6 b5 b4 b3 b2 b1 b0 : Byte) :
    (wordOfBytes [b7, b6, b5, b4, b3, b2, b1, b0]).toNat =
      b7.toNat * 2 ^ 56 + b6.toNat * 2 ^ 48 + b5.toNat * 2 ^ 40 + b4.toNat * 2 ^ 32 + b3.toNat * 2 ^ 24 +
        b2.toNat * 2 ^ 16 + b1.toNat * 2 ^ 8 + b0.toNat := by
  have h7 := b7.isLt
  have h6 := b6.isLt
  have h5 := b5.isLt
  have h4 := b4.isLt
  have h3 := b3.isLt
  have h2 := b2.isLt
  have h1 := b1.isLt
  have h0 := b0.isLt
  simp only [wordOfBytes, List.foldl_cons, List.foldl_nil, BitVec.toNat_ofNat]
  rw [Nat.mod_eq_of_lt (by omega)]
  omega

/-- A word is the sum of its serialized bytes, each times 256 to its place (R84). -/
theorem toNat_eq_sum_wordBytes (w : Word) :
    w.toNat = ((List.range 8).map fun j => ((wordBytes w)[j]?.getD 0).toNat * 2 ^ (8 * (7 - j))).sum := by
  have hsum := toNat_wordOfBytes (wordByte w 7) (wordByte w 6) (wordByte w 5) (wordByte w 4) (wordByte w 3)
    (wordByte w 2) (wordByte w 1) (wordByte w 0)
  have hbytes : wordOfBytes [wordByte w 7, wordByte w 6, wordByte w 5, wordByte w 4, wordByte w 3, wordByte w 2,
    wordByte w 1, wordByte w 0] = w := wordOfBytes_wordBytes w
  rw [hbytes] at hsum
  rw [sum_range_eight, hsum]
  simp only [Nat.reduceSub, Nat.reduceMul, Nat.pow_zero, Nat.mul_one]
  rfl

/-- Serialized words split into those words again (R84, R93). -/
theorem wordsOfBytes_flatMap (ws : List Word) : wordsOfBytes (ws.flatMap wordBytes) = some ws := by
  induction ws with
  | nil => rfl
  | cons w ws ih =>
    have hhead : wordOfBytes [wordByte w 7, wordByte w 6, wordByte w 5, wordByte w 4, wordByte w 3, wordByte w 2,
      wordByte w 1, wordByte w 0] = w := wordOfBytes_wordBytes w
    show (wordsOfBytes (ws.flatMap wordBytes)).map _ = _
    rw [ih, hhead]
    rfl

/-- Bytes that split into words are those words serialized (R84, R93). -/
theorem flatMap_of_wordsOfBytes (h : wordsOfBytes bytes = some ws) : ws.flatMap wordBytes = bytes := by
  induction bytes using wordsOfBytes.induct generalizing ws with
  | case1 => cases h; rfl
  | case2 b7 b6 b5 b4 b3 b2 b1 b0 rest ih =>
    obtain ⟨tail, htail, rfl⟩ := Option.map_eq_some_iff.mp h
    rw [List.flatMap_cons, wordBytes_wordOfBytes, ih htail]
    rfl
  | case3 bytes hnil hcons => simp [wordsOfBytes] at h

/-- A split gives one word for eight bytes (R93). -/
theorem length_of_wordsOfBytes (h : wordsOfBytes bytes = some ws) : bytes.length = 8 * ws.length := by
  rw [← flatMap_of_wordsOfBytes h]
  exact length_flatMap_of_length wordBytes_length ws

/-- Bytes whose count is a multiple of 8 split (R93). -/
theorem wordsOfBytes_of_length {n : Nat} (h : bytes.length = 8 * n) : ∃ ws, wordsOfBytes bytes = some ws := by
  induction n generalizing bytes with
  | zero => exact ⟨[], by rw [List.eq_nil_of_length_eq_zero h]; rfl⟩
  | succ n ih =>
    match bytes, h with
    | b7 :: b6 :: b5 :: b4 :: b3 :: b2 :: b1 :: b0 :: rest, h =>
      obtain ⟨ws, hws⟩ := ih (bytes := rest) (by simp only [List.length_cons] at h; omega)
      exact ⟨_, congrArg (Option.map _) hws⟩

/-- Bytes whose count is no multiple of 8 do not split (R93). -/
theorem wordsOfBytes_eq_none (h : ¬ 8 ∣ bytes.length) : wordsOfBytes bytes = none :=
  Option.eq_none_iff_forall_ne_some.mpr fun ws hws => h ⟨ws.length, length_of_wordsOfBytes hws⟩

end words

section addresses
variable {s : State} {base : Address}

/-- Two words of a transfer of at most 2^64 have different addresses. -/
theorem add_ofNat_ne {j k : Nat} (hj : j < 2 ^ 64) (hk : k < 2 ^ 64) (hne : j ≠ k) :
    base + BitVec.ofNat 64 j ≠ base + BitVec.ofNat 64 k := by
  rw [Ne, BitVec.add_right_inj]
  intro h
  have hoffset := congrArg BitVec.toNat h
  rw [BitVec.toNat_ofNat, BitVec.toNat_ofNat, Nat.mod_eq_of_lt hj, Nat.mod_eq_of_lt hk] at hoffset
  exact hne hoffset

/-- RAM does not answer the greatest address, as a region's end is a word and not in it (R71; log entry 9). -/
theorem toNat_lt_of_isRam {a : Address} (h : isRam s a = true) : a.toNat < 2 ^ 64 - 1 := by
  unfold isRam at h
  split at h
  case h_1 r off hdecode =>
    obtain ⟨-, hcontains, -⟩ := decodeAddress_contains _ _ r off hdecode
    obtain ⟨-, hlt⟩ := (regionContains_iff _ _).mp hcontains
    have hstop := r.stop.isLt
    omega
  case h_2 => cases h

/-- A run of addresses that RAM answers is shorter than 2^64, so it does not meet itself. -/
theorem lt_of_isRam {n : Nat} (hram : ∀ k < n, isRam s (base + BitVec.ofNat 64 k) = true) : n < 2 ^ 64 := by
  by_contra hlong
  have hreached : (BitVec.allOnes 64 - base).toNat < n := Nat.lt_of_lt_of_le (BitVec.isLt _) (Nat.not_lt.mp hlong)
  have haddress : base + BitVec.ofNat 64 (BitVec.allOnes 64 - base).toNat = BitVec.allOnes 64 := by
    rw [BitVec.ofNat_toNat, BitVec.setWidth_eq, BitVec.add_comm, BitVec.sub_add_cancel]
  have hgreatest := toNat_lt_of_isRam (hram _ hreached)
  rw [haddress, BitVec.toNat_allOnes] at hgreatest
  exact Nat.lt_irrefl _ hgreatest

end addresses

/-- Memory `m` holds these words from number `k` of a transfer on. -/
def holdsWords (m : Memory) (base : Address) (k : Nat) (ws : List Word) : Prop :=
  ∀ i w, ws[i]? = some w → m.readWord (base + BitVec.ofNat 64 (k + i)) = w

/-- Memory `m'` differs from `m` in the words `k` to `k + n - 1` of a transfer at most. -/
def transferKept (m m' : Memory) (base : Address) (k n : Nat) : Prop :=
  ∀ c, (∀ i < n, ¬ inWord (base + BitVec.ofNat 64 (k + i)) c) → m'.read c = m.read c

section transfers
variable {s : State} {base : Address} {m : Memory} {w : Word} {ws : List Word} {k : Nat}

theorem holdsWords_nil (m : Memory) (base : Address) (k : Nat) : holdsWords m base k [] := nofun

/-- Words held are the first of them, and the others one number on. -/
theorem holdsWords_cons : holdsWords m base k (w :: ws) ↔
    m.readWord (base + BitVec.ofNat 64 k) = w ∧ holdsWords m base (k + 1) ws := by
  constructor
  · intro h
    refine ⟨h 0 w rfl, fun i x hx => ?_⟩
    rw [Nat.add_assoc, Nat.add_comm 1]
    exact h (i + 1) x hx
  · rintro ⟨hfirst, hrest⟩ i x hx
    cases i with
    | zero => cases hx; exact hfirst
    | succ i =>
      have hword := hrest i x hx
      rwa [Nat.add_assoc, Nat.add_comm 1] at hword

/-- Words written where RAM answers: the transfer goes on after them, they are held, and nothing else has changed
(R93). -/
theorem loadWords_ram (rest : List Word) (hfit : k + ws.length ≤ 2 ^ 64)
    (hram : ∀ i < ws.length, isRam s (base + BitVec.ofNat 64 (k + i)) = true) :
    ∃ m, loadWords base k (ws ++ rest) s = loadWords base (k + ws.length) rest { s with mem := m } ∧
      holdsWords m base k ws ∧ transferKept s.mem m base k ws.length := by
  induction ws generalizing s k with
  | nil => exact ⟨s.mem, rfl, holdsWords_nil _ _ _, fun _ _ => rfl⟩
  | cons w ws ih =>
    rw [List.length_cons] at hfit hram
    have hnext (i : Nat) : k + 1 + i = k + (i + 1) := by omega
    have hhead : isRam s (base + BitVec.ofNat 64 k) = true := hram 0 (Nat.succ_pos _)
    obtain ⟨m, hload, hheld, hkept⟩ := ih (s := { s with mem := s.mem.writeWord (base + BitVec.ofNat 64 k) w })
      (k := k + 1) (by omega) fun i hi => by rw [hnext]; exact hram (i + 1) (Nat.succ_lt_succ hi)
    refine ⟨m, ?load, holdsWords_cons.mpr ⟨?first, hheld⟩, fun c hc => ?kept⟩
    case load =>
      rw [List.cons_append, loadWords, busWrite_ram s _ w hhead, List.length_cons, ← hnext ws.length]
      exact hload
    case first =>
      refine (Memory.readWord_congr _ m _ fun c hc => hkept c fun i hi hother => ?_).trans
        (Memory.readWord_writeWord_same s.mem _ w)
      exact add_ofNat_ne (by omega) (by omega) (by omega) (inWord_unique _ _ c hc hother)
    case kept =>
      rw [hkept c fun i hi => by rw [hnext]; exact hc (i + 1) (Nat.succ_lt_succ hi)]
      exact Memory.read_writeWord_other _ _ w c (hc 0 (Nat.succ_pos _))

/-- A dump of words that RAM holds gives their bytes and changes nothing (R94). -/
theorem dumpWords_ram (hram : ∀ i < ws.length, isRam s (base + BitVec.ofNat 64 (k + i)) = true)
    (hheld : holdsWords s.mem base k ws) : dumpWords base k ws.length s = (s, .ok (ws.flatMap wordBytes)) := by
  induction ws generalizing k with
  | nil => rfl
  | cons w ws ih =>
    rw [List.length_cons] at hram
    obtain ⟨hfirst, hrest⟩ := holdsWords_cons.mp hheld
    have htail := ih (k := k + 1) (fun i hi => by
      rw [show k + 1 + i = k + (i + 1) by omega]; exact hram (i + 1) (Nat.succ_lt_succ hi)) hrest
    have hhead : isRam s (base + BitVec.ofNat 64 k) = true := hram 0 (Nat.succ_pos _)
    have hword : s.word (base + BitVec.ofNat 64 k) = w := hfirst
    rw [List.length_cons, dumpWords, busRead_ram s _ hhead, hword]
    simp only [htail, List.flatMap_cons]

/-- A transfer stops at an unmapped word, with its number (R93; log entry 8). -/
theorem loadWords_unmapped (rest : List Word) (hun : isUnmapped s (base + BitVec.ofNat 64 k) = true) :
    loadWords base k (w :: rest) s = (s, .error (.transferFailed k)) := by
  rw [loadWords, busWrite_unmapped s _ w hun]

end transfers

section driver
variable {s : State} {base : Address} {bytes : List Byte} {ws : List Word}

/-- The host's load is the transfer of the words its bytes split into (R93). -/
theorem driverLoad_eq (h : wordsOfBytes bytes = some ws) : driverLoad base bytes s = loadWords base 0 ws s := by
  rw [driverLoad, h]

/-- A load into RAM writes all its words, and nothing else (R93). -/
theorem driverLoad_ram (h : wordsOfBytes bytes = some ws)
    (hram : ∀ k < ws.length, isRam s (base + BitVec.ofNat 64 k) = true) :
    ∃ m, driverLoad base bytes s = ({ s with mem := m }, .ok ()) ∧ holdsWords m base 0 ws ∧
      transferKept s.mem m base 0 ws.length := by
  have hfit := lt_of_isRam hram
  obtain ⟨m, hload, hheld, hkept⟩ :=
    loadWords_ram (k := 0) (ws := ws) [] (by omega) (by simpa using hram)
  rw [List.append_nil] at hload
  exact ⟨m, (driverLoad_eq h).trans hload, hheld, hkept⟩

/-- A load whose word `j` is the first that RAM does not answer, and is unmapped, writes the words before it (R93; log
entry 8). -/
theorem driverLoad_unmapped {j : Nat} (h : wordsOfBytes bytes = some ws) (hj : j < ws.length)
    (hram : ∀ k < j, isRam s (base + BitVec.ofNat 64 k) = true)
    (hun : isUnmapped s (base + BitVec.ofNat 64 j) = true) :
    ∃ m, driverLoad base bytes s = ({ s with mem := m }, .error (.transferFailed j)) ∧
      holdsWords m base 0 (ws.take j) := by
  have hfit := lt_of_isRam hram
  have hlength : (ws.take j).length = j := List.length_take_of_le hj.le
  obtain ⟨m, hload, hheld, -⟩ := loadWords_ram (k := 0) (ws := ws.take j) (ws.drop j)
    (by omega) (by simpa [hlength] using hram)
  rw [List.take_append_drop, hlength, Nat.zero_add, List.drop_eq_getElem_cons hj] at hload
  exact ⟨m, ((driverLoad_eq h).trans hload).trans (loadWords_unmapped _ hun), hheld⟩

/-- A byte of a split, by the word it lies in (R84). -/
theorem getElem?_bytes (h : wordsOfBytes bytes = some ws) {k j : Nat} {w : Word} (hw : ws[k]? = some w) (hj : j < 8) :
    bytes[8 * k + j]? = (wordBytes w)[j]? := by
  rw [← flatMap_of_wordsOfBytes h, getElem?_flatMap_of_length wordBytes_length ws k hj, hw]
  rfl

/-- The host's dump of words that RAM holds (R94). -/
theorem driverDump_ram (hram : ∀ i < ws.length, isRam s (base + BitVec.ofNat 64 i) = true)
    (hheld : holdsWords s.mem base 0 ws) : driverDump base ws.length s = (s, .ok (ws.flatMap wordBytes)) :=
  dumpWords_ram (by simpa using hram) hheld

end driver

/-- Settles O56: the words a load splits its bytes into are held after it, as far as it came, and a dump of words that
are held gives their bytes. -/
theorem loadThenDumpGivesTheBytes : Obligations.LoadThenDumpGivesTheBytes := by
  intro s base bytes n hlength
  obtain ⟨ws, hws⟩ := wordsOfBytes_of_length hlength
  obtain rfl : ws.length = n := by have := length_of_wordsOfBytes hws; omega
  refine ⟨fun hram => ?loads, fun j hj hram hun => ?stops, fun extra hpos hlt => ?refused⟩
  case loads =>
    obtain ⟨m, hload, hheld, hkept⟩ := driverLoad_ram hws hram
    refine ⟨_, hload, ?dump, fun k hk => ?word, fun _ _ => rfl, rfl, ⟨rfl, rfl, rfl⟩, ⟨rfl, rfl⟩,
      ⟨⟨rfl, rfl, rfl, rfl⟩, rfl⟩, by simpa [transferKept] using hkept⟩
    case dump =>
      rw [← flatMap_of_wordsOfBytes hws]
      exact driverDump_ram (s := { s with mem := m }) hram hheld
    case word =>
      have hword : ws[k]? = some ws[k] := List.getElem?_eq_getElem hk
      have hread := hheld k _ hword
      rw [Nat.zero_add] at hread
      rw [State.word, hread, toNat_eq_sum_wordBytes]
      refine congrArg List.sum (List.map_congr_left fun j hj => ?_)
      rw [getElem?_bytes hws hword (List.mem_range.mp hj)]
  case stops =>
    obtain ⟨m, hload, hheld⟩ := driverLoad_unmapped hws hj hram hun
    have htake : (ws.take j).length = j := List.length_take_of_le hj.le
    have hdump := driverDump_ram (s := { s with mem := m }) (by rwa [htake]) hheld
    rw [htake, flatMap_take_of_length wordBytes_length, flatMap_of_wordsOfBytes hws] at hdump
    exact ⟨_, hload, hdump⟩
  case refused =>
    rw [driverLoad, wordsOfBytes_eq_none]
    rw [List.length_append]
    omega

section images
variable {is : List Instr} {s : State} {base : Address}

/-- The three words of an instruction's record (R110). -/
def recordWords (i : Instr) : List Word := [(encode i).w0, (encode i).a, (encode i).v]

theorem recordWords_length (i : Instr) : (recordWords i).length = 3 := rfl

/-- An image is the records' words, serialized (R148). -/
theorem imageBytes_eq (is : List Instr) : imageBytes is = (is.flatMap recordWords).flatMap wordBytes := by
  rw [imageBytes, List.flatMap_assoc]
  refine List.flatMap_congr fun i _ => ?_
  simp [encodeBytes, tripletBytes, recordWords]

/-- An image splits into its records' words (R93, R148). -/
theorem wordsOfBytes_imageBytes (is : List Instr) : wordsOfBytes (imageBytes is) = some (is.flatMap recordWords) := by
  rw [imageBytes_eq, wordsOfBytes_flatMap]

/-- Word `3 * k + j` of an image is word `j` of its `k`-th instruction (R110, R148). -/
theorem getElem?_image {k j : Nat} (hk : k < is.length) (hj : j < 3) :
    (is.flatMap recordWords)[3 * k + j]? = (recordWords is[k])[j]? := by
  rw [getElem?_flatMap_of_length recordWords_length is k hj, List.getElem?_eq_getElem hk]
  rfl

end images

/-- Settles O57: a loaded image is held word by word, three for an instruction. -/
theorem loadedImageIsWhatRuns : Obligations.LoadedImageIsWhatRuns := by
  intro is base s hram
  have hlength : (is.flatMap recordWords).length = 3 * is.length := length_flatMap_of_length recordWords_length is
  rw [← hlength] at hram
  obtain ⟨m, hload, hheld, -⟩ := driverLoad_ram (wordsOfBytes_imageBytes is) hram
  refine ⟨_, hload, fun k hk hne => ?_⟩
  have hfetch : fetchAddress (State.jumpTo { s with mem := m } (base + BitVec.ofNat 64 (3 * k))) =
      base + BitVec.ofNat 64 (3 * k) := by
    rw [fetchAddress, boot_of_pc_ne_zero hne]; rfl
  have hram' (j : Nat) (hj : j < 3) : isRam s (base + BitVec.ofNat 64 (3 * k + j)) = true :=
    hram _ (by omega)
  have hword (j : Nat) (hj : j < 3) {w : Word} (hw : (recordWords is[k])[j]? = some w) :
      m.readWord (base + BitVec.ofNat 64 (3 * k + j)) = w := by
    have hread := hheld (3 * k + j) w ((getElem?_image hk hj).trans hw)
    rwa [Nat.zero_add] at hread
  have hstep (j : Nat) : base + BitVec.ofNat 64 (3 * k) + BitVec.ofNat 64 j = base + BitVec.ofNat 64 (3 * k + j) := by
    rw [BitVec.add_assoc, BitVec.ofNat_add]
  rw [fetchesRam, hfetch]
  exact ⟨hram' 0 (by decide), hstep 1 ▸ hram' 1 (by decide), hstep 2 ▸ hram' 2 (by decide),
    hword 0 (by decide) rfl, hstep 1 ▸ hword 1 (by decide) rfl, hstep 2 ▸ hword 2 (by decide) rfl⟩

end Sys2Proof.Proofs
